-- ==== Sys2Proof/Word.lean ====
section
/-! DEFINITION. The word types of the command port and of the F values (30_encoding.md R80 to R82, 00_scope.md R15). -/

namespace Sys2Proof

/-- A command word, a status word, or an item of type u32 or s32 (30_encoding.md R82). -/
abbrev Word := BitVec 32

/-- An F value: the W_F-bit IEEE 754 encoding of 00_scope.md R15, zero-extended in a 64-bit carrier so that NUM_FMT
can be either format (entry 2). -/
abbrev F := BitVec 64

/-- One item on the command port, "a whole word of its width" (20_memory.md R64), zero-extended in a 64-bit carrier
(entry 2). -/
abbrev Item := BitVec 64

/-- A 32-bit word as a port item. -/
def Word.toItem (w : Word) : Item := w.setWidth 64

/-- The 32-bit word a port item carries: the low 32 bits (entry 2). -/
def Item.toWord (i : Item) : Word := i.setWidth 32

@[simp] theorem Item.toWord_toItem (w : Word) : (Word.toItem w).toWord = w := by
  simp [Word.toItem, Item.toWord]

end Sys2Proof
end

