-- ==== Sys2Proof/Config.lean ====
section
/-! DEFINITION. The implementation parameters of 00_scope.md section 4 and the free values (92_eei_decisions.md,
"Open parameters"). The defaults stand in Sys2Proof/Machine/Defaults.lean. -/

namespace Sys2Proof

/-- NUM_FMT, the number format F (00_scope.md R11, 92 D3). -/
inductive NumFmt where
  | binary32
  | binary64
  deriving DecidableEq, Repr

/-- W_F, the width in bits of one F item (30_encoding.md R82, 92 D27). -/
def NumFmt.width : NumFmt → Nat
  | .binary32 => 32
  | .binary64 => 64

/-- The low W_F bits of a carrier: what an F item of W_F bits can hold (entry 2). -/
def NumFmt.trim (fmt : NumFmt) (x : BitVec 64) : F := BitVec.ofNat 64 (x.toNat % 2 ^ fmt.width)

/-- The value fits the W_F bits of its format (entry 2). -/
def NumFmt.fits (fmt : NumFmt) (x : F) : Bool := decide (x.toNat < 2 ^ fmt.width)

/-- The thirteen delay lines L[0] to L[12], by the names of 10_state.md R29. -/
inductive LineName where
  | in0 | in1 | in2 | in3 | moda | modb | dla | dlb | rca | rcb | difa | difb | pre
  deriving DecidableEq, Repr

/-- Interpolation mode: MODE 0 none, 1 linear, 2 all-pass (10_state.md R26, 92 D45). -/
inductive Interp where
  | none | linear | allpass
  deriving DecidableEq, Repr

/-- EXC_SPLIT: how a modulation offset is split (40_delay_line.md R104, 92 D13). -/
inductive ExcSplit where
  | floor | trunc
  deriving DecidableEq, Repr

/-- TAP_SCALE: whether tap offsets are rescaled with size and rate (42_network.md R162, 92 D22). -/
inductive TapScale where
  | fixed | scaled
  deriving DecidableEq, Repr

/-- Where a function parameter (SIN, POW10, APCOEF) comes from: the default of 00_scope.md section 4, or a function the
implementation supplies, about which nothing is known (entry 7). -/
inductive FnSource where
  | standard | supplied
  deriving DecidableEq, Repr

/-- One row of the output tap table TAPS (42_network.md R162): its sign, its line and its offset k. -/
structure TapRow where
  negative : Bool
  line : LineName
  offset : Nat
  deriving DecidableEq, Repr

/-- The implementation parameters of 00_scope.md section 4. NAN_OUT is not a field: it is a draw (`Config.draw`). -/
structure Params where
  numFmt : NumFmt
  sin : FnSource
  pow10 : FnSource
  apcoef : FnSource
  twoPi : F
  modInterp : Interp
  excSplit : ExcSplit
  tapsLeft : List TapRow
  tapsRight : List TapRow
  tapScale : TapScale
  cap0 : Nat
  maxcap : Nat
  deriving DecidableEq, Repr

/-- The sizes 00_scope.md R10 allows: lines are created with at least one slot, no line starts above MAXCAP, and every
slot index is below 2^31 (entry 17). -/
def Params.sane (p : Params) : Bool :=
  decide (1 ≤ p.cap0) && decide (p.cap0 ≤ p.maxcap) && decide (p.maxcap < 2 ^ 31)

namespace Config

/-- FREE VALUE (entry 3). Draw number `tick` of the run, at the place `site` of the command's procedure: the arbitrary
bits a NaN result, the sign of SIN(-0) and the other open values are taken from (93 I10). -/
opaque draw (tick site : Nat) : BitVec 64

/-- SIN as an implementation supplies it (00_scope.md section 4, 93 I11; entry 7). -/
opaque suppliedSin (fmt : NumFmt) : BitVec 64 → BitVec 64

/-- POW10 as an implementation supplies it (00_scope.md section 4, 93 I11; entry 7). -/
opaque suppliedPow10 (fmt : NumFmt) : BitVec 64 → BitVec 64

/-- APCOEF as an implementation supplies it (00_scope.md section 4, 93 I15; entry 7). -/
opaque suppliedApcoef (fmt : NumFmt) : BitVec 64 → BitVec 64

end Config
end Sys2Proof
end

