-- ==== Sys2Proof/Machine/Fp.lean ====
section
/-! DEFINITION. F arithmetic (00_scope.md R11, R12): IEEE 754 binary32 or binary64, each operation computed exactly and
rounded once to nearest, ties to even, subnormals kept. Every finite F value is a whole number of UNITS, the least
positive subnormal of its format, so exact results are integers or quotients of integers. -/

namespace Sys2Proof.Machine

/-- Where an F operation stands in a run: the parameters, the number of the draw, and the path of the operation inside
its command. The path makes the free values of two different operations two different draws (entry 3). -/
structure Ctx where
  cfg : Params
  tick : Nat
  site : Nat
  deriving DecidableEq, Repr

/-- The place number `i` (1 to 31) inside place `c`: its path with one more base-32 digit (entry 3). -/
def Ctx.at (c : Ctx) (i : Nat) : Ctx := { c with site := 32 * c.site + i }

/-- The free bits of this place (entry 3). -/
def Ctx.draw (c : Ctx) : BitVec 64 := Config.draw c.tick c.site

/-- The format of this machine's F values. -/
def Ctx.fmt (c : Ctx) : NumFmt := c.cfg.numFmt

namespace Fp

/-! ## Formats and encodings -/

/-- Bits of the exponent field. -/
def expBits : NumFmt → Nat
  | .binary32 => 8
  | .binary64 => 11

/-- Bits of the fraction field. -/
def fracBits : NumFmt → Nat
  | .binary32 => 23
  | .binary64 => 52

/-- The all-ones exponent field, of infinities and NaNs. -/
def expMax (fmt : NumFmt) : Nat := 2 ^ expBits fmt - 1

/-- log2 of the number of units in 1.0. -/
def unitShift (fmt : NumFmt) : Nat := 2 ^ (expBits fmt - 1) - 2 + fracBits fmt

/-- The number of units in 1.0. -/
def one (fmt : NumFmt) : Nat := 2 ^ unitShift fmt

/-- The encoding of +infinity. -/
def infBits (fmt : NumFmt) : Nat := expMax fmt * 2 ^ fracBits fmt

/-- The sign bit's weight. -/
def signBit (fmt : NumFmt) : Nat := 2 ^ (fmt.width - 1)

/-- What an F value stands for: NaN, a signed infinity, or a sign and a magnitude in units. -/
inductive Num where
  | nan
  | inf (negative : Bool)
  | fin (negative : Bool) (units : Nat)
  deriving DecidableEq, Repr

/-- Read an encoding. -/
def unpack (fmt : NumFmt) (x : F) : Num :=
  let bits := x.toNat % 2 ^ fmt.width
  let negative := decide (signBit fmt ≤ bits)
  let e := bits / 2 ^ fracBits fmt % 2 ^ expBits fmt
  let fraction := bits % 2 ^ fracBits fmt
  if e = expMax fmt then
    if fraction = 0 then .inf negative else .nan
  else if e = 0 then .fin negative fraction
  else .fin negative ((2 ^ fracBits fmt + fraction) * 2 ^ (e - 1))

/-- The encoding with the given sign and magnitude bits. -/
def withSign (fmt : NumFmt) (negative : Bool) (magnitude : Nat) : F :=
  BitVec.ofNat 64 (if negative then signBit fmt + magnitude else magnitude)

/-- The magnitude bits of the value nearest to `n / d` units (d > 0), ties to even, overflow to infinity
(00_scope.md R11). The quotient is cut to `fracBits + 1` leading bits; encodings of consecutive magnitudes are
consecutive numbers, so a carry out of the fraction moves into the exponent by itself. -/
def roundUnits (fmt : NumFmt) (n d : Nat) : Nat :=
  let q := n / d
  let shift := if q < 2 ^ (fracBits fmt + 1) then 0 else Nat.log2 q - fracBits fmt
  let step := d * 2 ^ shift
  let m := n / step
  let r := n % step
  let rounded := if step < 2 * r ∨ (2 * r = step ∧ m % 2 = 1) then m + 1 else m
  min (shift * 2 ^ fracBits fmt + rounded) (infBits fmt)

/-- The F value nearest to a signed quotient of units. -/
def round (fmt : NumFmt) (negative : Bool) (n d : Nat) : F := withSign fmt negative (roundUnits fmt n d)

/-- +0. -/
def zero : F := 0#64

/-- A signed infinity. -/
def infinity (fmt : NumFmt) (negative : Bool) : F := withSign fmt negative (infBits fmt)

/-- The NaN that 64 bits pick: every NaN encoding of the format is one of these (entry 3). -/
def nanOf (fmt : NumFmt) (bits : BitVec 64) : F :=
  let fraction := bits.toNat % 2 ^ fracBits fmt
  withSign fmt (bits.toNat.testBit 63) (infBits fmt + if fraction = 0 then 2 ^ (fracBits fmt - 1) else fraction)

/-- NAN_OUT: any NaN of the format, picked by the free bits of this place (00_scope.md section 4, 93 I10; entry 3). -/
def nanOut (c : Ctx) : F := nanOf c.fmt c.draw

/-! ## The four operations (00_scope.md R11) -/

/-- Addition of finite values: the exact sum rounded; an exact zero sum is -0 only when both operands are. -/
def addFinite (fmt : NumFmt) (s : Bool) (m : Nat) (t : Bool) (n : Nat) : F :=
  if s = t then round fmt s (m + n) 1
  else if m = n then zero
  else if n < m then round fmt s (m - n) 1
  else round fmt t (n - m) 1

/-- `a + b`. -/
def add (c : Ctx) (a b : F) : F :=
  match unpack c.fmt a, unpack c.fmt b with
  | .nan, _ => nanOut c
  | _, .nan => nanOut c
  | .inf s, .inf t => if s = t then infinity c.fmt s else nanOut c
  | .inf s, .fin _ _ => infinity c.fmt s
  | .fin _ _, .inf t => infinity c.fmt t
  | .fin s m, .fin t n => addFinite c.fmt s m t n

/-- `a - b`: the sum with the second operand's sign turned. -/
def sub (c : Ctx) (a b : F) : F :=
  match unpack c.fmt a, unpack c.fmt b with
  | .nan, _ => nanOut c
  | _, .nan => nanOut c
  | .inf s, .inf t => if s = t then nanOut c else infinity c.fmt s
  | .inf s, .fin _ _ => infinity c.fmt s
  | .fin _ _, .inf t => infinity c.fmt (!t)
  | .fin s m, .fin t n => addFinite c.fmt s m (!t) n

/-- `a × b`. -/
def mul (c : Ctx) (a b : F) : F :=
  match unpack c.fmt a, unpack c.fmt b with
  | .nan, _ => nanOut c
  | _, .nan => nanOut c
  | .inf s, .inf t => infinity c.fmt (s != t)
  | .inf s, .fin t n => if n = 0 then nanOut c else infinity c.fmt (s != t)
  | .fin s m, .inf t => if m = 0 then nanOut c else infinity c.fmt (s != t)
  | .fin s m, .fin t n => round c.fmt (s != t) (m * n) (one c.fmt)

/-- `a / b`. -/
def div (c : Ctx) (a b : F) : F :=
  match unpack c.fmt a, unpack c.fmt b with
  | .nan, _ => nanOut c
  | _, .nan => nanOut c
  | .inf _, .inf _ => nanOut c
  | .inf s, .fin t _ => infinity c.fmt (s != t)
  | .fin s _, .inf t => withSign c.fmt (s != t) 0
  | .fin s m, .fin t n =>
    if n = 0 then
      if m = 0 then nanOut c else infinity c.fmt (s != t)
    else round c.fmt (s != t) (m * one c.fmt) n

/-! ## Comparisons (00_scope.md R11: any comparison with a NaN is false; -0 = +0) -/

/-- A whole number that orders the values; none for a NaN. Infinity lies beyond every finite magnitude. -/
def orderKey (fmt : NumFmt) (x : F) : Option Int :=
  match unpack fmt x with
  | .nan => none
  | .inf negative => some (if negative then -(2 ^ (2 ^ expBits fmt + fracBits fmt) : Int) else 2 ^ (2 ^ expBits fmt + fracBits fmt))
  | .fin negative m => some (if negative then -(m : Int) else m)

/-- `a < b`. -/
def lt (fmt : NumFmt) (a b : F) : Bool :=
  match orderKey fmt a, orderKey fmt b with
  | some x, some y => decide (x < y)
  | _, _ => false

/-- `a = b`. -/
def eq (fmt : NumFmt) (a b : F) : Bool :=
  match orderKey fmt a, orderKey fmt b with
  | some x, some y => decide (x = y)
  | _, _ => false

/-! ## Conversions (00_scope.md R12) -/

/-- `toF(n)`. -/
def ofInt (fmt : NumFmt) (n : Int) : F := round fmt (decide (n < 0)) (n.natAbs * one fmt) 1

/-- `fl(n / d)`: a decimal literal, given as the quotient of two whole numbers, rounded to nearest. -/
def lit (fmt : NumFmt) (n d : Nat) : F := round fmt false (n * one fmt) d

/-- `isfinite(v)`. -/
def isFinite (fmt : NumFmt) (x : F) : Bool :=
  match unpack fmt x with
  | .nan => false
  | .inf _ => false
  | .fin _ _ => true

/-- `floor(v)` of a finite value; none for a value that is not finite. -/
def floor? (fmt : NumFmt) (x : F) : Option Int :=
  match unpack fmt x with
  | .nan => none
  | .inf _ => none
  | .fin negative m => some ((if negative then -(m : Int) else (m : Int)) / (one fmt : Int))

/-- `ceil(v)` of a finite value; none for a value that is not finite. -/
def ceil? (fmt : NumFmt) (x : F) : Option Int :=
  match unpack fmt x with
  | .nan => none
  | .inf _ => none
  | .fin negative m => some (-((if negative then (m : Int) else -(m : Int)) / (one fmt : Int)))

/-- The integer part of a finite value, rounded toward zero; none for a value that is not finite. -/
def trunc? (fmt : NumFmt) (x : F) : Option Int :=
  match unpack fmt x with
  | .nan => none
  | .inf _ => none
  | .fin negative m => some (if negative then -((m / one fmt : Nat) : Int) else ((m / one fmt : Nat) : Int))

end Fp
end Sys2Proof.Machine
end

