-- ==== Sys2Proof/Machine/Elementary.lean ====
section
/-! DEFINITION. SIN, POW10 and APCOEF (00_scope.md section 4, 92 D4, 92 D12). The defaults of SIN and POW10 are correctly
rounded: the value is enclosed between two fixed-point bounds much finer than F, and where both bounds round to one F
value that is the result (entries 4 and 6). -/

namespace Sys2Proof.Machine.Fp

/-- floor(pi × 2^2304). -/
def piFixed : Nat := 0x3243f6a8885a308d313198a2e03707344a4093822299f31d0082efa98ec4e6c89452821e638d01377be5466cf34e90c6cc0ac29b7c97c50dd3f84d5b5b54709179216d5d98979fb1bd1310ba698dfb5ac2ffd72dbd01adfb7b8e1afed6a267e96ba7c9045f12c7f9924a19947b3916cf70801f2e2858efc16636920d871574e69a458fea3f4933d7e0d95748f728eb658718bcd5882154aee7b54a41dc25a59b59c30d5392af26013c5d1b023286085f0ca417918b8db38ef8e79dcb0603a180e6c9e0e8bb01e8a3ed71577c1bd314b2778af2fda55605c60e65525f3aa55ab945748986263e8144055ca396a2aab10b6b4cc5c341141e8cea15486af7c72e993b3ee1411636fbc2a2ba9c55d741831f6ce5c3e169b87931eafd6ba336c24cf5c

/-- floor(log2(10) × 2^512). -/
def log2TenFixed : Nat := 0x35269e12f346e2bf924afdbfd36bf6d3365b157f8deceb53a46dab2020b9e167419943f7a77547ce8f892faad8eb42f5850d7b920159729533fc58b353d80ce07

/-- floor(ln(2) × 2^512). -/
def lnTwoFixed : Nat := 0xb17217f7d1cf79abc9e3b39803f2f6af40f343267298b62d8a0d175b8baafa2be7b876206debac98559552fb4afa1b10ed2eae35c138214427573b291169b825

/-- The F value between two bounds in units over `d`: the one they both round to; where they round to two, one of the
two, a free choice of this place (entries 4 and 6). -/
def enclosed (c : Ctx) (negative : Bool) (lo hi d : Nat) : F :=
  let a := roundUnits c.fmt lo d
  let b := roundUnits c.fmt hi d
  withSign c.fmt negative (if a = b then a else if c.draw.getLsbD 0 then a else b)

/-- A Taylor series in fixed point with `w` fraction bits: from the term `t` with index `k`, each next term is the last
times `x2` over (k + 1)(k + 2), and the signs alternate. `fuel` bounds the number of terms; it stops at a zero term. -/
def alternating (w x2 : Nat) : Nat → Nat → Nat → Int
  | 0, _, _ => 0
  | fuel + 1, k, t =>
    if t = 0 then 0
    else (t : Int) - alternating w x2 fuel (k + 2) (t * x2 / 2 ^ w / ((k + 1) * (k + 2)))

/-- sin of a fixed-point angle in [0, 1). -/
def sinFixed (w x : Nat) : Nat := (alternating w (x * x / 2 ^ w) w 1 x).toNat

/-- cos of a fixed-point angle in [0, 1). -/
def cosFixed (w x : Nat) : Nat := (alternating w (x * x / 2 ^ w) w 0 (2 ^ w)).toNat

/-- The exponential series of a fixed-point exponent in [0, 1). -/
def expFixed (w x : Nat) : Nat → Nat → Nat → Nat
  | 0, _, _ => 0
  | fuel + 1, k, t => if t = 0 then 0 else t + expFixed w x fuel (k + 1) (t * x / 2 ^ w / (k + 1))

/-- Guard bits of SIN's bounds below one unit. -/
def sinGuard : Nat := 64

/-- The sine's magnitude and sign, for the angle of `m` units: reduced by the nearest multiple of pi/2, with enough bits
of pi for the largest finite angle; in fixed point with `unitShift + sinGuard` fraction bits. -/
def sinMagnitude (fmt : NumFmt) (m : Nat) : Bool × Nat :=
  let w := unitShift fmt + sinGuard
  let extra := 2 ^ (expBits fmt - 1) + 16
  let pi := piFixed / 2 ^ (2304 - (w + extra))
  let angle := m * 2 ^ (sinGuard + extra)
  let quarter := (2 * angle + pi / 2) / pi
  let rest : Int := 2 * (angle : Int) - (quarter * pi : Nat)
  let r := rest.natAbs / 2 ^ (extra + 1)
  let below := decide (rest < 0)
  match quarter % 4 with
  | 0 => (below, sinFixed w r)
  | 1 => (false, cosFixed w r)
  | 2 => (!below, sinFixed w r)
  | _ => (true, cosFixed w r)

/-- The default SIN: the sine of the exact value of the operand, correctly rounded; a NaN for an infinity or a NaN
(92 D4). The sign of the sine of -0 is open (entry 5). -/
def sinRounded (c : Ctx) (x : F) : F :=
  match unpack c.fmt x with
  | .nan => nanOut c
  | .inf _ => nanOut c
  | .fin negative m =>
    if m = 0 then
      if negative then withSign c.fmt (c.draw.getLsbD 0) 0 else zero
    else
      let (below, s) := sinMagnitude c.fmt m
      enclosed c (negative != below) (s - 4096) (s + 4096) (2 ^ sinGuard)

/-- Fraction bits of POW10's fixed-point series. -/
def powBits : NumFmt → Nat
  | .binary32 => 192
  | .binary64 => 320

/-- The default POW10: 10^v, correctly rounded; POW10(-inf) = +0, overflow to +inf, underflow to +0 or a subnormal as
rounding gives (92 D4). A whole v gives an exact quotient; any other v is split as 2^(n + f). Beyond 400 in magnitude
the result is +inf or +0 in either format. -/
def pow10Rounded (c : Ctx) (v : F) : F :=
  match unpack c.fmt v with
  | .nan => nanOut c
  | .inf negative => if negative then zero else infinity c.fmt false
  | .fin negative m =>
    let u := one c.fmt
    if 400 * u ≤ m then
      if negative then zero else infinity c.fmt false
    else if m % u = 0 then
      if negative then round c.fmt false u (10 ^ (m / u)) else round c.fmt false (10 ^ (m / u) * u) 1
    else
      let w := powBits c.fmt
      let scaled := m * (log2TenFixed / 2 ^ (512 - w)) / u
      let y : Int := if negative then -(scaled : Int) else scaled
      let n : Int := y / (2 ^ w : Int)
      let f := (y % (2 ^ w : Int)).toNat
      let e := expFixed w (f * (lnTwoFixed / 2 ^ (512 - w)) / 2 ^ w) w 0 (2 ^ w)
      let shift : Int := n + unitShift c.fmt
      let up := 2 ^ shift.toNat
      let down := 2 ^ (w + (-shift).toNat)
      enclosed c false ((e - 8192) * up) ((e + 8192) * up) down

/-- SIN, the parameter of 00_scope.md section 4. -/
def sin (c : Ctx) (x : F) : F :=
  match c.cfg.sin with
  | .standard => sinRounded c x
  | .supplied => c.fmt.trim (Config.suppliedSin c.fmt x)

/-- POW10, the parameter of 00_scope.md section 4. -/
def pow10 (c : Ctx) (x : F) : F :=
  match c.cfg.pow10 with
  | .standard => pow10Rounded c x
  | .supplied => c.fmt.trim (Config.suppliedPow10 c.fmt x)

/-- APCOEF, the parameter of 00_scope.md section 4: by default (1 - f) / (1 + f) (40_delay_line.md R109, 92 D12). -/
def apcoef (c : Ctx) (f : F) : F :=
  match c.cfg.apcoef with
  | .standard => div (c.at 3) (sub (c.at 1) (lit c.fmt 1 1) f) (add (c.at 2) (lit c.fmt 1 1) f)
  | .supplied => c.fmt.trim (Config.suppliedApcoef c.fmt f)

end Sys2Proof.Machine.Fp
end

