-- ==== Sys2Proof/Syntax.lean ====
section
/-! DEFINITION. The commands of the DRC: one constructor per row of spec/opcode_table.json (30_encoding.md R83, R84).
Register, line and field numbers are names here; the machine never sees the raw SEL and FLD bytes. -/

namespace Sys2Proof

/-- The block-level registers RDREG reads, by the names of 10_state.md R23, in number order 0 to 13. -/
inductive RegName where
  | status | sr | bw | damp | decay | dd1 | dd2 | id1 | id2 | wet | dry | lpbw | lpa | lpb
  deriving DecidableEq, Repr

/-- The fields of a delay line LRD reads, by the names of 10_state.md R26, in number order 0 to 13. -/
inductive FieldName where
  | cap | n | off | w | frac | phase | freq | ext | exc | mode | fb | aps | moden | lsr
  deriving DecidableEq, Repr

/-- The commands, with their operand items in transfer order (30_encoding.md R83). -/
inductive Instr where
  /-- NOP, 45_control.md R210. -/
  | nop
  /-- INIT sr, R211. -/
  | init (sr : Word)
  /-- DEINIT, R215. -/
  | deinit
  /-- RDREG register, R216. -/
  | rdreg (reg : RegName)
  /-- LRD line.field, R217. -/
  | lrd (line : LineName) (field : FieldName)
  /-- LRDBUF line, i, R218. -/
  | lrdbuf (line : LineName) (index : Word)
  /-- SETP.PREDELAY value, 43_parameters.md R181. -/
  | setpPredelay (value : F)
  /-- SETP.BANDWIDTH value, R182. -/
  | setpBandwidth (value : F)
  /-- SETP.DAMPING value, R183. -/
  | setpDamping (value : F)
  /-- SETP.DECAY value, R184. -/
  | setpDecay (value : F)
  /-- SETP.DIFFUSION1 value, R185. -/
  | setpDiffusion1 (value : F)
  /-- SETP.DIFFUSION2 value, R186. -/
  | setpDiffusion2 (value : F)
  /-- SETP.INDIFF1 value, R187. -/
  | setpIndiff1 (value : F)
  /-- SETP.INDIFF2 value, R188. -/
  | setpIndiff2 (value : F)
  /-- SETP.MODULATION value, R189. -/
  | setpModulation (value : F)
  /-- SETP.SIZE value, R190. -/
  | setpSize (value : F)
  /-- SETP.WET value, R191. -/
  | setpWet (value : F)
  /-- SETP.DRY value, R192. -/
  | setpDry (value : F)
  /-- FRAME left, right, 42_network.md R163. -/
  | frame (left right : F)
  /-- PMONO x, 44_buffer_mix.md R200. -/
  | pmono (x : F)
  /-- PSTEREO left, right, R201. -/
  | pstereo (left right : F)
  /-- LSETLEN line, length, 40_delay_line.md R113. -/
  | lsetlen (line : LineName) (length : F)
  /-- LPUSH line, sample, R114. -/
  | lpush (line : LineName) (sample : F)
  /-- LOUT line, R115. -/
  | lout (line : LineName)
  /-- LTAP line, k, R116. -/
  | ltap (line : LineName) (k : Word)
  /-- LDIFF line, x, coefficient, 41_diffusion.md R142. -/
  | ldiff (line : LineName) (x coefficient : F)
  /-- LMODE line, mode, 40_delay_line.md R117. -/
  | lmode (line : LineName) (mode : Word)
  /-- LFB line, feedback, R118. -/
  | lfb (line : LineName) (feedback : F)
  /-- LMOD line, frequency, extent, R119. -/
  | lmod (line : LineName) (frequency extent : F)
  /-- LMODEN line, enable, R120. -/
  | lmoden (line : LineName) (enable : Word)
  deriving DecidableEq, Repr

end Sys2Proof
end

