-- ==== Sys2Proof/WellFormed.lean ====
section
/-! DEFINITION. Well-formed commands: every F operand fits the W_F bits of its item (30_encoding.md R82), and the two u32
operands whose range does not depend on state are in range (R86 (e)). SEL and FLD are in range by their types. -/

namespace Sys2Proof

/-- The command is one a request of format `fmt` can carry (30_encoding.md R82) and is not illegal by R86 (e). -/
def Instr.wellFormed (fmt : NumFmt) : Instr → Bool
  | .nop => true
  | .init _ => true
  | .deinit => true
  | .rdreg _ => true
  | .lrd _ _ => true
  | .lrdbuf _ _ => true
  | .setpPredelay v => fmt.fits v
  | .setpBandwidth v => fmt.fits v
  | .setpDamping v => fmt.fits v
  | .setpDecay v => fmt.fits v
  | .setpDiffusion1 v => fmt.fits v
  | .setpDiffusion2 v => fmt.fits v
  | .setpIndiff1 v => fmt.fits v
  | .setpIndiff2 v => fmt.fits v
  | .setpModulation v => fmt.fits v
  | .setpSize v => fmt.fits v
  | .setpWet v => fmt.fits v
  | .setpDry v => fmt.fits v
  | .frame l r => fmt.fits l && fmt.fits r
  | .pmono x => fmt.fits x
  | .pstereo l r => fmt.fits l && fmt.fits r
  | .lsetlen _ len => fmt.fits len
  | .lpush _ s => fmt.fits s
  | .lout _ => true
  | .ltap _ _ => true
  | .ldiff _ x c => fmt.fits x && fmt.fits c
  | .lmode _ m => decide (m.toNat ≤ 2)
  | .lfb _ fb => fmt.fits fb
  | .lmod _ f e => fmt.fits f && fmt.fits e
  | .lmoden _ en => decide (en.toNat ≤ 1)

end Sys2Proof
end

