-- ==== Sys2Proof/Decode.lean ====
section
/-! DEFINITION. The command encoding (30_encoding.md R80 to R88): fields of the command word, the opcode map, taking one
request from the port's items, decoding it, and the encoder. -/

namespace Sys2Proof

/-! ## Names and numbers -/

/-- Line number 0 to 12 (10_state.md R29). -/
def LineName.number : LineName → Nat
  | .in0 => 0 | .in1 => 1 | .in2 => 2 | .in3 => 3 | .moda => 4 | .modb => 5 | .dla => 6
  | .dlb => 7 | .rca => 8 | .rcb => 9 | .difa => 10 | .difb => 11 | .pre => 12

/-- The line of a SEL value, none above 12 (30_encoding.md R85). -/
def LineName.ofNumber : Nat → Option LineName
  | 0 => some .in0 | 1 => some .in1 | 2 => some .in2 | 3 => some .in3 | 4 => some .moda | 5 => some .modb
  | 6 => some .dla | 7 => some .dlb | 8 => some .rca | 9 => some .rcb | 10 => some .difa | 11 => some .difb
  | 12 => some .pre
  | _ => none

/-- Register number 0 to 13 (10_state.md R23). -/
def RegName.number : RegName → Nat
  | .status => 0 | .sr => 1 | .bw => 2 | .damp => 3 | .decay => 4 | .dd1 => 5 | .dd2 => 6 | .id1 => 7 | .id2 => 8
  | .wet => 9 | .dry => 10 | .lpbw => 11 | .lpa => 12 | .lpb => 13

/-- The register of a SEL value, none above 13 (30_encoding.md R85). -/
def RegName.ofNumber : Nat → Option RegName
  | 0 => some .status | 1 => some .sr | 2 => some .bw | 3 => some .damp | 4 => some .decay | 5 => some .dd1
  | 6 => some .dd2 | 7 => some .id1 | 8 => some .id2 | 9 => some .wet | 10 => some .dry | 11 => some .lpbw
  | 12 => some .lpa | 13 => some .lpb
  | _ => none

/-- Field number 0 to 13 (10_state.md R26). -/
def FieldName.number : FieldName → Nat
  | .cap => 0 | .n => 1 | .off => 2 | .w => 3 | .frac => 4 | .phase => 5 | .freq => 6 | .ext => 7 | .exc => 8
  | .mode => 9 | .fb => 10 | .aps => 11 | .moden => 12 | .lsr => 13

/-- The field of an FLD value, none above 13 (30_encoding.md R85). -/
def FieldName.ofNumber : Nat → Option FieldName
  | 0 => some .cap | 1 => some .n | 2 => some .off | 3 => some .w | 4 => some .frac | 5 => some .phase
  | 6 => some .freq | 7 => some .ext | 8 => some .exc | 9 => some .mode | 10 => some .fb | 11 => some .aps
  | 12 => some .moden | 13 => some .lsr
  | _ => none

/-! ## The opcode map -/

/-- The 19 opcodes of 30_encoding.md R83. -/
inductive Opcode where
  | nop | init | deinit | rdreg | lrd | lrdbuf | setp | frame | pmono | pstereo
  | lsetlen | lpush | lout | ltap | ldiff | lmode | lfb | lmod | lmoden
  deriving DecidableEq, Repr

/-- The OPC value of an opcode (30_encoding.md R83). -/
def Opcode.code : Opcode → Nat
  | .nop => 0x00 | .init => 0x01 | .deinit => 0x02 | .rdreg => 0x03 | .lrd => 0x04 | .lrdbuf => 0x05
  | .setp => 0x10
  | .frame => 0x20 | .pmono => 0x21 | .pstereo => 0x22
  | .lsetlen => 0x30 | .lpush => 0x31 | .lout => 0x32 | .ltap => 0x33 | .ldiff => 0x34 | .lmode => 0x35
  | .lfb => 0x36 | .lmod => 0x37 | .lmoden => 0x38

/-- The opcode of an OPC value; every other value is undefined (30_encoding.md R86 (a), R87). -/
def Opcode.ofCode : Nat → Option Opcode
  | 0x00 => some .nop | 0x01 => some .init | 0x02 => some .deinit | 0x03 => some .rdreg | 0x04 => some .lrd
  | 0x05 => some .lrdbuf
  | 0x10 => some .setp
  | 0x20 => some .frame | 0x21 => some .pmono | 0x22 => some .pstereo
  | 0x30 => some .lsetlen | 0x31 => some .lpush | 0x32 => some .lout | 0x33 => some .ltap | 0x34 => some .ldiff
  | 0x35 => some .lmode | 0x36 => some .lfb | 0x37 => some .lmod | 0x38 => some .lmoden
  | _ => none

/-- How many operand items follow the command word, fixed by OPC alone (30_encoding.md R88). -/
def Opcode.operandCount : Opcode → Nat
  | .nop => 0 | .deinit => 0 | .rdreg => 0 | .lrd => 0 | .lout => 0
  | .init => 1 | .lrdbuf => 1 | .setp => 1 | .pmono => 1 | .lsetlen => 1 | .lpush => 1 | .ltap => 1
  | .lmode => 1 | .lfb => 1 | .lmoden => 1
  | .frame => 2 | .pstereo => 2 | .ldiff => 2 | .lmod => 2

/-- The opcodes the DRC accepts while FAULT = 1 (60_exceptions.md R234). -/
def Opcode.acceptedInFault : Opcode → Bool
  | .nop => true | .init => true | .deinit => true | .rdreg => true | .lrd => true | .lrdbuf => true
  | .setp => false | .frame => false | .pmono => false | .pstereo => false | .lsetlen => false | .lpush => false
  | .lout => false | .ltap => false | .ldiff => false | .lmode => false | .lfb => false | .lmod => false
  | .lmoden => false

/-! ## The fields of the command word (30_encoding.md R81) -/

/-- OPC, bits 7:0. -/
def opcOf (w : Word) : Nat := w.toNat % 256

/-- SEL, bits 15:8. -/
def selOf (w : Word) : Nat := w.toNat / 256 % 256

/-- FLD, bits 23:16. -/
def fldOf (w : Word) : Nat := w.toNat / 65536 % 256

/-- RSV, bits 31:24. -/
def rsvOf (w : Word) : Nat := w.toNat / 16777216

/-- The command word with RSV = 0 and the given OPC, SEL and FLD. -/
def commandWord (op : Opcode) (sel fld : Nat) : Word := BitVec.ofNat 32 (op.code + 256 * sel + 65536 * fld)

/-- The number of operand items a command word is followed by; a word whose OPC is undefined has none
(30_encoding.md R80, R88). -/
def operandItems (w : Word) : Nat :=
  match Opcode.ofCode (opcOf w) with
  | some op => op.operandCount
  | none => 0

/-! ## Taking a request -/

/-- One request: the command word and its operand items; a missing operand item reads as 0 and is not looked at. -/
structure Request where
  word : Word
  first : Item
  second : Item
  deriving DecidableEq, Repr

/-- The first request of the port's items and the items after it; none while the request is not complete
(30_encoding.md R80, R88; entry 8). -/
def takeRequest : List Item → Option (Request × List Item)
  | [] => none
  | head :: rest =>
    match operandItems head.toWord, rest with
    | 0, rest => some (⟨head.toWord, 0#64, 0#64⟩, rest)
    | 1, a :: rest => some (⟨head.toWord, a, 0#64⟩, rest)
    | 2, a :: b :: rest => some (⟨head.toWord, a, b⟩, rest)
    | _, _ => none

/-! ## Decoding a request -/

/-- Why a command word is illegal (30_encoding.md R86 (a) to (d)). -/
inductive DecodeError where
  /-- R86 (a): OPC is not one of the 19 values. -/
  | undefinedOpcode (opc : Nat)
  /-- R86 (b): RSV is not 0. -/
  | reservedNotZero (op : Opcode)
  /-- R86 (c): SEL is outside the opcode's range. -/
  | selOutOfRange (op : Opcode)
  /-- R86 (d): FLD is outside the opcode's range. -/
  | fldOutOfRange (op : Opcode)
  deriving DecidableEq, Repr

/-- Whether an illegal request is still one of the commands accepted while FAULT = 1, by its OPC
(60_exceptions.md R234; entry 18). -/
def DecodeError.acceptedInFault : DecodeError → Bool
  | .undefinedOpcode _ => false
  | .reservedNotZero op => op.acceptedInFault
  | .selOutOfRange op => op.acceptedInFault
  | .fldOutOfRange op => op.acceptedInFault

/-- A command whose SEL names a choice and whose FLD is 0 (30_encoding.md R83). -/
def decodeSel {α : Type} (op : Opcode) (w : Word) (choice : Nat → Option α) (build : α → Instr) :
    Except DecodeError Instr :=
  match choice (selOf w) with
  | none => .error (.selOutOfRange op)
  | some a => if fldOf w = 0 then .ok (build a) else .error (.fldOutOfRange op)

/-- The SEL value 0, for opcodes that take no selector. -/
def selZero : Nat → Option Unit
  | 0 => some ()
  | _ => none

/-- The SETP command of a SEL value (30_encoding.md R84). -/
def setpOf (v : F) : Nat → Option Instr
  | 0 => some (.setpPredelay v) | 1 => some (.setpBandwidth v) | 2 => some (.setpDamping v)
  | 3 => some (.setpDecay v) | 4 => some (.setpDiffusion1 v) | 5 => some (.setpDiffusion2 v)
  | 6 => some (.setpIndiff1 v) | 7 => some (.setpIndiff2 v) | 8 => some (.setpModulation v)
  | 9 => some (.setpSize v) | 10 => some (.setpWet v) | 11 => some (.setpDry v)
  | _ => none

/-- The command of a defined opcode whose RSV field is 0, or why it is illegal (30_encoding.md R83 to R86). -/
def decodeOpcode (fmt : NumFmt) (op : Opcode) (r : Request) : Except DecodeError Instr :=
  let u1 := r.first.toWord
  let f1 := fmt.trim r.first
  let f2 := fmt.trim r.second
  match op with
  | .nop => decodeSel op r.word selZero fun _ => .nop
  | .init => decodeSel op r.word selZero fun _ => .init u1
  | .deinit => decodeSel op r.word selZero fun _ => .deinit
  | .rdreg => decodeSel op r.word RegName.ofNumber fun reg => .rdreg reg
  | .lrd =>
    match LineName.ofNumber (selOf r.word), FieldName.ofNumber (fldOf r.word) with
    | none, _ => .error (.selOutOfRange op)
    | some _, none => .error (.fldOutOfRange op)
    | some l, some f => .ok (.lrd l f)
  | .lrdbuf => decodeSel op r.word LineName.ofNumber fun l => .lrdbuf l u1
  | .setp => decodeSel op r.word (setpOf f1) fun i => i
  | .frame => decodeSel op r.word selZero fun _ => .frame f1 f2
  | .pmono => decodeSel op r.word selZero fun _ => .pmono f1
  | .pstereo => decodeSel op r.word selZero fun _ => .pstereo f1 f2
  | .lsetlen => decodeSel op r.word LineName.ofNumber fun l => .lsetlen l f1
  | .lpush => decodeSel op r.word LineName.ofNumber fun l => .lpush l f1
  | .lout => decodeSel op r.word LineName.ofNumber fun l => .lout l
  | .ltap => decodeSel op r.word LineName.ofNumber fun l => .ltap l u1
  | .ldiff => decodeSel op r.word LineName.ofNumber fun l => .ldiff l f1 f2
  | .lmode => decodeSel op r.word LineName.ofNumber fun l => .lmode l u1
  | .lfb => decodeSel op r.word LineName.ofNumber fun l => .lfb l f1
  | .lmod => decodeSel op r.word LineName.ofNumber fun l => .lmod l f1 f2
  | .lmoden => decodeSel op r.word LineName.ofNumber fun l => .lmoden l u1

/-- Every request is one command or illegal (30_encoding.md R86: "The decoder is total"). -/
def decodeRequest (fmt : NumFmt) (r : Request) : Except DecodeError Instr :=
  match Opcode.ofCode (opcOf r.word) with
  | none => .error (.undefinedOpcode (opcOf r.word))
  | some op => if rsvOf r.word = 0 then decodeOpcode fmt op r else .error (.reservedNotZero op)

/-- What the port offers: no complete request, a command, or an illegal request; with the items left after it. -/
inductive Fetched where
  | waiting
  | command (i : Instr) (rest : List Item)
  | illegal (e : DecodeError) (rest : List Item)
  deriving DecidableEq, Repr

/-- Take and decode the next request on the port. -/
def decode (fmt : NumFmt) (items : List Item) : Fetched :=
  match takeRequest items with
  | none => .waiting
  | some (r, rest) =>
    match decodeRequest fmt r with
    | .ok i => .command i rest
    | .error e => .illegal e rest

/-! ## The encoder -/

/-- The opcode of a command (30_encoding.md R83). -/
def Instr.opcode : Instr → Opcode
  | .nop => .nop
  | .init _ => .init
  | .deinit => .deinit
  | .rdreg _ => .rdreg
  | .lrd _ _ => .lrd
  | .lrdbuf _ _ => .lrdbuf
  | .setpPredelay _ => .setp
  | .setpBandwidth _ => .setp
  | .setpDamping _ => .setp
  | .setpDecay _ => .setp
  | .setpDiffusion1 _ => .setp
  | .setpDiffusion2 _ => .setp
  | .setpIndiff1 _ => .setp
  | .setpIndiff2 _ => .setp
  | .setpModulation _ => .setp
  | .setpSize _ => .setp
  | .setpWet _ => .setp
  | .setpDry _ => .setp
  | .frame _ _ => .frame
  | .pmono _ => .pmono
  | .pstereo _ _ => .pstereo
  | .lsetlen _ _ => .lsetlen
  | .lpush _ _ => .lpush
  | .lout _ => .lout
  | .ltap _ _ => .ltap
  | .ldiff _ _ _ => .ldiff
  | .lmode _ _ => .lmode
  | .lfb _ _ => .lfb
  | .lmod _ _ _ => .lmod
  | .lmoden _ _ => .lmoden

/-- The SEL value of a command (30_encoding.md R83, R84). -/
def Instr.sel : Instr → Nat
  | .nop => 0
  | .init _ => 0
  | .deinit => 0
  | .rdreg reg => reg.number
  | .lrd l _ => l.number
  | .lrdbuf l _ => l.number
  | .setpPredelay _ => 0
  | .setpBandwidth _ => 1
  | .setpDamping _ => 2
  | .setpDecay _ => 3
  | .setpDiffusion1 _ => 4
  | .setpDiffusion2 _ => 5
  | .setpIndiff1 _ => 6
  | .setpIndiff2 _ => 7
  | .setpModulation _ => 8
  | .setpSize _ => 9
  | .setpWet _ => 10
  | .setpDry _ => 11
  | .frame _ _ => 0
  | .pmono _ => 0
  | .pstereo _ _ => 0
  | .lsetlen l _ => l.number
  | .lpush l _ => l.number
  | .lout l => l.number
  | .ltap l _ => l.number
  | .ldiff l _ _ => l.number
  | .lmode l _ => l.number
  | .lfb l _ => l.number
  | .lmod l _ _ => l.number
  | .lmoden l _ => l.number

/-- The FLD value of a command: a field number for LRD, 0 for every other (30_encoding.md R81). -/
def Instr.fld : Instr → Nat
  | .lrd _ f => f.number
  | .nop | .init _ | .deinit | .rdreg _ | .lrdbuf _ _ | .setpPredelay _ | .setpBandwidth _ | .setpDamping _
  | .setpDecay _ | .setpDiffusion1 _ | .setpDiffusion2 _ | .setpIndiff1 _ | .setpIndiff2 _ | .setpModulation _
  | .setpSize _ | .setpWet _ | .setpDry _ | .frame _ _ | .pmono _ | .pstereo _ _ | .lsetlen _ _ | .lpush _ _
  | .lout _ | .ltap _ _ | .ldiff _ _ _ | .lmode _ _ | .lfb _ _ | .lmod _ _ _ | .lmoden _ _ => 0

/-- The operand items of a command in transfer order (30_encoding.md R83, R85). -/
def Instr.operands : Instr → List Item
  | .nop => []
  | .init sr => [sr.toItem]
  | .deinit => []
  | .rdreg _ => []
  | .lrd _ _ => []
  | .lrdbuf _ i => [i.toItem]
  | .setpPredelay v => [v]
  | .setpBandwidth v => [v]
  | .setpDamping v => [v]
  | .setpDecay v => [v]
  | .setpDiffusion1 v => [v]
  | .setpDiffusion2 v => [v]
  | .setpIndiff1 v => [v]
  | .setpIndiff2 v => [v]
  | .setpModulation v => [v]
  | .setpSize v => [v]
  | .setpWet v => [v]
  | .setpDry v => [v]
  | .frame l r => [l, r]
  | .pmono x => [x]
  | .pstereo l r => [l, r]
  | .lsetlen _ len => [len]
  | .lpush _ s => [s]
  | .lout _ => []
  | .ltap _ k => [k.toItem]
  | .ldiff _ x c => [x, c]
  | .lmode _ m => [m.toItem]
  | .lfb _ fb => [fb]
  | .lmod _ f e => [f, e]
  | .lmoden _ en => [en.toItem]

/-- The command word of a command (30_encoding.md R81). -/
def Instr.word (i : Instr) : Word := commandWord i.opcode i.sel i.fld

/-- The request of a command: its command word and its operand items (30_encoding.md R80). -/
def encode (i : Instr) : List Item := i.word.toItem :: i.operands

/-! ## Table words -/

/-- The port items of the table word `w` of `nbits` bits: the command word in bits 31:0, then the operand items its OPC
takes, read from the bits above (which the table gives none of, so they are 0). -/
def tableItems (nbits w : Nat) : List Item :=
  let bits := w % 2 ^ nbits
  let cmd : Word := BitVec.ofNat 32 bits
  cmd.toItem :: (List.range (operandItems cmd)).map fun k => BitVec.ofNat 64 (bits / 2 ^ (32 * (k + 1)) % 2 ^ 32)

/-- The command this decoder reads from a table word, with the default NUM_FMT. -/
def decodeTableWord (nbits w : Nat) : Option Instr :=
  match decode .binary32 (tableItems nbits w) with
  | .command i _ => some i
  | .waiting => none
  | .illegal _ _ => none

end Sys2Proof
end

