-- ==== Sys2Proof/Machine/Defaults.lean ====
section
/-! DEFINITION. The defaults of the implementation parameters (00_scope.md section 4) and the fixed constants of the
network (10_state.md R25, R29; 42_network.md R162). -/

namespace Sys2Proof.Machine

/-- The rows of TAPS for wetLeft, rows 1 to 7 of 42_network.md R162. -/
def defaultTapsLeft : List TapRow :=
  [⟨false, .dlb, 266⟩, ⟨false, .dlb, 2974⟩, ⟨true, .difb, 1913⟩, ⟨false, .rcb, 1996⟩, ⟨true, .dla, 1990⟩,
   ⟨true, .difa, 187⟩, ⟨true, .rca, 1066⟩]

/-- The rows of TAPS for wetRight, rows 8 to 14 of 42_network.md R162. -/
def defaultTapsRight : List TapRow :=
  [⟨false, .dla, 353⟩, ⟨false, .dla, 3627⟩, ⟨true, .difa, 1228⟩, ⟨false, .rca, 2673⟩, ⟨true, .dlb, 2111⟩,
   ⟨true, .difb, 335⟩, ⟨true, .rcb, 121⟩]

/-- TWO_PI: 2π rounded to nearest F (00_scope.md section 4). -/
def defaultTwoPi : NumFmt → F
  | .binary32 => 0x40C90FDB#64
  | .binary64 => 0x401921FB54442D18#64

/-- The default parameters of 00_scope.md section 4, for a number format. -/
def defaultParams (fmt : NumFmt) : Params where
  numFmt := fmt
  sin := .standard
  pow10 := .standard
  apcoef := .standard
  twoPi := defaultTwoPi fmt
  modInterp := .linear
  excSplit := .floor
  tapsLeft := defaultTapsLeft
  tapsRight := defaultTapsRight
  tapScale := .fixed
  cap0 := 1024
  maxcap := 1048576

/-- Every line, in line-number order 0 to 12. -/
def allLines : List LineName :=
  [.in0, .in1, .in2, .in3, .moda, .modb, .dla, .dlb, .rca, .rcb, .difa, .difb, .pre]

/-- The twelve network lines in line order 0 to 11 with their canonical lengths CANON (10_state.md R25, R29). -/
def canonicalLengths : List (LineName × Nat) :=
  [(.in0, 142), (.in1, 379), (.in2, 107), (.in3, 277), (.moda, 672), (.modb, 908), (.dla, 4453), (.dlb, 4217),
   (.rca, 3720), (.rcb, 3163), (.difa, 1800), (.difb, 2656)]

/-- REF_RATE in Hz (10_state.md R25). -/
def refRate : Nat := 29761

end Sys2Proof.Machine
end

