-- ==== Sys2Proof/Machine/State.lean ====
section
/-! DEFINITION. The state of the DRC (10_state.md; 30_encoding.md R80), why a command stops, and the state after hardware
reset (70_reset_and_hazards.md R270). -/

namespace Sys2Proof.Machine

/-- The cause codes of a device fault (60_exceptions.md R231). A device fault is recorded in STATUS; the machine goes on. -/
inductive Cause where
  /-- 1, an illegal command. -/
  | eillcmd
  /-- 2, a command that needs a network while INITD = 0. -/
  | enotinit
  /-- 3, INIT with sr = 0. -/
  | ebadrate
  /-- 4, a push, read or tap of a line with N = 0. -/
  | elineunset
  /-- 5, the allocation failure. -/
  | ecap
  /-- 6, a modulated push whose offset is not finite or too large. -/
  | emodrange
  deriving DecidableEq, Repr

/-- Why the model stops. -/
inductive Fault where
  /-- BufRead or BufWrite of a slot at or above CAP, which does not exist (00_scope.md R14). Raised by `Line.bufRead` and
  `Line.bufWrite`. Safe: it happens only in states that break the line invariant of 10_state.md R28 (entry 14). -/
  | slotOutsideCapacity
  deriving DecidableEq, Repr

/-- Why the model has no meaning for a command. -/
inductive Refusal where
  /-- Raised by an arm of `exec` whose instruction has no meaning yet. Safe. No arm raises it. -/
  | notModelled (mnemonic : String)
  deriving DecidableEq, Repr

/-- How a procedure ends early: `raise Fault(cause)` (00_scope.md R16), or a stop of the model. -/
inductive Stop where
  | raise (cause : Cause)
  | halt (fault : Fault)
  deriving DecidableEq, Repr

/-- The sample storage BUF (10_state.md R27): the slots that are not +0, as (slot, value), slots strictly rising. A slot
that is not listed reads +0, what every slot is at INIT and when a line grows (20_memory.md R63; entry 13). -/
abbrev Slots := List (Nat × F)

/-- One delay line (10_state.md R26, R27). -/
structure Line where
  cap : Nat
  n : Nat
  off : Nat
  w : Nat
  frac : F
  phase : F
  freq : F
  ext : F
  exc : Int
  mode : Interp
  fb : F
  aps : F
  moden : Bool
  lsr : Word
  buf : Slots
  deriving DecidableEq, Repr

/-- The thirteen delay lines L[0] to L[12] (10_state.md R29). -/
structure Lines where
  in0 : Line
  in1 : Line
  in2 : Line
  in3 : Line
  moda : Line
  modb : Line
  dla : Line
  dlb : Line
  rca : Line
  rcb : Line
  difa : Line
  difb : Line
  pre : Line
  deriving DecidableEq, Repr

/-- A response: the status word and the result items (30_encoding.md R80, 60_exceptions.md R236). -/
structure Response where
  status : Word
  results : List Item
  deriving DecidableEq, Repr

/-- The machine. STATUS is held as `lines` (INITD: a network exists) and `fault` (FAULT and CAUSE), 10_state.md R22;
its other bits read 0 (entry 12). -/
structure State where
  /-- The implementation parameters; no step changes them (entry 1). -/
  cfg : Params
  /-- Request items on the command port, not yet taken, first to be taken first (entry 8). -/
  inq : List Item
  /-- Responses returned, latest first (10_state.md R31; entry 9). -/
  out : List Response
  /-- The hardware reset input (70_reset_and_hazards.md R270; entry 10). -/
  resetIn : Bool
  /-- The number of commands answered: makes the free values fresh (entry 3). -/
  draws : Nat
  /-- FAULT and CAUSE of STATUS. -/
  fault : Option Cause
  /-- The sample rate register SR. -/
  sr : Word
  bw : F
  damp : F
  decay : F
  dd1 : F
  dd2 : F
  id1 : F
  id2 : F
  wet : F
  dry : F
  lpbw : F
  lpa : F
  lpb : F
  /-- RATIO, the hidden register of TAP_SCALE = scaled (42_network.md R162; entry 15). -/
  ratio : F
  /-- The delay lines; they exist only while INITD = 1 (10_state.md R26). -/
  lines : Option Lines
  deriving DecidableEq, Repr

/-- The machine right after hardware reset (70_reset_and_hazards.md R270), with the default parameters. -/
def State.reset : State where
  cfg := defaultParams .binary32
  inq := []
  out := []
  resetIn := false
  draws := 0
  fault := none
  sr := 0#32
  bw := 0#64
  damp := 0#64
  decay := 0#64
  dd1 := 0#64
  dd2 := 0#64
  id1 := 0#64
  id2 := 0#64
  wet := 0#64
  dry := 0#64
  lpbw := 0#64
  lpa := 0#64
  lpb := 0#64
  ratio := 0#64
  lines := none

end Sys2Proof.Machine
end

