-- ==== Sys2Proof/Machine/Flags.lean ====
section
/-! DEFINITION. STATUS, the only status register (10_state.md R22). The DRC has no condition codes and no arithmetic flag
(60_exceptions.md R240); no command but a fault, INIT and DEINIT changes STATUS (10_state.md R24). -/

namespace Sys2Proof.Machine

/-- The CAUSE code (60_exceptions.md R231). -/
def Cause.code : Cause → Nat
  | .eillcmd => 1
  | .enotinit => 2
  | .ebadrate => 3
  | .elineunset => 4
  | .ecap => 5
  | .emodrange => 6

/-- STATUS: INITD in bit 0, FAULT in bit 1, CAUSE in bits 15:8, every other bit 0 (10_state.md R22). -/
def statusOf (initd : Bool) (fault : Option Cause) : Word :=
  BitVec.ofNat 32
    ((if initd then 1 else 0) +
      match fault with
      | none => 0
      | some cause => 2 + 256 * cause.code)

/-- The STATUS register of a state. -/
def State.status (s : State) : Word := statusOf s.lines.isSome s.fault

/-- The status word of a rejection: `STATUS | 0x00000004`, REJ = 1 (60_exceptions.md R234). -/
def State.rejectedStatus (s : State) : Word := s.status ||| 4#32

end Sys2Proof.Machine
end

