-- ==== Sys2Proof/Machine/Ops.lean ====
section
/-! DEFINITION. The named operations over memory, lines, the port and STATUS: the memory primitives (00_scope.md R14),
taking a fault (60_exceptions.md R232, R233, R236), rejection (R234), hardware reset (70_reset_and_hazards.md R270), and
the order in which a command's outcomes are tried (60_exceptions.md R235). -/

namespace Sys2Proof.Machine

/-! ## Sample storage -/

/-- The value of a slot: +0 where none is listed (20_memory.md R63). -/
def Slots.read : Slots → Nat → F
  | [], _ => 0#64
  | (a, v) :: rest, i => if a = i then v else if a < i then Slots.read rest i else 0#64

/-- Store a value in a slot, keeping the canonical form: slots strictly rising, no +0 listed (entry 13). -/
def Slots.write : Slots → Nat → F → Slots
  | [], i, v => if v = 0#64 then [] else [(i, v)]
  | (a, x) :: rest, i, v =>
    if a < i then (a, x) :: Slots.write rest i v
    else if a = i then (if v = 0#64 then rest else (i, v) :: rest)
    else (if v = 0#64 then (a, x) :: rest else (i, v) :: (a, x) :: rest)

/-- Store +0 in slots `lo` to `hi - 1` (40_delay_line.md R101). -/
def Slots.zeroFill (slots : Slots) (lo hi : Nat) : Slots := slots.filter fun e => decide (e.1 < lo) || decide (hi ≤ e.1)

/-- The canonical form: slots strictly rising from above `floor`, no +0 listed. -/
def Slots.risingFrom : Nat → Slots → Bool
  | _, [] => true
  | floor, (a, v) :: rest => decide (floor ≤ a) && decide (v ≠ 0#64) && Slots.risingFrom (a + 1) rest

/-- The canonical form of a storage: equal storages are equal data (entry 13). -/
def Slots.wf (slots : Slots) : Bool := Slots.risingFrom 0 slots

/-- Every listed slot exists: its index is below `cap` (10_state.md R27). -/
def Slots.below (cap : Nat) (slots : Slots) : Bool := slots.all fun e => decide (e.1 < cap)

/-- `BufRead(ℓ, i)`; it requires i < CAP (00_scope.md R14; entry 14). -/
def Line.bufRead (ln : Line) (i : Nat) : Except Stop F :=
  if i < ln.cap then .ok (Slots.read ln.buf i) else .error (.halt .slotOutsideCapacity)

/-- `BufWrite(ℓ, i, v)`; it requires i < CAP (00_scope.md R14; entry 14). -/
def Line.bufWrite (ln : Line) (i : Nat) (v : F) : Except Stop Line :=
  if i < ln.cap then .ok { ln with buf := Slots.write ln.buf i v } else .error (.halt .slotOutsideCapacity)

/-! ## The thirteen lines -/

/-- `L[i]` (00_scope.md R14). -/
def Lines.get (ls : Lines) : LineName → Line
  | .in0 => ls.in0
  | .in1 => ls.in1
  | .in2 => ls.in2
  | .in3 => ls.in3
  | .moda => ls.moda
  | .modb => ls.modb
  | .dla => ls.dla
  | .dlb => ls.dlb
  | .rca => ls.rca
  | .rcb => ls.rcb
  | .difa => ls.difa
  | .difb => ls.difb
  | .pre => ls.pre

/-- The lines with `L[i]` replaced. -/
def Lines.set (ls : Lines) : LineName → Line → Lines
  | .in0, ln => { ls with in0 := ln }
  | .in1, ln => { ls with in1 := ln }
  | .in2, ln => { ls with in2 := ln }
  | .in3, ln => { ls with in3 := ln }
  | .moda, ln => { ls with moda := ln }
  | .modb, ln => { ls with modb := ln }
  | .dla, ln => { ls with dla := ln }
  | .dlb, ln => { ls with dlb := ln }
  | .rca, ln => { ls with rca := ln }
  | .rcb, ln => { ls with rcb := ln }
  | .difa, ln => { ls with difa := ln }
  | .difb, ln => { ls with difb := ln }
  | .pre, ln => { ls with pre := ln }

/-- Some line has N = 0 (42_network.md R150). -/
def Lines.anyUnset (ls : Lines) : Bool := allLines.any fun l => decide ((ls.get l).n = 0)

/-! ## The free values' place -/

/-- The root place of the command now performed (entry 3). -/
def State.ctx (s : State) : Ctx := ⟨s.cfg, s.draws, 0⟩

/-! ## Responses, faults, rejection, reset -/

/-- Return a response; the command is complete (30_encoding.md R80). -/
def State.respond (s : State) (status : Word) (results : List Item) : State :=
  { s with out := ⟨status, results⟩ :: s.out, draws := s.draws + 1 }

/-- Record a fault in STATUS: FAULT and CAUSE are written only while FAULT = 0, the first cause is kept
(60_exceptions.md R233). -/
def State.recordFault (s : State) (cause : Cause) : State :=
  match s.fault with
  | none => { s with fault := some cause }
  | some _ => s

/-- TAKING A FAULT, for every command: from the state before the command, record the cause and answer the status word
with REJ = 0 and no result items (60_exceptions.md R232, R233, R236). Nothing is saved, no control is transferred
(R237). -/
def State.takeFault (s : State) (cause : Cause) : State :=
  let t := s.recordFault cause
  t.respond t.status []

/-- Rejection while FAULT = 1: nothing changes, the status word carries REJ = 1 (60_exceptions.md R234). -/
def State.reject (s : State) : State := s.respond s.rejectedStatus []

/-- `HardwareResetState()` as INIT and DEINIT perform it: every register and line of 70_reset_and_hazards.md R270. It is
also the only way out of the FAULT state (60_exceptions.md R238). The port is in the middle of a command and keeps its
items and responses (entry 19). -/
def State.hardwareResetState (s : State) : State :=
  { State.reset with cfg := s.cfg, inq := s.inq, out := s.out, resetIn := s.resetIn, draws := s.draws }

/-- The hardware reset event: the state of 70_reset_and_hazards.md R270 with the port idle (entry 10). -/
def State.hardwareResetEvent (s : State) : State :=
  { s.hardwareResetState with inq := [], resetIn := false }

/-! ## Outcomes of a command (60_exceptions.md R235) -/

/-- End a command: a result is answered with the status word after the command (R236); a raised fault is taken from the
state before the command, so nothing the command did persists (R232). -/
def State.finish (s : State) (body : Except Stop (State × List Item)) :
    Host.Outcome State Fault Refusal :=
  match body with
  | .ok (t, results) => .next (t.respond t.status results)
  | .error (.raise cause) => .next (s.takeFault cause)
  | .error (.halt fault) => .fault fault

/-- The network of a command that needs one (R235 step 4: ENOTINIT). -/
def State.needNetwork (s : State) (body : Lines → Except Stop (State × List Item)) :
    Except Stop (State × List Item) :=
  match s.lines with
  | none => .error (.raise .enotinit)
  | some ls => body ls

/-- A command accepted while FAULT = 1 (R234). -/
def State.accepted (s : State) (body : Except Stop (State × List Item)) : Host.Outcome State Fault Refusal :=
  s.finish body

/-- A command rejected while FAULT = 1 (R235 step 1) that needs a network (step 4), after the check of a u32 operand
that does not depend on state (step 3: EILLCMD). -/
def State.gated (s : State) (operandLegal : Bool) (body : Lines → Except Stop (State × List Item)) :
    Host.Outcome State Fault Refusal :=
  match s.fault with
  | some _ => .next s.reject
  | none => s.finish (if operandLegal then s.needNetwork body else .error (.raise .eillcmd))

/-- An illegal command word (R235 steps 1 and 2): rejected if FAULT = 1 and its opcode is not an accepted one, else
EILLCMD. -/
def State.illegalCommand (s : State) (e : DecodeError) : State :=
  if s.fault.isSome && !e.acceptedInFault then s.reject else s.takeFault .eillcmd

/-- A procedure on one line, as the body of a command: the line it leaves is stored, the items it returns are the
results. -/
def State.onLine (s : State) (ls : Lines) (l : LineName) (body : Line → Except Stop (Line × List Item)) :
    Except Stop (State × List Item) :=
  match body (ls.get l) with
  | .error stop => .error stop
  | .ok (ln, results) => .ok ({ s with lines := some (ls.set l ln) }, results)

end Sys2Proof.Machine
end

