-- ==== Sys2Proof/Machine/Operands.lean ====
section
/-! DEFINITION. The operand forms: what a register name and a line field name read (10_state.md R23, R26), and the
checks of the u32 operands (30_encoding.md R86 (e)). -/

namespace Sys2Proof.Machine

/-- MODE as its code: 0 none, 1 linear, 2 all-pass (10_state.md R26). -/
def modeCode : Interp → Nat
  | .none => 0
  | .linear => 1
  | .allpass => 2

/-- The mode of an LMODE operand; none above 2, an illegal operand (30_encoding.md R86 (e)). -/
def modeOf (m : Word) : Option Interp :=
  match m.toNat with
  | 0 => some .none
  | 1 => some .linear
  | 2 => some .allpass
  | _ => none

/-- The flag of an LMODEN operand; none above 1, an illegal operand (30_encoding.md R86 (e)). -/
def enableOf (en : Word) : Option Bool :=
  match en.toNat with
  | 0 => some false
  | 1 => some true
  | _ => none

/-- An integer field as a u32 item. -/
def u32Item (n : Nat) : Item := Word.toItem (BitVec.ofNat 32 n)

/-- An integer field as an s32 item (two's complement, 30_encoding.md R82). -/
def s32Item (n : Int) : Item := Word.toItem (BitVec.ofInt 32 n)

/-- The value of a block-level register as a result item: u32 for STATUS and SR, F for the others (10_state.md R23). -/
def State.register (s : State) : RegName → Item
  | .status => s.status.toItem
  | .sr => s.sr.toItem
  | .bw => s.bw
  | .damp => s.damp
  | .decay => s.decay
  | .dd1 => s.dd1
  | .dd2 => s.dd2
  | .id1 => s.id1
  | .id2 => s.id2
  | .wet => s.wet
  | .dry => s.dry
  | .lpbw => s.lpbw
  | .lpa => s.lpa
  | .lpb => s.lpb

/-- The value of a line field as a result item, of the field's type (10_state.md R26, 45_control.md R217). -/
def Line.field (ln : Line) : FieldName → Item
  | .cap => u32Item ln.cap
  | .n => u32Item ln.n
  | .off => u32Item ln.off
  | .w => u32Item ln.w
  | .frac => ln.frac
  | .phase => ln.phase
  | .freq => ln.freq
  | .ext => ln.ext
  | .exc => s32Item ln.exc
  | .mode => u32Item (modeCode ln.mode)
  | .fb => ln.fb
  | .aps => ln.aps
  | .moden => u32Item (if ln.moden then 1 else 0)
  | .lsr => ln.lsr.toItem

end Sys2Proof.Machine
end

