-- ==== Sys2Proof/Machine/Line.lean ====
section
/-! DEFINITION. The internal procedures over one delay line: SetLength, Push, CurrentOutput, TapAt
(40_delay_line.md R100 to R111) and Diffuse (41_diffusion.md R140). A procedure gives the line it leaves, or why it
stops; the command that called it discards the line when it stops (60_exceptions.md R232). -/

namespace Sys2Proof.Machine

/-! ## SetLength -/

/-- The slots a length needs: 2 × ceil(len) + 1 (R101). None for a length that is not finite. -/
def slotsNeeded (fmt : NumFmt) (len : F) : Option Nat := (Fp.ceil? fmt len).map fun hi => 2 * hi.toNat + 1

/-- The length guard `len > 2`; false for a NaN (R100). -/
def lengthGuard (fmt : NumFmt) (len : F) : Bool := Fp.lt fmt (Fp.lit fmt 2 1) len

/-- Grow the storage to `need` slots if it has fewer; new slots are +0 (R101). -/
def Line.grow (ln : Line) (need : Nat) : Line :=
  if ln.cap < need then { ln with cap := need, buf := Slots.zeroFill ln.buf ln.cap need } else ln

/-- Store a length: OFF, N, FRAC, and W reduced modulo the new N (R102). -/
def Line.storeLength (c : Ctx) (ln : Line) (len : F) (whole : Nat) : Line :=
  { ln with
    off := whole
    n := 2 * whole
    frac := Fp.sub (c.at 1) len (Fp.ofInt c.fmt whole)
    w := ln.w % (2 * whole) }

/-- `SetLength(ℓ, len)` (R100 to R102). -/
def Line.setLength (c : Ctx) (ln : Line) (len : F) : Except Stop Line :=
  if lengthGuard c.fmt len then
    match slotsNeeded c.fmt len, Fp.floor? c.fmt len with
    | some need, some whole =>
      if ln.cap < need ∧ c.cfg.maxcap < need then .error (.raise .ecap)
      else .ok ((ln.grow need).storeLength c len whole.toNat)
    | _, _ => .error (.raise .ecap)
  else .ok ln

/-! ## CurrentOutput -/

/-- The slot at `writeCursor + readOffset + excursion + ahead`, modulo N (R106). -/
def Line.readSlot (ln : Line) (ahead : Int) : Nat :=
  (((ln.w : Int) + ln.off + ln.exc + ahead) % (ln.n : Int)).toNat

/-- The value read between the two taps, and the line, whose APS the all-pass read writes (R107 to R109). -/
def Line.interpolate (c : Ctx) (ln : Line) (t1 t2 : F) : F × Line :=
  if ln.mode = .none ∨ Fp.eq c.fmt ln.frac Fp.zero then (t1, ln)
  else if ln.mode = .linear then
    (Fp.add (c.at 3) t1 (Fp.mul (c.at 2) ln.frac (Fp.sub (c.at 1) t2 t1)), ln)
  else
    let eta := Fp.apcoef (c.at 1) ln.frac
    let y := Fp.add (c.at 4) t2 (Fp.mul (c.at 3) eta (Fp.sub (c.at 2) t1 ln.aps))
    (y, { ln with aps := y })

/-- `CurrentOutput(ℓ)` (R106 to R109). -/
def Line.currentOutput (c : Ctx) (ln : Line) : Except Stop (F × Line) :=
  if ln.n = 0 then .error (.raise .elineunset)
  else do
    let t1 ← ln.bufRead (ln.readSlot 0)
    let t2 ← ln.bufRead (ln.readSlot 1)
    .ok (ln.interpolate c t1 t2)

/-! ## Push -/

/-- The integer part of a modulation offset by EXC_SPLIT; none for an offset that is not finite (R104). -/
def excursionOf (c : Ctx) (offset : F) : Option Int :=
  match c.cfg.excSplit with
  | .floor => Fp.floor? c.fmt offset
  | .trunc => Fp.trunc? c.fmt offset

/-- The advanced phase: `PHASE + (TWO_PI × FREQ)`, never reduced (R104; 70_reset_and_hazards.md R277). -/
def Line.nextPhase (c : Ctx) (ln : Line) : F := Fp.add (c.at 2) ln.phase (Fp.mul (c.at 1) c.cfg.twoPi ln.freq)

/-- The modulation offset: `SIN(PHASE) × EXT` with the advanced phase (R104). -/
def Line.modOffset (c : Ctx) (ln : Line) : F := Fp.mul (c.at 4) (Fp.sin (c.at 3) (ln.nextPhase c)) ln.ext

/-- The modulation step of Push (R104). -/
def Line.modulate (c : Ctx) (ln : Line) : Except Stop Line :=
  if ln.moden then
    match excursionOf c (ln.modOffset c) with
    | none => .error (.raise .emodrange)
    | some e =>
      if e < -(2 ^ 31 : Int) ∨ (2 ^ 31 : Int) ≤ e then .error (.raise .emodrange)
      else
        .ok { ln with
          phase := ln.nextPhase c, exc := e, frac := Fp.sub (c.at 5) (ln.modOffset c) (Fp.ofInt c.fmt e) }
  else .ok ln

/-- The feedback step of Push, on the slot `j` just written (R105). -/
def Line.feedback (c : Ctx) (j : Nat) (ln : Line) : Except Stop Line :=
  if Fp.eq c.fmt ln.fb Fp.zero then .ok ln
  else do
    let (y, ln) ← ln.currentOutput (c.at 1)
    let v ← ln.bufRead j
    ln.bufWrite j (Fp.add (c.at 3) v (Fp.mul (c.at 2) ln.fb y))

/-- Write a sample at the write cursor and advance the cursor modulo N (R103). -/
def Line.store (ln : Line) (s : F) : Except Stop Line :=
  if ln.n = 0 then .error (.raise .elineunset)
  else do
    let ln' ← ln.bufWrite ln.w s
    .ok { ln' with w := (ln.w + 1) % ln.n }

/-- `Push(ℓ, s)`: store, modulate, feed back (R103 to R105). -/
def Line.push (c : Ctx) (ln : Line) (s : F) : Except Stop Line := do
  let stored ← ln.store s
  let modulated ← stored.modulate (c.at 1)
  modulated.feedback (c.at 2) ln.w

/-! ## TapAt and Diffuse -/

/-- `TapAt(ℓ, k)` (R110). -/
def Line.tapAt (ln : Line) (k : Int) : Except Stop F :=
  if ln.n = 0 then .error (.raise .elineunset)
  else ln.bufRead (((ln.w : Int) - k) % (ln.n : Int)).toNat

/-- `Diffuse(ℓ, x, c)` (41_diffusion.md R140). -/
def Line.diffuse (c : Ctx) (ln : Line) (x coefficient : F) : Except Stop (F × Line) := do
  let (y, read) ← ln.currentOutput (c.at 1)
  let z := Fp.sub (c.at 3) x (Fp.mul (c.at 2) y coefficient)
  let pushed ← read.push (c.at 4) z
  .ok (Fp.add (c.at 6) y (Fp.mul (c.at 5) z coefficient), pushed)

end Sys2Proof.Machine
end

