-- ==== Sys2Proof/Machine/Parameters.lean ====
section
/-! DEFINITION. ApplyParam, one procedure per parameter (43_parameters.md R181 to R192), and the twelve SETP commands
(R193). No value is checked, clamped or refused (R180). -/

namespace Sys2Proof.Machine

/-- `srF = toF(S.SR)` (43_parameters.md R180). -/
def State.srF (s : State) : F := Fp.ofInt s.cfg.numFmt s.sr.toNat

/-- `SetLength(L[i], len)` among the thirteen lines. -/
def Lines.setLength (c : Ctx) (ls : Lines) (l : LineName) (len : F) : Except Stop Lines :=
  ((ls.get l).setLength c len).map fun ln => ls.set l ln

/-- A parameter that acts on the lines; without a network it does not apply (60_exceptions.md R231, ENOTINIT). -/
def State.onLines (s : State) (body : Lines → Except Stop Lines) : Except Stop State :=
  match s.lines with
  | none => .error (.raise .enotinit)
  | some ls => (body ls).map fun ls' => { s with lines := some ls' }

/-- PREDELAY, seconds (R181). -/
def applyPredelay (c : Ctx) (v : F) (s : State) : Except Stop State :=
  s.onLines fun ls => ls.setLength (c.at 2) .pre (Fp.mul (c.at 1) v s.srF)

/-- BANDWIDTH, Hz (R182). -/
def applyBandwidth (c : Ctx) (v : F) (s : State) : Except Stop State :=
  .ok { s with bw := Fp.div (c.at 1) v s.srF }

/-- DAMPING (R183). -/
def applyDamping (v : F) (s : State) : Except Stop State := .ok { s with damp := v }

/-- DECAY (R184). -/
def applyDecay (v : F) (s : State) : Except Stop State := .ok { s with decay := v }

/-- DIFFUSION1 (R185). -/
def applyDiffusion1 (v : F) (s : State) : Except Stop State := .ok { s with dd1 := v }

/-- DIFFUSION2 (R186). -/
def applyDiffusion2 (v : F) (s : State) : Except Stop State := .ok { s with dd2 := v }

/-- INDIFF1 (R187). -/
def applyIndiff1 (v : F) (s : State) : Except Stop State := .ok { s with id1 := v }

/-- INDIFF2 (R188). -/
def applyIndiff2 (v : F) (s : State) : Except Stop State := .ok { s with id2 := v }

/-- The frequency of a modulated line: a constant in Hz over the sample rate (R189). -/
def modulationFreq (c : Ctx) (hz : F) (s : State) : F := Fp.div c hz s.srF

/-- MODULATION: EXT and FREQ of lines 4 and 5 (R189). -/
def applyModulation (c : Ctx) (v : F) (s : State) : Except Stop State :=
  s.onLines fun ls =>
    .ok { ls with
      moda := { ls.moda with
        ext := Fp.mul (c.at 1) v (Fp.lit c.fmt 60 1), freq := modulationFreq (c.at 2) (Fp.lit c.fmt 125 100) s }
      modb := { ls.modb with
        ext := Fp.mul (c.at 3) v (Fp.lit c.fmt 40 1), freq := modulationFreq (c.at 4) (Fp.lit c.fmt 487 100) s } }

/-- `ratio = (v × srF) / 29761` (R190). -/
def sizeRatio (c : Ctx) (v : F) (s : State) : F :=
  Fp.div (c.at 2) (Fp.mul (c.at 1) v s.srF) (Fp.lit c.fmt refRate 1)

/-- `len[i] = toF(CANON[i]) × ratio`, the product standing at the place numbered by the line (R190). -/
def scaledLength (c : Ctx) (ratio : F) (l : LineName) (canon : Nat) : F :=
  Fp.mul (c.at (l.number + 1)) (Fp.ofInt c.fmt canon) ratio

/-- A length SIZE refuses before it changes any line: it passes the guard and needs more than MAXCAP slots, or is
+infinity (R190). -/
def tooLong (c : Ctx) (len : F) : Bool :=
  lengthGuard c.fmt len &&
    match slotsNeeded c.fmt len with
    | none => true
    | some need => decide (c.cfg.maxcap < need)

/-- Set the listed lines to their scaled lengths, in order (R190). -/
def Lines.setLengths (c : Ctx) (ratio : F) : List (LineName × Nat) → Lines → Except Stop Lines
  | [], ls => .ok ls
  | (l, canon) :: rest, ls =>
    match ls.setLength ((c.at 14).at (l.number + 1)) l (scaledLength c ratio l canon) with
    | .error stop => .error stop
    | .ok ls' => Lines.setLengths c ratio rest ls'

/-- Keep the ratio in RATIO, under TAP_SCALE = scaled only (42_network.md R162). -/
def State.keepRatio (s : State) (ratio : F) : State :=
  match s.cfg.tapScale with
  | .fixed => s
  | .scaled => { s with ratio := ratio }

/-- SIZE: all twelve network lines (R190). -/
def applySize (c : Ctx) (v : F) (s : State) : Except Stop State :=
  let ratio := sizeRatio (c.at 1) v s
  if canonicalLengths.any fun e => tooLong c (scaledLength (c.at 2) ratio e.1 e.2) then .error (.raise .ecap)
  else (s.onLines (Lines.setLengths (c.at 2) ratio canonicalLengths)).map fun t => t.keepRatio ratio

/-- The linear gain of a value in dB: `POW10(v / 20)` (R191, R192). -/
def gainOf (c : Ctx) (v : F) : F := Fp.pow10 (c.at 2) (Fp.div (c.at 1) v (Fp.lit c.fmt 20 1))

/-- WET, dB (R191). -/
def applyWet (c : Ctx) (v : F) (s : State) : Except Stop State := .ok { s with wet := gainOf c v }

/-- DRY, dB (R192). -/
def applyDry (c : Ctx) (v : F) (s : State) : Except Stop State := .ok { s with dry := gainOf c v }

/-- The wrapper of every SETP (R193): ApplyParam, no results. -/
def State.setp (s : State) (apply : State → Except Stop State) : Host.Outcome State Fault Refusal :=
  s.gated true fun _ => (apply s).map fun t => (t, [])

/-- SETP.PREDELAY (R181, R193). -/
def execSetpPredelay (value : F) (s : State) : Host.Outcome State Fault Refusal := s.setp (applyPredelay s.ctx value)

/-- SETP.BANDWIDTH (R182, R193). -/
def execSetpBandwidth (value : F) (s : State) : Host.Outcome State Fault Refusal := s.setp (applyBandwidth s.ctx value)

/-- SETP.DAMPING (R183, R193). -/
def execSetpDamping (value : F) (s : State) : Host.Outcome State Fault Refusal := s.setp (applyDamping value)

/-- SETP.DECAY (R184, R193). -/
def execSetpDecay (value : F) (s : State) : Host.Outcome State Fault Refusal := s.setp (applyDecay value)

/-- SETP.DIFFUSION1 (R185, R193). -/
def execSetpDiffusion1 (value : F) (s : State) : Host.Outcome State Fault Refusal := s.setp (applyDiffusion1 value)

/-- SETP.DIFFUSION2 (R186, R193). -/
def execSetpDiffusion2 (value : F) (s : State) : Host.Outcome State Fault Refusal := s.setp (applyDiffusion2 value)

/-- SETP.INDIFF1 (R187, R193). -/
def execSetpIndiff1 (value : F) (s : State) : Host.Outcome State Fault Refusal := s.setp (applyIndiff1 value)

/-- SETP.INDIFF2 (R188, R193). -/
def execSetpIndiff2 (value : F) (s : State) : Host.Outcome State Fault Refusal := s.setp (applyIndiff2 value)

/-- SETP.MODULATION (R189, R193). -/
def execSetpModulation (value : F) (s : State) : Host.Outcome State Fault Refusal := s.setp (applyModulation s.ctx value)

/-- SETP.SIZE (R190, R193). -/
def execSetpSize (value : F) (s : State) : Host.Outcome State Fault Refusal := s.setp (applySize s.ctx value)

/-- SETP.WET (R191, R193). -/
def execSetpWet (value : F) (s : State) : Host.Outcome State Fault Refusal := s.setp (applyWet s.ctx value)

/-- SETP.DRY (R192, R193). -/
def execSetpDry (value : F) (s : State) : Host.Outcome State Fault Refusal := s.setp (applyDry s.ctx value)

end Sys2Proof.Machine
end

