-- ==== Sys2Proof/Machine/Control.lean ====
section
/-! DEFINITION. Lifecycle, register read and debug commands: NOP, INIT, DEINIT, RDREG, LRD, LRDBUF
(45_control.md R210 to R218). -/

namespace Sys2Proof.Machine

/-- A line right after creation (45_control.md R212). -/
def newLine (p : Params) (sr : Word) (modulated : Bool) : Line where
  cap := p.cap0
  n := 0
  off := 0
  w := 0
  frac := Fp.zero
  phase := Fp.zero
  freq := Fp.zero
  ext := Fp.zero
  exc := 0
  mode := if modulated then p.modInterp else .none
  fb := Fp.zero
  aps := Fp.zero
  moden := modulated
  lsr := sr
  buf := []

/-- The thirteen lines right after creation: lines 4 and 5 are the modulated ones (45_control.md R212, 92 D9). -/
def newLines (p : Params) (sr : Word) : Lines where
  in0 := newLine p sr false
  in1 := newLine p sr false
  in2 := newLine p sr false
  in3 := newLine p sr false
  moda := newLine p sr true
  modb := newLine p sr true
  dla := newLine p sr false
  dlb := newLine p sr false
  rca := newLine p sr false
  rcb := newLine p sr false
  difa := newLine p sr false
  difb := newLine p sr false
  pre := newLine p sr false

/-- The defaults, each through its parameter rule, in the order of 45_control.md R213. -/
def applyDefaults (c : Ctx) (s : State) : Except Stop State := do
  let fmt := c.fmt
  let s ← applyPredelay (c.at 1) (Fp.lit fmt 1 1000) s
  let s ← applyBandwidth (c.at 2) (Fp.div (c.at 13) s.srF (Fp.lit fmt 2 1)) s
  let s ← applyDamping (Fp.lit fmt 5 100) s
  let s ← applyDecay (Fp.lit fmt 7 10) s
  let s ← applyDiffusion1 (Fp.lit fmt 6 10) s
  let s ← applyDiffusion2 (Fp.lit fmt 6 10) s
  let s ← applyIndiff1 (Fp.lit fmt 55 100) s
  let s ← applyIndiff2 (Fp.lit fmt 625 1000) s
  let s ← applyModulation (c.at 9) (Fp.lit fmt 1 1) s
  let s ← applySize (c.at 10) (Fp.lit fmt 1 1) s
  let s ← applyWet (c.at 11) (Fp.ofInt fmt (-6)) s
  applyDry (c.at 12) (Fp.ofInt fmt 0) s

/-- Create and default-configure the network on the hardware reset state (45_control.md R211, R214). -/
def createNetwork (c : Ctx) (sr : Word) (s : State) : Except Stop State :=
  if sr = 0#32 then .error (.raise .ebadrate)
  else applyDefaults c { s with sr := sr, lines := some (newLines s.cfg sr) }

/-- NOP (45_control.md R210). -/
def execNop (s : State) : Host.Outcome State Fault Refusal := s.accepted (.ok (s, []))

/-- INIT (45_control.md R211). It starts from the hardware reset state, so a fault leaves that state with the fault
recorded (R214): INIT is not precise. -/
def execInit (sr : Word) (s : State) : Host.Outcome State Fault Refusal :=
  s.hardwareResetState.accepted ((createNetwork s.ctx sr s.hardwareResetState).map fun t => (t, []))

/-- DEINIT (45_control.md R215). -/
def execDeinit (s : State) : Host.Outcome State Fault Refusal := s.accepted (.ok (s.hardwareResetState, []))

/-- RDREG: STATUS also while INITD = 0 (45_control.md R216). -/
def execRdreg (reg : RegName) (s : State) : Host.Outcome State Fault Refusal :=
  s.accepted (if reg = .status then .ok (s, [s.register reg]) else s.needNetwork fun _ => .ok (s, [s.register reg]))

/-- LRD (45_control.md R217). -/
def execLrd (line : LineName) (field : FieldName) (s : State) : Host.Outcome State Fault Refusal :=
  s.accepted (s.needNetwork fun ls => .ok (s, [(ls.get line).field field]))

/-- LRDBUF: an index at or above CAP is illegal (45_control.md R218). -/
def execLrdbuf (line : LineName) (index : Word) (s : State) : Host.Outcome State Fault Refusal :=
  s.accepted (s.needNetwork fun ls =>
    if (ls.get line).cap ≤ index.toNat then .error (.raise .eillcmd)
    else ((ls.get line).bufRead index.toNat).map fun v => (s, [v]))

end Sys2Proof.Machine
end

