-- ==== Sys2Proof/Machine/DelayLine.lean ====
section
/-! DEFINITION. The line access commands: LSETLEN, LPUSH, LOUT, LTAP, LMODE, LFB, LMOD, LMODEN (40_delay_line.md R113 to
R120) and LDIFF (41_diffusion.md R142). -/

namespace Sys2Proof.Machine

/-- LSETLEN (R113). -/
def execLsetlen (line : LineName) (length : F) (s : State) : Host.Outcome State Fault Refusal :=
  s.gated true fun ls => s.onLine ls line fun ln => (ln.setLength s.ctx length).map fun ln' => (ln', [])

/-- LPUSH (R114). -/
def execLpush (line : LineName) (sample : F) (s : State) : Host.Outcome State Fault Refusal :=
  s.gated true fun ls => s.onLine ls line fun ln => (ln.push s.ctx sample).map fun ln' => (ln', [])

/-- LOUT (R115). -/
def execLout (line : LineName) (s : State) : Host.Outcome State Fault Refusal :=
  s.gated true fun ls => s.onLine ls line fun ln => (ln.currentOutput s.ctx).map fun r => (r.2, [r.1])

/-- LTAP (R116). -/
def execLtap (line : LineName) (k : Word) (s : State) : Host.Outcome State Fault Refusal :=
  s.gated true fun ls => s.onLine ls line fun ln => (ln.tapAt k.toNat).map fun v => (ln, [v])

/-- LDIFF (41_diffusion.md R142). -/
def execLdiff (line : LineName) (x coefficient : F) (s : State) : Host.Outcome State Fault Refusal :=
  s.gated true fun ls => s.onLine ls line fun ln => (ln.diffuse s.ctx x coefficient).map fun r => (r.2, [r.1])

/-- LMODE (R117). -/
def execLmode (line : LineName) (mode : Word) (s : State) : Host.Outcome State Fault Refusal :=
  s.gated (modeOf mode).isSome fun ls => s.onLine ls line fun ln =>
    .ok ({ ln with mode := (modeOf mode).getD ln.mode }, [])

/-- LFB (R118). -/
def execLfb (line : LineName) (feedback : F) (s : State) : Host.Outcome State Fault Refusal :=
  s.gated true fun ls => s.onLine ls line fun ln => .ok ({ ln with fb := feedback }, [])

/-- LMOD (R119). -/
def execLmod (line : LineName) (frequency extent : F) (s : State) : Host.Outcome State Fault Refusal :=
  s.gated true fun ls => s.onLine ls line fun ln => .ok ({ ln with freq := frequency, ext := extent }, [])

/-- LMODEN (R120). -/
def execLmoden (line : LineName) (enable : Word) (s : State) : Host.Outcome State Fault Refusal :=
  s.gated (enableOf enable).isSome fun ls => s.onLine ls line fun ln =>
    .ok ({ ln with moden := (enableOf enable).getD ln.moden }, [])

end Sys2Proof.Machine
end

