-- ==== Sys2Proof/Machine/Network.lean ====
section
/-! DEFINITION. The network datapath: Frame (42_network.md R150 to R162), FRAME (R163), PMONO and PSTEREO
(44_buffer_mix.md R200, R201). A fault in any step discards every step (R164). -/

namespace Sys2Proof.Machine

/-! ## Line procedures among the thirteen lines -/

/-- `Push(L[i], s)`. -/
def Lines.push (c : Ctx) (ls : Lines) (l : LineName) (s : F) : Except Stop Lines :=
  ((ls.get l).push c s).map fun ln => ls.set l ln

/-- `CurrentOutput(L[i])`. -/
def Lines.currentOutput (c : Ctx) (ls : Lines) (l : LineName) : Except Stop (F × Lines) :=
  ((ls.get l).currentOutput c).map fun r => (r.1, ls.set l r.2)

/-- `Diffuse(L[i], x, c)`. -/
def Lines.diffuse (c : Ctx) (ls : Lines) (l : LineName) (x coefficient : F) : Except Stop (F × Lines) :=
  ((ls.get l).diffuse c x coefficient).map fun r => (r.1, ls.set l r.2)

/-- Push, then read the same line: "push into the line, read it back" (R152, R156; 92 D20). -/
def Lines.pass (c : Ctx) (ls : Lines) (l : LineName) (s : F) : Except Stop (F × Lines) := do
  let ls ← ls.push (c.at 1) l s
  ls.currentOutput (c.at 2) l

/-! ## The steps of Frame -/

/-- Step 1, downmix: `x = (left + right) / 2` (R151). -/
def downmix (c : Ctx) (left right : F) : F := Fp.div (c.at 2) (Fp.add (c.at 1) left right) (Fp.lit c.fmt 2 1)

/-- Step 2b, the bandwidth low-pass: `(BW × u) + ((1 - BW) × LPBW)` (R153). -/
def bandwidthLowPass (c : Ctx) (bw lpbw u : F) : F :=
  Fp.add (c.at 4) (Fp.mul (c.at 1) bw u) (Fp.mul (c.at 3) (Fp.sub (c.at 2) (Fp.lit c.fmt 1 1) bw) lpbw)

/-- `Damp(b, s)`: `((1 - DAMP) × b) + (DAMP × s)` (R157). -/
def dampLowPass (c : Ctx) (damp b lp : F) : F :=
  Fp.add (c.at 4) (Fp.mul (c.at 2) (Fp.sub (c.at 1) (Fp.lit c.fmt 1 1) damp) b) (Fp.mul (c.at 3) damp lp)

/-- Step 3, input diffusion: lines 0 to 3 with ID1, ID1, ID2, ID2 (R154). -/
def inputDiffusion (c : Ctx) (id1 id2 : F) (ls : Lines) (x : F) : Except Stop (F × Lines) := do
  let (x, ls) ← ls.diffuse (c.at 1) .in0 x id1
  let (x, ls) ← ls.diffuse (c.at 2) .in1 x id1
  let (x, ls) ← ls.diffuse (c.at 3) .in2 x id2
  ls.diffuse (c.at 4) .in3 x id2

/-- Step 4, one tank seed: `(DECAY × output) + x` (R155). -/
def tankSeed (c : Ctx) (decay output x : F) : F := Fp.add (c.at 2) (Fp.mul (c.at 1) decay output) x

/-- The lines of one decay tank: modulated diffuser, damped long delay, second diffuser, recirculation delay (R156,
R158). -/
structure Tank where
  diffuser : LineName
  damped : LineName
  second : LineName
  recirculation : LineName

/-- Tank A (10_state.md R29). -/
def tankA : Tank := ⟨.moda, .dla, .difa, .rca⟩

/-- Tank B (10_state.md R29). -/
def tankB : Tank := ⟨.modb, .dlb, .difb, .rcb⟩

/-- Steps 5 and 6, one tank: modulated diffuser, damped long delay, damping, scale by DECAY, second diffuser, push into
the recirculation delay; with the tank's new low-pass state (R156 to R158). -/
def tankStep (c : Ctx) (t : Tank) (s : State) (ls : Lines) (seed lp : F) : Except Stop (F × Lines) := do
  let (a, ls) ← ls.diffuse (c.at 1) t.diffuser seed s.dd1
  let (b, ls) ← ls.pass (c.at 2) t.damped a
  let lp' := dampLowPass (c.at 3) s.damp b lp
  let (d, ls) ← ls.diffuse (c.at 5) t.second (Fp.mul (c.at 4) s.decay lp') s.dd2
  let ls ← ls.push (c.at 6) t.recirculation d
  .ok (lp', ls)

/-- The offset a tap row reads at: k, or under TAP_SCALE = scaled floor(toF(k) × RATIO); a scaled offset that is not
finite is a free value (R162; entry 16). -/
def tapOffset (c : Ctx) (ratio : F) (k : Nat) : Int :=
  match c.cfg.tapScale with
  | .fixed => k
  | .scaled =>
    match Fp.floor? c.fmt (Fp.mul (c.at 1) (Fp.ofInt c.fmt k) ratio) with
    | some scaled => scaled
    | none => (c.at 2).draw.toInt

/-- Step 7, `TapSum(rows)` from an accumulator: each term `fl(0.6) × tap` added or subtracted in table order (R159). -/
def tapSum (c : Ctx) (ratio : F) (ls : Lines) : List TapRow → F → Except Stop F
  | [], acc => .ok acc
  | row :: rest, acc =>
    match (ls.get row.line).tapAt (tapOffset (c.at 1) ratio row.offset) with
    | .error stop => .error stop
    | .ok tap =>
      let v := Fp.mul (c.at 2) (Fp.lit c.fmt 6 10) tap
      let acc' := if row.negative then Fp.sub (c.at 3) acc v else Fp.add (c.at 3) acc v
      tapSum (c.at 4) ratio ls rest acc'

/-- `Frame(left, right)` on the lines of a network: the state it leaves, wetLeft and wetRight (R150 to R159). -/
def frameOn (c : Ctx) (s : State) (ls : Lines) (left right : F) : Except Stop (State × F × F) :=
  if ls.anyUnset then .error (.raise .elineunset)
  else do
    let x := downmix (c.at 1) left right
    let (u, ls) ← ls.pass (c.at 2) .pre x
    let lpbw := bandwidthLowPass (c.at 3) s.bw s.lpbw u
    let (x, ls) ← inputDiffusion (c.at 4) s.id1 s.id2 ls lpbw
    let (outB, ls) ← ls.currentOutput (c.at 5) .rcb
    let p := tankSeed (c.at 6) s.decay outB x
    let (outA, ls) ← ls.currentOutput (c.at 7) .rca
    let q := tankSeed (c.at 8) s.decay outA x
    let (lpa, ls) ← tankStep (c.at 9) tankA s ls p s.lpa
    let (lpb, ls) ← tankStep (c.at 10) tankB s ls q s.lpb
    let wetLeft ← tapSum (c.at 11) s.ratio ls s.cfg.tapsLeft Fp.zero
    let wetRight ← tapSum (c.at 12) s.ratio ls s.cfg.tapsRight Fp.zero
    .ok ({ s with lpbw := lpbw, lpa := lpa, lpb := lpb, lines := some ls }, wetLeft, wetRight)

/-! ## The commands -/

/-- The dry/wet mix of one channel: `(DRY × x) + (WET × w)` (44_buffer_mix.md R200, 92 D25). -/
def mix (c : Ctx) (s : State) (x w : F) : F :=
  Fp.add (c.at 3) (Fp.mul (c.at 1) s.dry x) (Fp.mul (c.at 2) s.wet w)

/-- FRAME (42_network.md R163). -/
def execFrame (left right : F) (s : State) : Host.Outcome State Fault Refusal :=
  s.gated true fun ls => (frameOn (s.ctx.at 1) s ls left right).map fun r => (r.1, [r.2.1, r.2.2])

/-- PMONO: both channels of the frame are the sample; the right output is discarded (44_buffer_mix.md R200). -/
def execPmono (x : F) (s : State) : Host.Outcome State Fault Refusal :=
  s.gated true fun ls => (frameOn (s.ctx.at 1) s ls x x).map fun r => (r.1, [mix (s.ctx.at 2) r.1 x r.2.1])

/-- PSTEREO (44_buffer_mix.md R201). -/
def execPstereo (left right : F) (s : State) : Host.Outcome State Fault Refusal :=
  s.gated true fun ls => (frameOn (s.ctx.at 1) s ls left right).map fun r =>
    (r.1, [mix (s.ctx.at 2) r.1 left r.2.1, mix (s.ctx.at 3) r.1 right r.2.2])

end Sys2Proof.Machine
end

