-- ==== Sys2Proof/Machine/Dispatch.lean ====
section
/-! DEFINITION. One command, performed completely (30_encoding.md R80). -/

namespace Sys2Proof.Machine

def exec (i : Instr) (s : State) : Host.Outcome State Fault Refusal :=
  match i with
  | .nop => Sys2Proof.Machine.execNop s
  | .init sr => Sys2Proof.Machine.execInit sr s
  | .deinit => Sys2Proof.Machine.execDeinit s
  | .rdreg reg => Sys2Proof.Machine.execRdreg reg s
  | .lrd line field => Sys2Proof.Machine.execLrd line field s
  | .lrdbuf line index => Sys2Proof.Machine.execLrdbuf line index s
  | .setpPredelay value => Sys2Proof.Machine.execSetpPredelay value s
  | .setpBandwidth value => Sys2Proof.Machine.execSetpBandwidth value s
  | .setpDamping value => Sys2Proof.Machine.execSetpDamping value s
  | .setpDecay value => Sys2Proof.Machine.execSetpDecay value s
  | .setpDiffusion1 value => Sys2Proof.Machine.execSetpDiffusion1 value s
  | .setpDiffusion2 value => Sys2Proof.Machine.execSetpDiffusion2 value s
  | .setpIndiff1 value => Sys2Proof.Machine.execSetpIndiff1 value s
  | .setpIndiff2 value => Sys2Proof.Machine.execSetpIndiff2 value s
  | .setpModulation value => Sys2Proof.Machine.execSetpModulation value s
  | .setpSize value => Sys2Proof.Machine.execSetpSize value s
  | .setpWet value => Sys2Proof.Machine.execSetpWet value s
  | .setpDry value => Sys2Proof.Machine.execSetpDry value s
  | .frame left right => Sys2Proof.Machine.execFrame left right s
  | .pmono x => Sys2Proof.Machine.execPmono x s
  | .pstereo left right => Sys2Proof.Machine.execPstereo left right s
  | .lsetlen line length => Sys2Proof.Machine.execLsetlen line length s
  | .lpush line sample => Sys2Proof.Machine.execLpush line sample s
  | .lout line => Sys2Proof.Machine.execLout line s
  | .ltap line k => Sys2Proof.Machine.execLtap line k s
  | .ldiff line x coefficient => Sys2Proof.Machine.execLdiff line x coefficient s
  | .lmode line mode => Sys2Proof.Machine.execLmode line mode s
  | .lfb line feedback => Sys2Proof.Machine.execLfb line feedback s
  | .lmod line frequency extent => Sys2Proof.Machine.execLmod line frequency extent s
  | .lmoden line enable => Sys2Proof.Machine.execLmoden line enable s

end Sys2Proof.Machine
end

