-- ==== Sys2Proof/Machine/Step.lean ====
section
/-! DEFINITION. One step: the hardware reset input, else the next request on the command port, taken, performed
completely and answered (30_encoding.md R80, 20_memory.md R68). -/

namespace Sys2Proof.Machine

/-- One step. With the reset input asserted, hardware reset (70_reset_and_hazards.md R270; entry 10). With no complete
request on the port, the DRC "holds its state unchanged" (60_exceptions.md R246; entry 8). Else one request: its items
leave the port, and it is performed or, if its word is illegal, answered as 60_exceptions.md R235 orders. -/
def step (s : State) : Host.Outcome State Fault Refusal :=
  if s.resetIn then .next s.hardwareResetEvent
  else
    match decode s.cfg.numFmt s.inq with
    | .waiting => .next s
    | .command i rest => exec i { s with inq := rest }
    | .illegal e rest => .next (State.illegalCommand { s with inq := rest } e)

/-- The state with one request on the port, that of a table word, and the reset input not asserted, so that the next
step performs it (entry 11). -/
def State.withFetchWord (s : State) (nbits w : Nat) : State := { s with inq := tableItems nbits w, resetIn := false }

end Sys2Proof.Machine
end

