-- ==== Sys2Proof/Safety.lean ====
section
/-! DEFINITION. What counts as a safe state and a safe run: the line invariants of 10_state.md R28 with the widths of
00_scope.md R10, the state of a machine without a network (70_reset_and_hazards.md R270), and runs that do not stop
(00_scope.md R4: each command is "unconditionally completing"). -/

namespace Sys2Proof.Machine

/-- The invariants of one line (10_state.md R28 (a), (b), (d), (e); R27; 00_scope.md R10): N is 0 or even and at least
4; N ≤ CAP - 1; W is in [0, N), or 0 with N; OFF = N / 2; CAP is at most MAXCAP; EXC is an s32; the storage is in
canonical form and lists no slot at or above CAP. R28 (f) holds by the types of MODE and MODEN. -/
def Line.wf (p : Params) (ln : Line) : Bool :=
  decide (ln.n = 0 ∨ (4 ≤ ln.n ∧ ln.n % 2 = 0)) && decide (ln.n + 1 ≤ ln.cap) && decide (ln.cap ≤ p.maxcap) &&
    decide (if ln.n = 0 then ln.w = 0 else ln.w < ln.n) && decide (2 * ln.off = ln.n) &&
    decide (-(2 ^ 31 : Int) ≤ ln.exc ∧ ln.exc < (2 ^ 31 : Int)) && Slots.wf ln.buf && Slots.below ln.cap ln.buf

/-- Every one of the thirteen lines meets its invariants. -/
def Lines.wf (p : Params) (ls : Lines) : Bool := allLines.all fun l => (ls.get l).wf p

/-- The machine's invariant: sane parameter sizes, and every line of a network meets R28. -/
def State.inv (s : State) : Bool :=
  s.cfg.sane &&
    match s.lines with
    | none => true
    | some ls => ls.wf s.cfg

/-- Every register holds its hardware reset value (70_reset_and_hazards.md R270). -/
def State.registersBlank (s : State) : Bool :=
  decide (s.sr = 0#32) && decide (s.bw = 0#64) && decide (s.damp = 0#64) && decide (s.decay = 0#64) && decide (s.dd1 = 0#64) &&
    decide (s.dd2 = 0#64) && decide (s.id1 = 0#64) && decide (s.id2 = 0#64) && decide (s.wet = 0#64) && decide (s.dry = 0#64) &&
    decide (s.lpbw = 0#64) && decide (s.lpa = 0#64) && decide (s.lpb = 0#64)

/-- With a network, SR is not 0 and is every line's LSR; without one, every register is blank (10_state.md R23, R26;
70_reset_and_hazards.md R271). -/
def State.ratesAgree (s : State) : Bool :=
  match s.lines with
  | none => s.registersBlank
  | some ls => decide (s.sr ≠ 0#32) && allLines.all fun l => decide ((ls.get l).lsr = s.sr)

/-- Every modulation offset a line can now have is in the range of EXC, whatever draw its arithmetic takes: the next
push of the line does not raise EMODRANGE (40_delay_line.md R104). -/
def Line.modulationInRange (p : Params) (ln : Line) : Prop :=
  ∀ c : Ctx, c.cfg = p → ∃ ln', ln.modulate c = .ok ln'

/-- FAULT = 0 and the network is `ls`: the state in which every command is performed (60_exceptions.md R235). -/
def State.running (s : State) (ls : Lines) : Prop := s.fault = none ∧ s.lines = some ls

/-- The state with line `l` of the network `ls` replaced and nothing else changed. -/
def State.withLine (s : State) (ls : Lines) (l : LineName) (ln : Line) : State := { s with lines := some (ls.set l ln) }

/-- How many result items a command that succeeds returns (30_encoding.md R83). -/
def resultCount (i : Instr) : Nat :=
  match i.opcode with
  | .nop | .init | .deinit | .setp | .lsetlen | .lpush | .lmode | .lfb | .lmod | .lmoden => 0
  | .rdreg | .lrd | .lrdbuf | .pmono | .lout | .ltap | .ldiff => 1
  | .frame | .pstereo => 2

/-- Perform commands one after another (20_memory.md R68), stopping where the machine stops. -/
def execAll : List Instr → State → Host.Outcome State Fault Refusal
  | [], s => .next s
  | i :: rest, s =>
    match exec i s with
    | .next t => execAll rest t
    | .fault f => .fault f
    | .refused r => .refused r

/-- The fields of a line that only SetLength, LMODE, LFB, LMOD, LMODEN, SETP.MODULATION and INIT write
(10_state.md R26): every field but W, FRAC, PHASE, EXC, APS and the slots. -/
def Line.sameSettings (a b : Line) : Prop :=
  a.cap = b.cap ∧ a.n = b.n ∧ a.off = b.off ∧ a.freq = b.freq ∧ a.ext = b.ext ∧ a.mode = b.mode ∧ a.fb = b.fb ∧
    a.moden = b.moden ∧ a.lsr = b.lsr

/-- A safe run of `k` steps: the machine does not stop. -/
def runsSafely (k : Nat) (s : State) : Prop := ∃ t, Sys2Proof.core.run k s = .next t

end Sys2Proof.Machine
end

