-- ==== Sys2Proof/Certificates/Slice0/Obligations.lean ====
section
/-! DEFINITION. The statements for the provers, in the order of OBLIGATIONS.json: encoding, the step, reset, faults,
control commands, parameters, line commands, the network, invariants, F arithmetic, modulation out of range. A context
`c` with `c.cfg = s.cfg` stands for any place of a free value (entry 3): a statement with such a context under ∃ says
nothing about the value. `draws`, `inq` and `out` are the model's own form of the draws (entry 3), of the items in flight
(entries 8, 19) and of the responses (entry 9). -/

open Sys2Proof Sys2Proof.Machine

/-! ## Encoding -/

/-- 30_encoding.md R83, R84, R89: the words the spec writes out stand for the commands it names. -/
def Obligations.SpecWordsDecodeAsNamed : Prop :=
  decode .binary32 [0x00000310#64, 0x3F000000#64] = .command (.setpDecay 0x3F000000#64) [] ∧
  decode .binary32 [0x00000633#64, 0x0000010A#64] = .command (.ltap .dla 266#32) [] ∧
  decode .binary32 [0x00050404#64] = .command (.lrd .moda .phase) [] ∧
  decode .binary32 [0x00000604#64] = .command (.lrd .dla .cap) [] ∧
  decode .binary32 [0x00000001#64, 0x0000AC44#64] = .command (.init 44100#32) [] ∧
  decode .binary32 [0x00000103#64] = .command (.rdreg .sr) [] ∧
  decode .binary32 [0x00000002#64] = .command .deinit [] ∧
  decode .binary32 [0x00000020#64, 0x3F800000#64, 0xBF800000#64] =
    .command (.frame 0x3F800000#64 0xBF800000#64) [] ∧
  decode .binary32 [0x00000D31#64, 0#64] = .illegal (.selOutOfRange .lpush) [] ∧
  decode .binary32 [0x000E0004#64] = .illegal (.fldOutOfRange .lrd) [] ∧
  decode .binary32 [0x00000006#64] = .illegal (.undefinedOpcode 6) [] ∧
  decode .binary32 [0x01000000#64] = .illegal (.reservedNotZero .nop) []

/-- 30_encoding.md R80 to R85: the request of a well-formed command, followed by anything, decodes to that command and
leaves what follows. -/
def Obligations.DecodeOfEncodeIsTheCommand : Prop :=
  ∀ (fmt : NumFmt) (i : Instr) (rest : List Item), i.wellFormed fmt = true →
    decode fmt (encode i ++ rest) = .command i rest

/-- 30_encoding.md R86 (each command word "is either exactly one row"): a request that decodes to a command has that
command's word, and its operand items carry that command's operands. -/
def Obligations.DecodedRequestHasTheCommandsWord : Prop :=
  ∀ (fmt : NumFmt) (r : Request) (i : Instr), decodeRequest fmt r = .ok i →
    i.word = r.word ∧
      ((∀ x ∈ [r.first, r.second], x.toNat < 2 ^ 32) →
        i.operands = [r.first, r.second].take (operandItems r.word) ∧
          (i.wellFormed fmt = true ∨ (∃ l m, i = .lmode l m ∧ 2 < m.toNat) ∨ ∃ l e, i = .lmoden l e ∧ 1 < e.toNat))

/-- 30_encoding.md R83, R86 (a) to (d), R87: a request is illegal exactly when its OPC is not one of the 19 values, or
RSV is not 0, or SEL or FLD is outside the range of the row of R83. A row is (OPC, largest SEL, largest FLD). -/
def Obligations.IllegalWordsAreThoseOutsideTheMap : Prop :=
  ∀ (fmt : NumFmt) (r : Request),
    (∃ i, decodeRequest fmt r = .ok i) ↔
      rsvOf r.word = 0 ∧
        ∃ row ∈ [(0x00, 0, 0), (0x01, 0, 0), (0x02, 0, 0), (0x03, 13, 0), (0x04, 12, 13), (0x05, 12, 0), (0x10, 11, 0),
            (0x20, 0, 0), (0x21, 0, 0), (0x22, 0, 0), (0x30, 12, 0), (0x31, 12, 0), (0x32, 12, 0), (0x33, 12, 0),
            (0x34, 12, 0), (0x35, 12, 0), (0x36, 12, 0), (0x37, 12, 0), (0x38, 12, 0)],
          opcOf r.word = row.1 ∧ selOf r.word ≤ row.2.1 ∧ fldOf r.word ≤ row.2.2

/-- 30_encoding.md R80, R88: how many operand items a request has is fixed by the OPC byte alone: 2 for FRAME, PSTEREO,
LDIFF and LMOD, 1 for INIT, LRDBUF, SETP, PMONO, LSETLEN, LPUSH, LTAP, LMODE, LFB and LMODEN, and 0 for every other byte;
a request is taken exactly when that many items follow its word, whether its SEL, FLD and RSV are legal or not. The rules
fix the counts; that a request with too few items on the port waits for the others is the model's choice (entry 8). -/
def Obligations.RequestLengthIsFixedByOpc : Prop :=
  ∀ (fmt : NumFmt) (head : Item) (rest : List Item),
    let opc := opcOf head.toWord
    let count :=
      if opc ∈ [0x20, 0x22, 0x34, 0x37] then 2
      else if opc ∈ [0x01, 0x05, 0x10, 0x21, 0x30, 0x31, 0x33, 0x35, 0x36, 0x38] then 1 else 0
    (rest.length < count → decode fmt (head :: rest) = .waiting) ∧
      (count ≤ rest.length →
        (∃ i, decode fmt (head :: rest) = .command i (rest.drop count)) ∨
          ∃ e, decode fmt (head :: rest) = .illegal e (rest.drop count))

/-! ## The step -/

/-- 30_encoding.md R80, 20_memory.md R68: with a command on the port, the step performs it, its items having left the
port. -/
def Obligations.StepPerformsTheDecodedCommand : Prop :=
  ∀ (s : State) (i : Instr) (rest : List Item), s.resetIn = false → decode s.cfg.numFmt s.inq = .command i rest →
    step s = exec i { s with inq := rest }

/-- 60_exceptions.md R246: with no complete request on the port and no reset, the state is held. That an incomplete
request waits is the model's choice (entry 8). -/
def Obligations.StepHoldsTheStateBetweenRequests : Prop :=
  ∀ s : State, s.resetIn = false → decode s.cfg.numFmt s.inq = .waiting → step s = .next s

/-- 30_encoding.md R86, 60_exceptions.md R233 to R236: an illegal word, with FAULT = 0, sets FAULT with CAUSE 1 and
changes nothing else; with FAULT = 1 it changes nothing, and its response has REJ = 1 unless its OPC is that of NOP,
INIT, DEINIT, RDREG, LRD or LRDBUF. The last clause is the model's reading (entry 18). -/
def Obligations.IllegalWordFaultsOrIsRejected : Prop :=
  ∀ (s : State) (e : DecodeError) (rest : List Item), s.resetIn = false → decode s.cfg.numFmt s.inq = .illegal e rest →
    (s.fault = none →
      step s = .next { s with
        inq := rest
        fault := some .eillcmd
        out := ⟨statusOf s.lines.isSome (some .eillcmd), []⟩ :: s.out
        draws := s.draws + 1 }) ∧
    (∀ c, s.fault = some c →
      step s = .next { s with
        inq := rest
        out := ⟨if opcOf (s.inq.headD 0#64).toWord ≤ 5 then s.status else s.status ||| 4#32, []⟩ :: s.out
        draws := s.draws + 1 })

/-- 70_reset_and_hazards.md R270: hardware reset leaves every register at 0, FAULT and INITD at 0, no lines and the port
idle. Configuration and the responses already returned stay (entries 9, 10). -/
def Obligations.HardwareResetClearsEveryRegister : Prop :=
  ∀ s : State, s.resetIn = true → ∃ t, step s = .next t ∧ t.status = 0#32 ∧ t.fault = none ∧ t.lines = none ∧
    t.sr = 0#32 ∧ t.bw = 0#64 ∧ t.damp = 0#64 ∧ t.decay = 0#64 ∧ t.dd1 = 0#64 ∧ t.dd2 = 0#64 ∧ t.id1 = 0#64 ∧
    t.id2 = 0#64 ∧ t.wet = 0#64 ∧ t.dry = 0#64 ∧ t.lpbw = 0#64 ∧ t.lpa = 0#64 ∧ t.lpb = 0#64 ∧ t.inq = [] ∧
    t.cfg = s.cfg ∧ t.out = s.out

/-- 60_exceptions.md R236, 30_encoding.md R80: a command that completes returns exactly one response. It was rejected
because FAULT was 1: the status word is STATUS with REJ added, and there is no result item. Or its status word is STATUS
after the command: with FAULT = 0 after it, it succeeded and returns the number of result items R83 gives; if it set
FAULT, it returns none. That the items behind an INIT or DEINIT stay on the port is the model's reading (entry 19). -/
def Obligations.EveryCommandReturnsOneResponse : Prop :=
  ∀ (i : Instr) (s t : State), exec i s = .next t →
    ∃ r, t.out = r :: s.out ∧ t.inq = s.inq ∧ t.resetIn = s.resetIn ∧ t.cfg = s.cfg ∧
      ((r.status = t.status ∧ (t.fault = none → r.results.length = resultCount i) ∧
          (s.fault = none → t.fault ≠ none → r.results = []) ∧ (r.results = [] ∨ r.results.length = resultCount i)) ∨
        (r.status = t.status ||| 4#32 ∧ r.results = [] ∧ s.fault.isSome = true ∧ i.opcode.acceptedInFault = false))

/-! ## Reset -/

/-- 70_reset_and_hazards.md R270, 10_state.md R28: the reset state meets the machine's invariants, with STATUS 0. -/
def Obligations.ResetStateMeetsTheInvariants : Prop :=
  State.reset.inv = true ∧ State.reset.ratesAgree = true ∧ State.reset.status = 0#32 ∧ State.reset.registersBlank = true ∧
    State.reset.lines = none ∧ State.reset.inq = []

/-! ## Faults -/

/-- 60_exceptions.md R233: a fault is recorded with its cause only while FAULT = 0; a later one changes nothing; either
way the response is STATUS with REJ = 0 and no result items, and INITD, every register and every line stay. -/
def Obligations.FirstFaultIsRecordedLaterOnesAreNot : Prop :=
  ∀ (s : State) (cause : Cause),
    (s.fault = none → s.takeFault cause = { s with
      fault := some cause
      out := ⟨statusOf s.lines.isSome (some cause), []⟩ :: s.out
      draws := s.draws + 1 }) ∧
    (∀ c, s.fault = some c → s.takeFault cause = { s with out := ⟨s.status, []⟩ :: s.out, draws := s.draws + 1 }) ∧
    (s.takeFault cause).status.getLsbD 2 = false ∧ (s.takeFault cause).status.getLsbD 0 = s.lines.isSome

/-- 60_exceptions.md R232: a command other than INIT that sets FAULT changes STATUS alone: its next state is that of
taking one fault from the state before the command. -/
def Obligations.FaultingCommandChangesStatusOnly : Prop :=
  ∀ (i : Instr) (s t : State), (∀ sr, i ≠ .init sr) → s.fault = none → exec i s = .next t → t.fault ≠ none →
    ∃ cause, t = { s with
      fault := some cause
      out := ⟨statusOf s.lines.isSome (some cause), []⟩ :: s.out
      draws := s.draws + 1 }

/-- 60_exceptions.md R234: while FAULT = 1 every command but NOP, INIT, DEINIT, RDREG, LRD and LRDBUF is rejected: nothing
changes, and the response is STATUS with bit 2 set and no result items. -/
def Obligations.FaultStateRejectsOtherCommands : Prop :=
  ∀ (i : Instr) (s : State) (c : Cause), s.fault = some c →
    i.opcode ∉ [.nop, .init, .deinit, .rdreg, .lrd, .lrdbuf] →
    exec i s = .next { s with out := ⟨s.status ||| 4#32, []⟩ :: s.out, draws := s.draws + 1 }

/-- 60_exceptions.md R233, R238: FAULT and its first cause stay until INIT or DEINIT. -/
def Obligations.FaultIsStickyUntilInitOrDeinit : Prop :=
  ∀ (i : Instr) (s t : State) (c : Cause), s.fault = some c → (∀ sr, i ≠ .init sr) → i ≠ .deinit →
    exec i s = .next t → t.fault = some c ∧ t.lines = s.lines

/-- 60_exceptions.md R231 (code 2), R235, 70_reset_and_hazards.md R272: without a network and with FAULT = 0, every command
but NOP, INIT, DEINIT and RDREG of STATUS raises ENOTINIT, unless its u32 operand is illegal. -/
def Obligations.CommandsNeedANetwork : Prop :=
  ∀ (i : Instr) (s : State), s.fault = none → s.lines = none → i ≠ .nop → (∀ sr, i ≠ .init sr) → i ≠ .deinit →
    i ≠ .rdreg .status → (∀ l m, i = .lmode l m → m.toNat ≤ 2) → (∀ l e, i = .lmoden l e → e.toNat ≤ 1) →
    exec i s = .next { s with
      fault := some .enotinit
      out := ⟨0x00000202#32, []⟩ :: s.out
      draws := s.draws + 1 }

/-- 60_exceptions.md R235 step 3, 30_encoding.md R86 (e): an LMODE operand above 2 or an LMODEN operand above 1 raises
EILLCMD while FAULT = 0, with a network or without one. -/
def Obligations.OutOfRangeOperandIsIllegal : Prop :=
  ∀ (s : State) (l : LineName) (v : Word), s.fault = none →
    (2 < v.toNat → exec (.lmode l v) s = .next (s.takeFault .eillcmd)) ∧
      (1 < v.toNat → exec (.lmoden l v) s = .next (s.takeFault .eillcmd))

/-- 60_exceptions.md R231, column "raised by": which commands can set FAULT with which cause. -/
def Obligations.EachCauseComesFromItsCommands : Prop :=
  ∀ (i : Instr) (s t : State) (cause : Cause), s.fault = none → exec i s = .next t → t.fault = some cause →
    match cause with
    | .eillcmd => i.opcode ∈ [.lrdbuf, .lmode, .lmoden]
    | .enotinit => i.opcode ∉ [.nop, .init, .deinit] ∧ i ≠ .rdreg .status
    | .ebadrate => i = .init 0#32
    | .elineunset => i.opcode ∈ [.frame, .pmono, .pstereo, .lpush, .lout, .ltap, .ldiff]
    | .ecap => i.opcode ∈ [.init, .lsetlen] ∨ (∃ v, i = .setpPredelay v) ∨ ∃ v, i = .setpSize v
    | .emodrange => i.opcode ∈ [.frame, .pmono, .pstereo, .lpush, .ldiff]

/-- 10_state.md R22: the fields of STATUS, in every state. -/
def Obligations.StatusFieldsAreAsListed : Prop :=
  ∀ s : State, s.status.getLsbD 0 = s.lines.isSome ∧ s.status.getLsbD 1 = s.fault.isSome ∧
    s.status.extractLsb' 2 6 = 0#6 ∧ s.status.extractLsb' 16 16 = 0#16 ∧
    (s.fault = none → s.status.extractLsb' 8 8 = 0#8) ∧
    (∀ c, s.fault = some c → s.status.extractLsb' 8 8 =
      match c with
      | .eillcmd => 1#8
      | .enotinit => 2#8
      | .ebadrate => 3#8
      | .elineunset => 4#8
      | .ecap => 5#8
      | .emodrange => 6#8)

/-! ## Control and observation commands -/

/-- 45_control.md R210: NOP changes no state, with or without a network or a fault, and returns STATUS. -/
def Obligations.NopOnlyReturnsStatus : Prop :=
  ∀ s : State, exec .nop s = .next { s with out := ⟨s.status, []⟩ :: s.out, draws := s.draws + 1 }

/-- 45_control.md R215, 70_reset_and_hazards.md R271: DEINIT, in every state, leaves no lines, every register at its
hardware reset value, and STATUS 0. That the items behind the command stay on the port, where R270 has the port idle, is
the model's reading (entry 19). -/
def Obligations.DeinitDestroysTheNetwork : Prop :=
  ∀ s : State, ∃ t, exec .deinit s = .next t ∧ t.out = ⟨0#32, []⟩ :: s.out ∧ t.status = 0#32 ∧ t.lines = none ∧
    t.fault = none ∧ t.registersBlank = true ∧ t.inq = s.inq ∧ t.cfg = s.cfg

/-- 45_control.md R211 to R213, 10_state.md R23: INIT with sr ≠ 0 whose default lengths all fit MAXCAP succeeds in every
state: STATUS is 1, SR is sr, the coefficients and gains come from the defaults, the low-pass states are +0, and each of
the thirteen lines is as R212 and R213 leave it; under TAP_SCALE = scaled, RATIO is (1 × toF(sr)) / 29761 (42_network.md
R162). `len` of a line is the length its default passes to SetLength. That the items behind the command stay on the port,
where R270 has the port idle, is the model's reading (entry 19). -/
def Obligations.InitCreatesTheDefaultNetwork : Prop :=
  ∀ (sr : Word) (s : State),
    let fmt := s.cfg.numFmt
    let srF := Fp.ofInt fmt sr.toNat
    let isSize (canon : Nat) (len : F) : Prop := ∃ c d e : Ctx, c.cfg = s.cfg ∧ d.cfg = s.cfg ∧ e.cfg = s.cfg ∧
      len = Fp.mul c (Fp.ofInt fmt canon) (Fp.div d (Fp.mul e (Fp.lit fmt 1 1) srF) (Fp.lit fmt 29761 1))
    let isPredelay (len : F) : Prop := ∃ c : Ctx, c.cfg = s.cfg ∧ len = Fp.mul c (Fp.lit fmt 1 1000) srF
    let created (ls : Lines) (l : LineName) (len : F) : Prop :=
      (ls.get l).w = 0 ∧ (ls.get l).phase = 0#64 ∧ (ls.get l).exc = 0 ∧ (ls.get l).fb = 0#64 ∧ (ls.get l).aps = 0#64 ∧
        (ls.get l).lsr = sr ∧ (ls.get l).buf = [] ∧
        (lengthGuard fmt len = false →
          (ls.get l).cap = s.cfg.cap0 ∧ (ls.get l).n = 0 ∧ (ls.get l).off = 0 ∧ (ls.get l).frac = 0#64) ∧
        (lengthGuard fmt len = true → ∃ m : Nat, Fp.unpack fmt len = .fin false m ∧
          (ls.get l).cap = max s.cfg.cap0 (2 * ((m + Fp.one fmt - 1) / Fp.one fmt) + 1) ∧
          (ls.get l).off = m / Fp.one fmt ∧ (ls.get l).n = 2 * (m / Fp.one fmt) ∧
          ∃ c : Ctx, c.cfg = s.cfg ∧ (ls.get l).frac = Fp.sub c len (Fp.ofInt fmt (m / Fp.one fmt : Nat)))
    sr ≠ 0#32 → (∀ c : Ctx, c.cfg = s.cfg → ∀ len, isPredelay len → tooLong c len = false) →
    (∀ c : Ctx, c.cfg = s.cfg → ∀ e ∈ canonicalLengths, ∀ len, isSize e.2 len → tooLong c len = false) →
    ∃ (t : State) (ls : Lines), exec (.init sr) s = .next t ∧ t.out = ⟨1#32, []⟩ :: s.out ∧ t.status = 1#32 ∧
      t.lines = some ls ∧ t.fault = none ∧ t.inq = s.inq ∧ t.cfg = s.cfg ∧ t.sr = sr ∧
      (∃ c d : Ctx, c.cfg = s.cfg ∧ d.cfg = s.cfg ∧ t.bw = Fp.div c (Fp.div d srF (Fp.lit fmt 2 1)) srF) ∧
      t.damp = Fp.lit fmt 5 100 ∧ t.decay = Fp.lit fmt 7 10 ∧ t.dd1 = Fp.lit fmt 6 10 ∧ t.dd2 = Fp.lit fmt 6 10 ∧
      t.id1 = Fp.lit fmt 55 100 ∧ t.id2 = Fp.lit fmt 625 1000 ∧
      (∃ c d : Ctx, c.cfg = s.cfg ∧ d.cfg = s.cfg ∧
        t.wet = Fp.pow10 c (Fp.div d (Fp.ofInt fmt (-6)) (Fp.lit fmt 20 1))) ∧
      (∃ c d : Ctx, c.cfg = s.cfg ∧ d.cfg = s.cfg ∧
        t.dry = Fp.pow10 c (Fp.div d (Fp.ofInt fmt 0) (Fp.lit fmt 20 1))) ∧
      t.lpbw = 0#64 ∧ t.lpa = 0#64 ∧ t.lpb = 0#64 ∧
      (s.cfg.tapScale = .scaled → ∃ c d : Ctx, c.cfg = s.cfg ∧ d.cfg = s.cfg ∧
        t.ratio = Fp.div c (Fp.mul d (Fp.lit fmt 1 1) srF) (Fp.lit fmt 29761 1)) ∧
      (∃ len, isPredelay len ∧ created ls .pre len) ∧
      (∀ e ∈ canonicalLengths, ∃ len, isSize e.2 len ∧ created ls e.1 len) ∧
      (∀ l, (ls.get l).moden = decide (l = .moda ∨ l = .modb)) ∧
      (∀ l, (ls.get l).mode = if l = .moda ∨ l = .modb then s.cfg.modInterp else .none) ∧
      (∀ l, l ≠ .moda → l ≠ .modb → (ls.get l).freq = 0#64 ∧ (ls.get l).ext = 0#64) ∧
      (∃ c d e f : Ctx, c.cfg = s.cfg ∧ d.cfg = s.cfg ∧ e.cfg = s.cfg ∧ f.cfg = s.cfg ∧
        ls.moda.ext = Fp.mul c (Fp.lit fmt 1 1) (Fp.lit fmt 60 1) ∧ ls.moda.freq = Fp.div d (Fp.lit fmt 125 100) srF ∧
        ls.modb.ext = Fp.mul e (Fp.lit fmt 1 1) (Fp.lit fmt 40 1) ∧ ls.modb.freq = Fp.div f (Fp.lit fmt 487 100) srF)

/-- 45_control.md R214, 70_reset_and_hazards.md R271: in every state, INIT with sr = 0 raises EBADRATE, and INIT with
sr ≠ 0 raises ECAP if the default length of the predelay or of a network line does not fit MAXCAP, for any value a free
NaN may take; and any INIT that leaves FAULT set leaves the hardware reset state with the cause EBADRATE (0x302) or ECAP
(0x502): the earlier network is gone. That the items behind the command stay on the port, where R270 has the port idle,
is the model's reading (entry 19); that CAP0 is at most MAXCAP is a premise (entry 17). -/
def Obligations.FaultingInitLeavesTheResetState : Prop :=
  ∀ (sr : Word) (s : State),
    let fmt := s.cfg.numFmt
    let srF := Fp.ofInt fmt sr.toNat
    (∃ t, exec (.init 0#32) s = .next t ∧ t.fault = some .ebadrate) ∧
    (sr ≠ 0#32 → s.cfg.sane = true →
      ((∀ c d : Ctx, c.cfg = s.cfg → d.cfg = s.cfg → tooLong c (Fp.mul d (Fp.lit fmt 1 1000) srF) = true) ∨
        ∃ e ∈ canonicalLengths, ∀ c d f g : Ctx, c.cfg = s.cfg → d.cfg = s.cfg → f.cfg = s.cfg → g.cfg = s.cfg →
          tooLong c (Fp.mul d (Fp.ofInt fmt e.2) (Fp.div f (Fp.mul g (Fp.lit fmt 1 1) srF) (Fp.lit fmt 29761 1))) = true) →
      ∃ t, exec (.init sr) s = .next t ∧ t.fault = some .ecap) ∧
    ∀ t, exec (.init sr) s = .next t → t.fault ≠ none →
      t.lines = none ∧ t.registersBlank = true ∧ t.inq = s.inq ∧ t.cfg = s.cfg ∧ t.out = ⟨t.status, []⟩ :: s.out ∧
        ((sr = 0#32 ∧ t.status = 0x00000302#32) ∨ (sr ≠ 0#32 ∧ t.status = 0x00000502#32))

/-- 45_control.md R216, 10_state.md R23: RDREG of STATUS returns STATUS in every state; with a network, RDREG of every
other register returns that register; nothing else changes. -/
def Obligations.RdregReturnsTheRegister : Prop :=
  ∀ s : State,
    let returns (reg : RegName) (v : Item) : Prop :=
      exec (.rdreg reg) s = .next { s with out := ⟨s.status, [v]⟩ :: s.out, draws := s.draws + 1 }
    returns .status s.status.toItem ∧
      (s.lines ≠ none →
        returns .sr s.sr.toItem ∧ returns .bw s.bw ∧ returns .damp s.damp ∧ returns .decay s.decay ∧
        returns .dd1 s.dd1 ∧ returns .dd2 s.dd2 ∧ returns .id1 s.id1 ∧ returns .id2 s.id2 ∧ returns .wet s.wet ∧
        returns .dry s.dry ∧ returns .lpbw s.lpbw ∧ returns .lpa s.lpa ∧ returns .lpb s.lpb)

/-- 45_control.md R217, 10_state.md R26: with a network, LRD returns the named field of the line, an integer field as an
unsigned word, EXC in two's complement, MODE as 0, 1 or 2 and MODEN as 0 or 1; nothing else changes. -/
def Obligations.LrdReturnsTheField : Prop :=
  ∀ (s : State) (ls : Lines) (l : LineName), s.lines = some ls →
    let returns (field : FieldName) (v : Item) : Prop :=
      exec (.lrd l field) s = .next { s with out := ⟨s.status, [v]⟩ :: s.out, draws := s.draws + 1 }
    let word (n : Nat) : Item := Word.toItem (BitVec.ofNat 32 n)
    let ln := ls.get l
    returns .cap (word ln.cap) ∧ returns .n (word ln.n) ∧ returns .off (word ln.off) ∧ returns .w (word ln.w) ∧
    returns .frac ln.frac ∧ returns .phase ln.phase ∧ returns .freq ln.freq ∧ returns .ext ln.ext ∧
    returns .exc (Word.toItem (BitVec.ofInt 32 ln.exc)) ∧
    returns .mode (word (match ln.mode with | .none => 0 | .linear => 1 | .allpass => 2)) ∧
    returns .fb ln.fb ∧ returns .aps ln.aps ∧ returns .moden (word (if ln.moden then 1 else 0)) ∧
    returns .lsr ln.lsr.toItem

/-- 45_control.md R218: with a network, LRDBUF returns any slot below CAP and changes nothing; an index at or above CAP
raises EILLCMD. -/
def Obligations.LrdbufReturnsTheSlot : Prop :=
  ∀ (s : State) (ls : Lines) (l : LineName) (index : Word), s.lines = some ls →
    (index.toNat < (ls.get l).cap →
      exec (.lrdbuf l index) s = .next { s with
        out := ⟨s.status, [Slots.read (ls.get l).buf index.toNat]⟩ :: s.out
        draws := s.draws + 1 }) ∧
    ((ls.get l).cap ≤ index.toNat → exec (.lrdbuf l index) s = .next (s.takeFault .eillcmd))

/-! ## Parameters -/

/-- 43_parameters.md R183 to R188, R193: DAMPING, DECAY, DIFFUSION1, DIFFUSION2, INDIFF1 and INDIFF2 store the value, any
F value, in their register and change nothing else. -/
def Obligations.SetpStoresTheCoefficient : Prop :=
  ∀ (s : State) (ls : Lines) (v : F), s.running ls →
    exec (.setpDamping v) s = .next (({ s with damp := v } : State).respond s.status []) ∧
    exec (.setpDecay v) s = .next (({ s with decay := v } : State).respond s.status []) ∧
    exec (.setpDiffusion1 v) s = .next (({ s with dd1 := v } : State).respond s.status []) ∧
    exec (.setpDiffusion2 v) s = .next (({ s with dd2 := v } : State).respond s.status []) ∧
    exec (.setpIndiff1 v) s = .next (({ s with id1 := v } : State).respond s.status []) ∧
    exec (.setpIndiff2 v) s = .next (({ s with id2 := v } : State).respond s.status [])

/-- 43_parameters.md R182, R191, R192, R193: BANDWIDTH stores v / toF(SR) in BW; WET and DRY store POW10(v / 20);
nothing else changes. -/
def Obligations.SetpStoresTheComputedGain : Prop :=
  ∀ (s : State) (ls : Lines) (v : F), s.running ls →
    (∃ c : Ctx, c.cfg = s.cfg ∧ exec (.setpBandwidth v) s =
      .next (({ s with bw := Fp.div c v (Fp.ofInt s.cfg.numFmt s.sr.toNat) } : State).respond s.status [])) ∧
    (∃ c d : Ctx, c.cfg = s.cfg ∧ d.cfg = s.cfg ∧ exec (.setpWet v) s =
      .next (({ s with wet := Fp.pow10 c (Fp.div d v (Fp.lit s.cfg.numFmt 20 1)) } : State).respond s.status [])) ∧
    (∃ c d : Ctx, c.cfg = s.cfg ∧ d.cfg = s.cfg ∧ exec (.setpDry v) s =
      .next (({ s with dry := Fp.pow10 c (Fp.div d v (Fp.lit s.cfg.numFmt 20 1)) } : State).respond s.status []))

/-- 43_parameters.md R189, R193: MODULATION sets EXT and FREQ of lines 4 and 5 and changes nothing else. -/
def Obligations.SetpModulationSetsTheTwoLines : Prop :=
  ∀ (s : State) (ls : Lines) (v : F), s.running ls →
    let fmt := s.cfg.numFmt
    let srF := Fp.ofInt fmt s.sr.toNat
    ∃ c d e f : Ctx, c.cfg = s.cfg ∧ d.cfg = s.cfg ∧ e.cfg = s.cfg ∧ f.cfg = s.cfg ∧
      exec (.setpModulation v) s = .next (({ s with lines := some { ls with
        moda := { ls.moda with ext := Fp.mul c v (Fp.lit fmt 60 1), freq := Fp.div d (Fp.lit fmt 125 100) srF }
        modb := { ls.modb with ext := Fp.mul e v (Fp.lit fmt 40 1), freq := Fp.div f (Fp.lit fmt 487 100) srF } } } :
        State).respond s.status [])

/-- 43_parameters.md R181, R193: PREDELAY passes v × toF(SR) to SetLength of line 12: it completes, setting that line
alone, for a product that fits MAXCAP, and raises ECAP with no change for one that does not. -/
def Obligations.SetpPredelaySetsTheLine : Prop :=
  ∀ (s : State) (ls : Lines) (v : F), s.running ls → s.inv = true →
    let product (c : Ctx) : F := Fp.mul c v (Fp.ofInt s.cfg.numFmt s.sr.toNat)
    ((∀ c : Ctx, c.cfg = s.cfg → tooLong c (product c) = false) →
      ∃ (c d : Ctx) (ln : Line), c.cfg = s.cfg ∧ d.cfg = s.cfg ∧ ls.pre.setLength d (product c) = .ok ln ∧
        exec (.setpPredelay v) s = .next (({ s with lines := some { ls with pre := ln } } : State).respond s.status [])) ∧
    ((∀ c : Ctx, c.cfg = s.cfg → tooLong c (product c) = true) →
      exec (.setpPredelay v) s = .next (s.takeFault .ecap))

/-- 43_parameters.md R190, R193, 42_network.md R162: SIZE with every scaled length within MAXCAP sets each of the twelve
network lines, and only them, to its canonical length times the one ratio (v × toF(SR)) / 29761. Under TAP_SCALE = scaled
RATIO takes that ratio; under TAP_SCALE = fixed it stays, as nothing else of the state changes. -/
def Obligations.SetpSizeScalesTheTwelveLines : Prop :=
  ∀ (s : State) (ls : Lines) (v : F), s.running ls →
    let fmt := s.cfg.numFmt
    let isRatio (ratio : F) : Prop := ∃ c d : Ctx, c.cfg = s.cfg ∧ d.cfg = s.cfg ∧
      ratio = Fp.div c (Fp.mul d v (Fp.ofInt fmt s.sr.toNat)) (Fp.lit fmt 29761 1)
    (∀ ratio, isRatio ratio → ∀ c : Ctx, c.cfg = s.cfg → ∀ e ∈ canonicalLengths,
      tooLong c (Fp.mul c (Fp.ofInt fmt e.2) ratio) = false) →
    ∃ (ratio : F) (ls' : Lines), isRatio ratio ∧
      exec (.setpSize v) s = .next (({ s with
        lines := some ls'
        ratio := if s.cfg.tapScale = .scaled then ratio else s.ratio } : State).respond s.status []) ∧
      ls'.pre = ls.pre ∧
      ∀ e ∈ canonicalLengths, ∃ c d : Ctx, c.cfg = s.cfg ∧ d.cfg = s.cfg ∧
        (ls.get e.1).setLength c (Fp.mul d (Fp.ofInt fmt e.2) ratio) = .ok (ls'.get e.1)

/-- 43_parameters.md R190, 60_exceptions.md R232: SIZE with some scaled length beyond MAXCAP raises ECAP and changes no
line, not even those before the one that does not fit. -/
def Obligations.SetpSizeBeyondCapacityChangesNothing : Prop :=
  ∀ (s : State) (ls : Lines) (v : F), s.running ls →
    (∃ e ∈ canonicalLengths, ∀ c d f : Ctx, c.cfg = s.cfg → d.cfg = s.cfg → f.cfg = s.cfg →
      tooLong c (Fp.mul c (Fp.ofInt s.cfg.numFmt e.2)
        (Fp.div d (Fp.mul f v (Fp.ofInt s.cfg.numFmt s.sr.toNat)) (Fp.lit s.cfg.numFmt 29761 1))) = true) →
    exec (.setpSize v) s = .next { s with
      fault := some .ecap
      out := ⟨0x00000503#32, []⟩ :: s.out
      draws := s.draws + 1 }

/-! ## Line commands -/

/-- 40_delay_line.md R100, R113: a length that is a NaN, -infinity, negative or at most 2 changes nothing, and LSETLEN
succeeds. -/
def Obligations.LsetlenIgnoresDegenerateLengths : Prop :=
  ∀ (s : State) (ls : Lines) (l : LineName) (len : F), s.running ls →
    (Fp.unpack s.cfg.numFmt len = .nan ∨ Fp.unpack s.cfg.numFmt len = .inf true ∨
      (∃ m, Fp.unpack s.cfg.numFmt len = .fin true m) ∨
      ∃ m, Fp.unpack s.cfg.numFmt len = .fin false m ∧ m ≤ 2 * Fp.one s.cfg.numFmt) →
    exec (.lsetlen l len) s = .next (s.respond s.status [])

/-- 40_delay_line.md R101, R102, R113: a finite length above 2 that fits MAXCAP sets OFF to its floor, N to twice that,
FRAC to its exact fraction, W modulo N, and CAP to 2 × ceil + 1 if that is more; new slots are +0, every other slot and
every other field of the line stays, and nothing else changes. Lengths are counted in units of the format. -/
def Obligations.LsetlenSetsTheLength : Prop :=
  ∀ (s : State) (ls : Lines) (l : LineName) (len : F) (m : Nat), s.running ls → s.inv = true →
    let ln := ls.get l
    let one := Fp.one s.cfg.numFmt
    let need := 2 * ((m + one - 1) / one) + 1
    Fp.unpack s.cfg.numFmt len = .fin false m → 2 * one < m → need ≤ s.cfg.maxcap →
    ∃ (frac : F) (buf : Slots), Fp.unpack s.cfg.numFmt frac = .fin false (m % one) ∧
      exec (.lsetlen l len) s = .next ((s.withLine ls l { ln with
        cap := max ln.cap need
        off := m / one
        n := 2 * (m / one)
        w := ln.w % (2 * (m / one))
        frac := frac
        buf := buf }).respond s.status []) ∧
      ∀ i, Slots.read buf i = if ln.cap ≤ i ∧ i < need then 0#64 else Slots.read ln.buf i

/-- 40_delay_line.md R101, R113: +infinity, or a length whose need exceeds MAXCAP, raises ECAP; only STATUS changes. -/
def Obligations.LsetlenBeyondCapacityRaisesEcap : Prop :=
  ∀ (s : State) (ls : Lines) (l : LineName) (len : F), s.running ls → s.inv = true →
    (Fp.unpack s.cfg.numFmt len = .inf false ∨
      ∃ m, Fp.unpack s.cfg.numFmt len = .fin false m ∧ 2 * Fp.one s.cfg.numFmt < m ∧
        s.cfg.maxcap < 2 * ((m + Fp.one s.cfg.numFmt - 1) / Fp.one s.cfg.numFmt) + 1) →
    exec (.lsetlen l len) s = .next { s with
      fault := some .ecap
      out := ⟨0x00000503#32, []⟩ :: s.out
      draws := s.draws + 1 }

/-- 40_delay_line.md R103 to R105, R114: a push to a line with a length, whose modulation is off or in range, stores the
sample at the write cursor and advances the cursor modulo N; with MODEN = 1 it advances PHASE and splits the offset into
EXC and FRAC; with FB ≠ 0 it adds FB times the current output, read with all that done, to the slot it stored. Nothing
else changes. -/
def Obligations.LpushStoresModulatesAndFeedsBack : Prop :=
  ∀ (s : State) (ls : Lines) (l : LineName) (x : F), s.running ls → s.inv = true → (ls.get l).n ≠ 0 →
    (ls.get l).modulationInRange s.cfg →
    let fmt := s.cfg.numFmt
    let ln := ls.get l
    let stored : Line := { ln with buf := Slots.write ln.buf ln.w x, w := (ln.w + 1) % ln.n }
    ∃ modulated final : Line,
      (ln.moden = false ∧ modulated = stored ∨
        ln.moden = true ∧ ∃ (c d e f g : Ctx) (phase off : F) (exc : Int), c.cfg = s.cfg ∧ d.cfg = s.cfg ∧
          e.cfg = s.cfg ∧ f.cfg = s.cfg ∧ g.cfg = s.cfg ∧ phase = Fp.add c ln.phase (Fp.mul d s.cfg.twoPi ln.freq) ∧
          off = Fp.mul e (Fp.sin f phase) ln.ext ∧
          (match s.cfg.excSplit with | .floor => Fp.floor? fmt off | .trunc => Fp.trunc? fmt off) = some exc ∧
          -(2 ^ 31 : Int) ≤ exc ∧ exc < 2 ^ 31 ∧
          modulated = { stored with phase := phase, exc := exc, frac := Fp.sub g off (Fp.ofInt fmt exc) }) ∧
      (Fp.eq fmt ln.fb Fp.zero = true ∧ final = modulated ∨
        Fp.eq fmt ln.fb Fp.zero = false ∧ ∃ (c d e : Ctx) (y : F) (read : Line), c.cfg = s.cfg ∧ d.cfg = s.cfg ∧
          e.cfg = s.cfg ∧ modulated.currentOutput c = .ok (y, read) ∧
          final = { read with buf := Slots.write modulated.buf ln.w (Fp.add d x (Fp.mul e ln.fb y)) }) ∧
      exec (.lpush l x) s = .next ((s.withLine ls l final).respond s.status [])

/-- 40_delay_line.md R103, R106, R110, 41_diffusion.md R140: a push, a current output, a tap or a diffusion of a line
with N = 0 raises ELINEUNSET; only STATUS changes. -/
def Obligations.UnsetLineRaisesElineunset : Prop :=
  ∀ (s : State) (ls : Lines) (l : LineName) (x y : F) (k : Word), s.running ls → (ls.get l).n = 0 →
    ∀ i ∈ [Instr.lpush l x, .lout l, .ltap l k, .ldiff l x y],
      exec i s = .next { s with
        fault := some .elineunset
        out := ⟨0x00000403#32, []⟩ :: s.out
        draws := s.draws + 1 }

/-- 40_delay_line.md R104, 60_exceptions.md R232: a push of a line with a length and MODEN = 1 whose offset is never
finite, or never has an integer part in [-2^31, 2^31), raises EMODRANGE; only STATUS changes: the cursor and the slot it
stored are as before. -/
def Obligations.LpushOutOfRangeRaisesEmodrange : Prop :=
  ∀ (s : State) (ls : Lines) (l : LineName) (x : F), s.running ls → s.inv = true → (ls.get l).n ≠ 0 →
    (ls.get l).moden = true →
    (∀ c d e f : Ctx, c.cfg = s.cfg → d.cfg = s.cfg → e.cfg = s.cfg → f.cfg = s.cfg →
      let off := Fp.mul e (Fp.sin f (Fp.add c (ls.get l).phase (Fp.mul d s.cfg.twoPi (ls.get l).freq))) (ls.get l).ext
      ∀ exc, (match s.cfg.excSplit with
        | .floor => Fp.floor? s.cfg.numFmt off
        | .trunc => Fp.trunc? s.cfg.numFmt off) = some exc → exc < -(2 ^ 31 : Int) ∨ (2 ^ 31 : Int) ≤ exc) →
    exec (.lpush l x) s = .next { s with
      fault := some .emodrange
      out := ⟨0x00000603#32, []⟩ :: s.out
      draws := s.draws + 1 }

/-- 40_delay_line.md R106 to R109, R115: LOUT of a line with a length reads the taps t1 at (W + OFF + EXC) mod N and t2 one
slot on. MODE 0 or FRAC = 0 returns t1, MODE 1 the linear blend, and neither changes anything; MODE 2 returns the
all-pass output and stores it in APS alone. -/
def Obligations.LoutReadsByMode : Prop :=
  ∀ (s : State) (ls : Lines) (l : LineName), s.running ls → s.inv = true → (ls.get l).n ≠ 0 →
    let fmt := s.cfg.numFmt
    let ln := ls.get l
    let slot (k : Int) : F := Slots.read ln.buf (((ln.w : Int) + ln.off + ln.exc + k) % ln.n).toNat
    let t1 := slot 0
    let t2 := slot 1
    (ln.mode = .none ∨ Fp.eq fmt ln.frac Fp.zero = true → exec (.lout l) s = .next (s.respond s.status [t1])) ∧
    (ln.mode = .linear → Fp.eq fmt ln.frac Fp.zero = false →
      ∃ c d e : Ctx, c.cfg = s.cfg ∧ d.cfg = s.cfg ∧ e.cfg = s.cfg ∧
        exec (.lout l) s = .next (s.respond s.status [Fp.add c t1 (Fp.mul d ln.frac (Fp.sub e t2 t1))])) ∧
    (ln.mode = .allpass → Fp.eq fmt ln.frac Fp.zero = false →
      ∃ (c d e f : Ctx) (y : F), c.cfg = s.cfg ∧ d.cfg = s.cfg ∧ e.cfg = s.cfg ∧ f.cfg = s.cfg ∧
        y = Fp.add c t2 (Fp.mul d (Fp.apcoef e ln.frac) (Fp.sub f t1 ln.aps)) ∧
        exec (.lout l) s = .next ((s.withLine ls l { ln with aps := y }).respond s.status [y]))

/-- 40_delay_line.md R110: TapAt raises ELINEUNSET on a line with N = 0; on a line with a length it returns the slot
(W - k) mod N for every k, whatever the line's modulation and interpolation. LTAP (R116) returns that and changes
nothing. -/
def Obligations.TapAtReadsTheHistoricalSlot : Prop :=
  (∀ (ln : Line) (k : Nat), ln.n = 0 → ln.tapAt k = .error (.raise .elineunset)) ∧
  ∀ (s : State) (ls : Lines) (l : LineName), s.running ls → s.inv = true → (ls.get l).n ≠ 0 →
    let ln := ls.get l
    let tap (k : Nat) : F := Slots.read ln.buf (((ln.w : Int) - k) % ln.n).toNat
    (∀ k : Nat, ln.tapAt k = .ok (tap k)) ∧
      ∀ k : Word, exec (.ltap l k) s = .next (s.respond s.status [tap k.toNat])

/-- 40_delay_line.md R112 (a), (b): on a line with a length, no modulation and no feedback, after any pushes in a row
LTAP k returns the k-th latest sample, for k from 1 up to the lesser of their number and N; a tap up to N older than the
first push returns that slot's contents from before the pushes; LTAP 0 equals LTAP N; and with EXC = 0 and MODE = 0 or
FRAC = 0, LOUT returns the OFF-th latest sample, if as many were pushed: a push-then-read delay of OFF - 1. -/
def Obligations.TapsAndOutputReturnPastSamples : Prop :=
  ∀ (s : State) (ls : Lines) (l : LineName) (xs : List F), s.running ls → s.inv = true → (ls.get l).n ≠ 0 →
    (ls.get l).moden = false → Fp.eq s.cfg.numFmt (ls.get l).fb Fp.zero = true →
    ∃ t : State, execAll (xs.map fun x => .lpush l x) s = .next t ∧
      (∀ (k : Word) (x : F), 1 ≤ k.toNat → k.toNat ≤ (ls.get l).n → k.toNat ≤ xs.length →
        xs[xs.length - k.toNat]? = some x → exec (.ltap l k) t = .next (t.respond t.status [x])) ∧
      (∀ k : Word, xs.length < k.toNat → k.toNat ≤ (ls.get l).n →
        exec (.ltap l k) t = .next (t.respond t.status
          [Slots.read (ls.get l).buf (((ls.get l).w + xs.length - k.toNat : Int) % (ls.get l).n).toNat])) ∧
      (∀ (k : Word) (v : F), k.toNat = (ls.get l).n →
        (exec (.ltap l k) t = .next (t.respond t.status [v]) ↔ exec (.ltap l 0#32) t = .next (t.respond t.status [v]))) ∧
      ((ls.get l).mode = .none ∨ Fp.eq s.cfg.numFmt (ls.get l).frac Fp.zero = true → (ls.get l).exc = 0 →
        ∀ x, (ls.get l).off ≤ xs.length → xs[xs.length - (ls.get l).off]? = some x → exec (.lout l) t = .next (t.respond t.status [x]))

/-- 41_diffusion.md R140, R142: LDIFF of a line with a length, whose modulation is off or in range, reads the current
output y, pushes z = x - (y × c) into the line so read, and returns y + (z × c); no other line and no register
changes. -/
def Obligations.LdiffReadsThenPushes : Prop :=
  ∀ (s : State) (ls : Lines) (l : LineName) (x coefficient : F), s.running ls → s.inv = true → (ls.get l).n ≠ 0 →
    (ls.get l).modulationInRange s.cfg →
    ∃ (c d e f g h : Ctx) (y z : F) (read pushed : Line), c.cfg = s.cfg ∧ d.cfg = s.cfg ∧ e.cfg = s.cfg ∧
      f.cfg = s.cfg ∧ g.cfg = s.cfg ∧ h.cfg = s.cfg ∧ (ls.get l).currentOutput c = .ok (y, read) ∧
      z = Fp.sub d x (Fp.mul e y coefficient) ∧ read.push f z = .ok pushed ∧
      exec (.ldiff l x coefficient) s =
        .next ((s.withLine ls l pushed).respond s.status [Fp.add g y (Fp.mul h z coefficient)])

/-- 40_delay_line.md R117 to R120: LMODE, LFB, LMOD and LMODEN store their operands in MODE, FB, FREQ and EXT, and MODEN of
the line, and change nothing else. -/
def Obligations.LineSettingsStoreTheirOperands : Prop :=
  ∀ (s : State) (ls : Lines) (l : LineName) (v w : F), s.running ls →
    exec (.lmode l 0#32) s = .next ((s.withLine ls l { ls.get l with mode := .none }).respond s.status []) ∧
    exec (.lmode l 1#32) s = .next ((s.withLine ls l { ls.get l with mode := .linear }).respond s.status []) ∧
    exec (.lmode l 2#32) s = .next ((s.withLine ls l { ls.get l with mode := .allpass }).respond s.status []) ∧
    exec (.lfb l v) s = .next ((s.withLine ls l { ls.get l with fb := v }).respond s.status []) ∧
    exec (.lmod l v w) s = .next ((s.withLine ls l { ls.get l with freq := v, ext := w }).respond s.status []) ∧
    exec (.lmoden l 0#32) s = .next ((s.withLine ls l { ls.get l with moden := false }).respond s.status []) ∧
    exec (.lmoden l 1#32) s = .next ((s.withLine ls l { ls.get l with moden := true }).respond s.status [])

/-- 20_memory.md R61, R67, 40_delay_line.md section 3: a line access command on line l changes no other line and no
block-level register. LPUSH and LDIFF change no slot but that at the write cursor, in every state whose storage of the
line is canonical; LOUT, LTAP, LMODE, LFB, LMOD and LMODEN change no slot. -/
def Obligations.LineCommandsTouchOneLine : Prop :=
  ∀ (s t : State) (ls : Lines) (l : LineName) (x y : F) (k : Word), s.lines = some ls →
    ∀ i ∈ [Instr.lsetlen l x, .lpush l x, .lout l, .ltap l k, .ldiff l x y, .lmode l k, .lfb l x, .lmod l x y,
        .lmoden l k], exec i s = .next t →
      ∃ ls', t.lines = some ls' ∧ (∀ l', l' ≠ l → ls'.get l' = ls.get l') ∧
        t.sr = s.sr ∧ t.bw = s.bw ∧ t.damp = s.damp ∧ t.decay = s.decay ∧ t.dd1 = s.dd1 ∧ t.dd2 = s.dd2 ∧
        t.id1 = s.id1 ∧ t.id2 = s.id2 ∧ t.wet = s.wet ∧ t.dry = s.dry ∧ t.lpbw = s.lpbw ∧ t.lpa = s.lpa ∧
        t.lpb = s.lpb ∧ t.ratio = s.ratio ∧
        (i.opcode ∈ [.lout, .ltap, .lmode, .lfb, .lmod, .lmoden] → (ls'.get l).buf = (ls.get l).buf) ∧
        (i.opcode ∈ [.lpush, .ldiff] → Slots.wf (ls.get l).buf = true → ∀ a, a ≠ (ls.get l).w →
          Slots.read (ls'.get l).buf a = Slots.read (ls.get l).buf a)

/-! ## The network -/

/-- 42_network.md R150, 44_buffer_mix.md R200, R201: FRAME, PMONO and PSTEREO raise ELINEUNSET, before any step, while some
line has N = 0; only STATUS changes. -/
def Obligations.FrameNeedsEveryLength : Prop :=
  ∀ (s : State) (ls : Lines) (left right : F), s.running ls → (∃ l, (ls.get l).n = 0) →
    ∀ i ∈ [Instr.frame left right, .pmono left, .pstereo left right],
      exec i s = .next { s with
        fault := some .elineunset
        out := ⟨0x00000403#32, []⟩ :: s.out
        draws := s.draws + 1 }

/-- 42_network.md R151 to R159: on a network in which every line has a length and its modulation is off or in range,
FRAME completes, and its next state is that of the steps in the order the rules give them: downmix, predelay, bandwidth
low-pass, four diffusers, both tank seeds, tank A, tank B, and the two tap sums, read after every push. Every
arithmetic expression is written out here; the line procedures are Push, CurrentOutput and Diffuse among the lines. Under
TAP_SCALE = scaled a tap sum reads an offset that is not finite at a free slot, and a negative one by TapAt's formula
(entry 16). -/
def Obligations.FramePerformsItsStepsInOrder : Prop :=
  ∀ (s : State) (ls : Lines) (left right : F), s.running ls → s.inv = true → (∀ l, (ls.get l).n ≠ 0) →
    (∀ l, (ls.get l).modulationInRange s.cfg) →
    let fmt := s.cfg.numFmt
    let one := Fp.lit fmt 1 1
    let any (c : Ctx) : Prop := c.cfg = s.cfg
    let push (a : Lines) (l : LineName) (v : F) (b : Lines) : Prop := ∃ c, any c ∧ a.push c l v = .ok b
    let read (a : Lines) (l : LineName) (v : F) (b : Lines) : Prop := ∃ c, any c ∧ a.currentOutput c l = .ok (v, b)
    let diffuse (a : Lines) (l : LineName) (x k v : F) (b : Lines) : Prop := ∃ c, any c ∧ a.diffuse c l x k = .ok (v, b)
    let damped (b lp v : F) : Prop := ∃ c d e f, any c ∧ any d ∧ any e ∧ any f ∧
      v = Fp.add c (Fp.mul d (Fp.sub e one s.damp) b) (Fp.mul f s.damp lp)
    let seeded (o x v : F) : Prop := ∃ c d, any c ∧ any d ∧ v = Fp.add c (Fp.mul d s.decay o) x
    let scaled (x v : F) : Prop := ∃ c, any c ∧ v = Fp.mul c s.decay x
    let sums (rows : List TapRow) (a : Lines) (v : F) : Prop := ∃ c, any c ∧ tapSum c s.ratio a rows Fp.zero = .ok v
    ∃ (x0 u x1 x2 x3 x4 x5 o9 p o8 q a b lpa k d a' b' lpb k' d' wl wr : F)
      (l1 l2 l3 l4 l5 l6 l7 l8 l9 m1 m2 m3 m4 n1 n2 n3 n4 n5 : Lines),
      (∃ c d, any c ∧ any d ∧ x0 = Fp.div c (Fp.add d left right) (Fp.lit fmt 2 1)) ∧
      push ls .pre x0 l1 ∧ read l1 .pre u l2 ∧
      (∃ c d e f, any c ∧ any d ∧ any e ∧ any f ∧
        x1 = Fp.add c (Fp.mul d s.bw u) (Fp.mul e (Fp.sub f one s.bw) s.lpbw)) ∧
      diffuse l2 .in0 x1 s.id1 x2 l3 ∧ diffuse l3 .in1 x2 s.id1 x3 l4 ∧ diffuse l4 .in2 x3 s.id2 x4 l5 ∧
      diffuse l5 .in3 x4 s.id2 x5 l6 ∧
      read l6 .rcb o9 l7 ∧ seeded o9 x5 p ∧ read l7 .rca o8 l8 ∧ seeded o8 x5 q ∧
      diffuse l8 .moda p s.dd1 a l9 ∧ push l9 .dla a m1 ∧ read m1 .dla b m2 ∧ damped b s.lpa lpa ∧ scaled lpa k ∧
      diffuse m2 .difa k s.dd2 d m3 ∧ push m3 .rca d m4 ∧
      diffuse m4 .modb q s.dd1 a' n1 ∧ push n1 .dlb a' n2 ∧ read n2 .dlb b' n3 ∧ damped b' s.lpb lpb ∧ scaled lpb k' ∧
      diffuse n3 .difb k' s.dd2 d' n4 ∧ push n4 .rcb d' n5 ∧
      sums s.cfg.tapsLeft n5 wl ∧ sums s.cfg.tapsRight n5 wr ∧
      exec (.frame left right) s =
        .next (({ s with lpbw := x1, lpa := lpa, lpb := lpb, lines := some n5 } : State).respond s.status [wl, wr])

/-- 42_network.md R159, R162: the tap sum of a list of rows on lines that all have a length is the sum, from the
accumulator, of fl(0.6) times the tap at each row's offset, added or subtracted by its sign, in table order. The offset is
k with TAP_SCALE = fixed and floor(toF(k) × RATIO) with TAP_SCALE = scaled. The rule gives no offset where that product is
not finite: there the offset is free, and a negative one goes through TapAt's formula (entry 16, the model's choice). -/
def Obligations.TapSumAddsWeightedTapsInOrder : Prop :=
  ∀ (c : Ctx) (ratio acc : F) (ls : Lines), ls.wf c.cfg = true → (∀ l, (ls.get l).n ≠ 0) →
    let fmt := c.cfg.numFmt
    let isOffset (k : Nat) (z : Int) : Prop :=
      match c.cfg.tapScale with
      | .fixed => z = k
      | .scaled => ∃ d : Ctx, d.cfg = c.cfg ∧ ∀ w, Fp.floor? fmt (Fp.mul d (Fp.ofInt fmt k) ratio) = some w → z = w
    tapSum c ratio ls [] acc = .ok acc ∧
    ∀ (row : TapRow) (rest : List TapRow),
      let ln := ls.get row.line
      ∃ (d e f : Ctx) (offset : Int), d.cfg = c.cfg ∧ e.cfg = c.cfg ∧ f.cfg = c.cfg ∧ isOffset row.offset offset ∧
        let tap := Slots.read ln.buf (((ln.w : Int) - offset) % ln.n).toNat
        tapSum c ratio ls (row :: rest) acc = tapSum f ratio ls rest
          (if row.negative then Fp.sub d acc (Fp.mul e (Fp.lit fmt 6 10) tap)
           else Fp.add d acc (Fp.mul e (Fp.lit fmt 6 10) tap))

/-- 42_network.md R160, 10_state.md R24: a FRAME, PMONO or PSTEREO that sets no fault pushes every line exactly once: every
write cursor advances by one, no slot changes but that at the old cursor, no setting of a line changes, PHASE and EXC
change only on lines with MODEN = 1 and APS only on lines with MODE = 2; and of the block-level registers only LPBW, LPA
and LPB may change. -/
def Obligations.FramePushesEveryLineOnce : Prop :=
  ∀ (s t : State) (ls : Lines) (left right : F), s.running ls → s.inv = true →
    ∀ i ∈ [Instr.frame left right, .pmono left, .pstereo left right], exec i s = .next t → t.fault = none →
      ∃ ls', t.lines = some ls' ∧
        (∀ l, (ls'.get l).w = ((ls.get l).w + 1) % (ls.get l).n ∧ (ls'.get l).sameSettings (ls.get l) ∧
          (∀ a, a ≠ (ls.get l).w → Slots.read (ls'.get l).buf a = Slots.read (ls.get l).buf a) ∧
          ((ls.get l).moden = false → (ls'.get l).phase = (ls.get l).phase ∧ (ls'.get l).exc = (ls.get l).exc ∧
            (ls'.get l).frac = (ls.get l).frac) ∧
          ((ls.get l).mode ≠ .allpass → (ls'.get l).aps = (ls.get l).aps)) ∧
        t.sr = s.sr ∧ t.bw = s.bw ∧ t.damp = s.damp ∧ t.decay = s.decay ∧ t.dd1 = s.dd1 ∧ t.dd2 = s.dd2 ∧
        t.id1 = s.id1 ∧ t.id2 = s.id2 ∧ t.wet = s.wet ∧ t.dry = s.dry ∧ t.ratio = s.ratio

/-- 44_buffer_mix.md R200, R201: on a network that can perform a frame, PMONO performs that of (x, x) and returns
(DRY × x) + (WET × wetLeft); PSTEREO performs that of (l, r) and mixes each channel with its own wet output. The state
each leaves is the one FRAME leaves; that its free NaNs are the same ones too is the model's choice of the place of a
draw (entry 3). -/
def Obligations.MixCommandsPerformAFrameAndMix : Prop :=
  ∀ (s : State) (ls : Lines) (left right : F), s.running ls → s.inv = true → (∀ l, (ls.get l).n ≠ 0) →
    (∀ l, (ls.get l).modulationInRange s.cfg) →
    let mixed (x w y : F) : Prop := ∃ c d e : Ctx, c.cfg = s.cfg ∧ d.cfg = s.cfg ∧ e.cfg = s.cfg ∧
      y = Fp.add c (Fp.mul d s.dry x) (Fp.mul e s.wet w)
    (∃ (t : State) (wl wr y : F), exec (.frame left left) s = .next (t.respond s.status [wl, wr]) ∧ mixed left wl y ∧
      exec (.pmono left) s = .next (t.respond s.status [y])) ∧
    (∃ (t : State) (wl wr yl yr : F), exec (.frame left right) s = .next (t.respond s.status [wl, wr]) ∧
      mixed left wl yl ∧ mixed right wr yr ∧ exec (.pstereo left right) s = .next (t.respond s.status [yl, yr]))

/-- 42_network.md R164: once every line has a length, the only fault a FRAME can raise is EMODRANGE, and then the state is
that before the command but for STATUS: every step made so far is undone. -/
def Obligations.FrameFaultUndoesEveryStep : Prop :=
  ∀ (s t : State) (ls : Lines) (left right : F), s.running ls → s.inv = true → (∀ l, (ls.get l).n ≠ 0) →
    exec (.frame left right) s = .next t → t.fault ≠ none →
    t = { s with
      fault := some .emodrange
      out := ⟨0x00000603#32, []⟩ :: s.out
      draws := s.draws + 1 }

/-! ## Invariants -/

/-- 10_state.md R28 (a), (b), (d), (e), R27, 00_scope.md R10: every step keeps the line invariants, from any state that meets
them, whatever the port holds. -/
def Obligations.EveryStepKeepsTheLineInvariants : Prop :=
  ∀ s t : State, s.inv = true → step s = .next t → t.inv = true

/-- 00_scope.md R4 ("unconditionally completing"): from any state that meets the invariants, a step answers a next state,
whatever the port holds: no slot outside a line's storage is ever reached (00_scope.md R14). -/
def Obligations.EveryStepCompletes : Prop :=
  ∀ s : State, s.inv = true → ∃ t, step s = .next t

/-- 10_state.md R23, R26 (LSR), 70_reset_and_hazards.md R271: every step keeps it true that, with a network, SR is not 0
and is the LSR of every line, and that, without one, every register is 0. -/
def Obligations.EveryStepKeepsTheRatesInAgreement : Prop :=
  ∀ s t : State, s.ratesAgree = true → step s = .next t → t.ratesAgree = true

/-- 10_state.md R28 (c): CAP of a line never decreases while its network exists: under every command but INIT. -/
def Obligations.CapacityNeverDecreases : Prop :=
  ∀ (i : Instr) (s t : State) (ls ls' : Lines), (∀ sr, i ≠ .init sr) → s.lines = some ls → exec i s = .next t →
    t.lines = some ls' → ∀ l, (ls.get l).cap ≤ (ls'.get l).cap

/-- 10_state.md R24: while the network stays, SR is changed by INIT alone, LPBW, LPA and LPB by FRAME, PMONO, PSTEREO and
INIT alone, each coefficient or gain by its own SETP and INIT alone; DEINIT ends the network. -/
def Obligations.RegistersAreWrittenByTheirCommands : Prop :=
  ∀ (i : Instr) (s t : State), (∀ sr, i ≠ .init sr) → i ≠ .deinit → exec i s = .next t →
    t.sr = s.sr ∧ (i.opcode ∉ [.frame, .pmono, .pstereo] → t.lpbw = s.lpbw ∧ t.lpa = s.lpa ∧ t.lpb = s.lpb) ∧
    (t.bw ≠ s.bw → ∃ v, i = .setpBandwidth v) ∧ (t.damp ≠ s.damp → ∃ v, i = .setpDamping v) ∧
    (t.decay ≠ s.decay → ∃ v, i = .setpDecay v) ∧ (t.dd1 ≠ s.dd1 → ∃ v, i = .setpDiffusion1 v) ∧
    (t.dd2 ≠ s.dd2 → ∃ v, i = .setpDiffusion2 v) ∧ (t.id1 ≠ s.id1 → ∃ v, i = .setpIndiff1 v) ∧
    (t.id2 ≠ s.id2 → ∃ v, i = .setpIndiff2 v) ∧ (t.wet ≠ s.wet → ∃ v, i = .setpWet v) ∧
    (t.dry ≠ s.dry → ∃ v, i = .setpDry v) ∧ (t.ratio ≠ s.ratio → ∃ v, i = .setpSize v)

/-- 45_control.md section 4, 60_exceptions.md R245: NOP, RDREG, LRD and LRDBUF change no line, no register and no
configuration, in any state, faulting or not. -/
def Obligations.ObservationChangesNoState : Prop :=
  ∀ (i : Instr) (s t : State), i.opcode ∈ [.nop, .rdreg, .lrd, .lrdbuf] → exec i s = .next t →
    { t with out := s.out, draws := s.draws, fault := s.fault } = s ∧ (s.fault ≠ none → t.fault = s.fault)

/-! ## F arithmetic -/

/-- 00_scope.md R11: rounding is to nearest, ties to even, overflow to infinity. For a sign and the magnitude n / d in
units of the format, the rounded value has that sign, also where it is a zero; it is infinite exactly from half a step
above the largest finite magnitude on; else it is finite, no finite magnitude is nearer to n / d, and where another is as
near the encoding chosen is even. -/
def Obligations.RoundingIsToNearestEven : Prop :=
  ∀ (fmt : NumFmt) (negative : Bool) (n d : Nat), 0 < d →
    let x := Fp.round fmt negative n d
    let far (m : Nat) : Nat := ((m * d : Int) - n).natAbs
    (Fp.unpack fmt x = .inf negative ↔ d * ((2 ^ (Fp.fracBits fmt + 2) - 1) * 2 ^ (Fp.expMax fmt - 2)) ≤ 2 * n) ∧
    (Fp.unpack fmt x = .inf negative ∨ ∃ m, Fp.unpack fmt x = .fin negative m ∧
      ∀ (y : F) (m' : Nat), Fp.unpack fmt y = .fin negative m' →
        far m ≤ far m' ∧ (far m = far m' → m ≠ m' → x.toNat % 2 = 0))

/-- 00_scope.md R11: the sum, difference, product and quotient of finite values are the exact results, rounded once. The
exact result is a signed whole number of units over `d`; for a sum or a difference, that zero result has a minus sign only
when both terms have one. With an infinite operand, or a zero divisor, the result is the infinity, zero or NaN of
IEEE 754. -/
def Obligations.ArithmeticRoundsTheExactResult : Prop :=
  ∀ (c : Ctx) (a b : F) (sa sb : Bool),
    let signed (neg : Bool) (k : Nat) : Int := if neg then -(k : Int) else k
    let isSum (v : F) (x y : Int) (sx sy : Bool) : Prop :=
      v = Fp.round c.fmt (if x + y = 0 then sx && sy else decide (x + y < 0)) (x + y).natAbs 1
    let finite (v : F) (neg : Bool) (k : Nat) : Prop := Fp.unpack c.fmt v = .fin neg k
    let infinite (v : F) (neg : Bool) : Prop := Fp.unpack c.fmt v = .inf neg
    let nan (v : F) : Prop := Fp.unpack c.fmt v = .nan
    (∀ m n : Nat, finite a sa m → finite b sb n →
      isSum (Fp.add c a b) (signed sa m) (signed sb n) sa sb ∧
      isSum (Fp.sub c a b) (signed sa m) (signed (!sb) n) sa (!sb) ∧
      Fp.mul c a b = Fp.round c.fmt (sa != sb) (m * n) (Fp.one c.fmt) ∧
      (n ≠ 0 → Fp.div c a b = Fp.round c.fmt (sa != sb) (m * Fp.one c.fmt) n) ∧
      (n = 0 → m ≠ 0 → infinite (Fp.div c a b) (sa != sb)) ∧ (n = 0 → m = 0 → nan (Fp.div c a b))) ∧
    (∀ n : Nat, infinite a sa → finite b sb n →
      infinite (Fp.add c a b) sa ∧ infinite (Fp.sub c a b) sa ∧
      (n ≠ 0 → infinite (Fp.mul c a b) (sa != sb)) ∧ (n = 0 → nan (Fp.mul c a b)) ∧ infinite (Fp.div c a b) (sa != sb)) ∧
    (∀ m : Nat, finite a sa m → infinite b sb →
      infinite (Fp.add c a b) sb ∧ infinite (Fp.sub c a b) (!sb) ∧
      (m ≠ 0 → infinite (Fp.mul c a b) (sa != sb)) ∧ (m = 0 → nan (Fp.mul c a b)) ∧ finite (Fp.div c a b) (sa != sb) 0) ∧
    (infinite a sa → infinite b sb →
      (sa = sb → infinite (Fp.add c a b) sa ∧ nan (Fp.sub c a b)) ∧
      (sa ≠ sb → nan (Fp.add c a b) ∧ infinite (Fp.sub c a b) sa) ∧
      infinite (Fp.mul c a b) (sa != sb) ∧ nan (Fp.div c a b))

/-- 00_scope.md R11, 60_exceptions.md R240: an operation on a NaN gives a NaN, that which the draw of its place picks, and
the picks are exactly the NaNs of the format: any of them may result (the draw's form is entry 3); every comparison with a
NaN is false; -0 equals +0. -/
def Obligations.NanPropagatesAndComparesFalse : Prop :=
  (∀ (c : Ctx) (a b : F), (Fp.unpack c.fmt a = .nan ∨ Fp.unpack c.fmt b = .nan) →
    (∀ v ∈ [Fp.add c a b, Fp.sub c a b, Fp.mul c a b, Fp.div c a b],
      Fp.unpack c.fmt v = .nan ∧ v = Fp.nanOf c.fmt c.draw) ∧
    Fp.lt c.fmt a b = false ∧ Fp.eq c.fmt a b = false) ∧
  (∀ (fmt : NumFmt) (y : F), fmt.fits y = true → (Fp.unpack fmt y = .nan ↔ ∃ bits, y = Fp.nanOf fmt bits)) ∧
  ∀ (fmt : NumFmt) (a b : F) (sa sb : Bool), Fp.unpack fmt a = .fin sa 0 → Fp.unpack fmt b = .fin sb 0 →
    Fp.eq fmt a b = true ∧ Fp.lt fmt a b = false

/-! ## Modulation out of range -/

/-- 40_delay_line.md R104, 41_diffusion.md R142, 42_network.md R163, R164, 44_buffer_mix.md R200, R201: LDIFF of a line
with a length and MODEN = 1 whose offset is never finite, or never has an integer part in [-2^31, 2^31), raises EMODRANGE;
so do FRAME, PMONO and PSTEREO when every line has a length and some line, MODA and MODB among them, is such a line. Only
STATUS changes: no push, cursor, APS or low-pass state stays. -/
def Obligations.OutOfRangeModulationFaultsDiffusionAndFrames : Prop :=
  ∀ (s : State) (ls : Lines), s.running ls → s.inv = true →
    let outOfRange (ln : Line) : Prop := ln.n ≠ 0 ∧ ln.moden = true ∧
      ∀ c d e f : Ctx, c.cfg = s.cfg → d.cfg = s.cfg → e.cfg = s.cfg → f.cfg = s.cfg →
        let off := Fp.mul e (Fp.sin f (Fp.add c ln.phase (Fp.mul d s.cfg.twoPi ln.freq))) ln.ext
        ∀ exc, (match s.cfg.excSplit with
          | .floor => Fp.floor? s.cfg.numFmt off
          | .trunc => Fp.trunc? s.cfg.numFmt off) = some exc → exc < -(2 ^ 31 : Int) ∨ (2 ^ 31 : Int) ≤ exc
    let faulted : State := { s with
      fault := some .emodrange
      out := ⟨0x00000603#32, []⟩ :: s.out
      draws := s.draws + 1 }
    (∀ (l : LineName) (x coefficient : F), outOfRange (ls.get l) → exec (.ldiff l x coefficient) s = .next faulted) ∧
    ∀ left right : F, (∀ l, (ls.get l).n ≠ 0) → (∃ l, outOfRange (ls.get l)) →
      ∀ i ∈ [Instr.frame left right, .pmono left, .pstereo left right], exec i s = .next faulted
end

