-- ==== Sys2Proof/Laws/Fp.lean ====
section
/-! SUPPORT. F values: what the length guard, floor and ceil say about a length (40_delay_line.md R100 to R102). -/

namespace Sys2Proof.Machine

theorem Fp.one_pos (fmt : NumFmt) : 0 < Fp.one fmt := Nat.two_pow_pos _

/-- The literal 2 is two times 1.0, in units. -/
theorem Fp.orderKey_two (fmt : NumFmt) : Fp.orderKey fmt (Fp.lit fmt 2 1) = some (2 * (Fp.one fmt : Int)) := by
  cases fmt <;> decide +kernel

/-- The magnitude of an infinity in the comparison order is above twice 1.0. -/
theorem Fp.two_lt_infinity (fmt : NumFmt) : 2 * (Fp.one fmt : Int) < 2 ^ (2 ^ Fp.expBits fmt + Fp.fracBits fmt) := by
  cases fmt <;> decide +kernel

/-- A length passes the guard exactly when it is +infinity or finite and above 2 (R100). -/
theorem lengthGuard_iff (fmt : NumFmt) (len : F) :
    lengthGuard fmt len = true ↔
      Fp.unpack fmt len = .inf false ∨ ∃ m, Fp.unpack fmt len = .fin false m ∧ 2 * Fp.one fmt < m := by
  have hinf := Fp.two_lt_infinity fmt
  have hone : (0 : Int) < Fp.one fmt := by exact_mod_cast Fp.one_pos fmt
  unfold lengthGuard Fp.lt
  rw [Fp.orderKey_two]
  unfold Fp.orderKey
  cases h : Fp.unpack fmt len with
  | nan => simp
  | inf neg => cases neg <;> simp <;> omega
  | fin neg m =>
    cases neg with
    | false => simp; omega
    | true => simp; omega

/-- A finite length that passes the guard: its floor is at least 2, its ceil at least its floor. -/
theorem lengthGuard_finite {fmt : NumFmt} {len : F} (hg : lengthGuard fmt len = true) {need : Nat} {whole : Int}
    (hn : slotsNeeded fmt len = some need) (hw : Fp.floor? fmt len = some whole) :
    ∃ m, Fp.unpack fmt len = .fin false m ∧ whole = (m / Fp.one fmt : Nat) ∧ 2 ≤ m / Fp.one fmt ∧
      2 * (m / Fp.one fmt) + 1 ≤ need := by
  rcases (lengthGuard_iff fmt len).1 hg with h | ⟨m, h, hm⟩
  · simp [Fp.floor?, h] at hw
  · refine ⟨m, h, ?_, ?_, ?_⟩
    · simpa [Fp.floor?, h] using hw.symm
    · exact (Nat.le_div_iff_mul_le (Fp.one_pos fmt)).2 (Nat.le_of_lt hm)
    · have hc : Fp.ceil? fmt len = some (-(-(m : Int) / (Fp.one fmt : Int))) := by simp [Fp.ceil?, h]
      have hneed : need = 2 * (-(-(m : Int) / (Fp.one fmt : Int))).toNat + 1 := by
        simpa [slotsNeeded, hc] using hn.symm
      have hone : (0 : Int) < Fp.one fmt := by exact_mod_cast Fp.one_pos fmt
      have hle : ((m / Fp.one fmt : Nat) : Int) ≤ -(-(m : Int) / (Fp.one fmt : Int)) := by
        have h1 : ((m / Fp.one fmt : Nat) : Int) * Fp.one fmt ≤ m := by exact_mod_cast Nat.div_mul_le_self m _
        have h2 : -(m : Int) / (Fp.one fmt : Int) ≤ -((m / Fp.one fmt : Nat) : Int) := by
          apply Int.ediv_le_of_le_mul hone
          rw [Int.neg_mul]
          omega
        omega
      omega

variable {c d : Ctx} {a b : F}

/-! ## Where the free values do not matter -/

/-- A sum of finite values does not depend on the place it is computed at. -/
theorem Fp.add_place (h : c.cfg = d.cfg) (ha : Fp.isFinite d.fmt a = true) (hb : Fp.isFinite d.fmt b = true) :
    Fp.add c a b = Fp.add d a b := by
  have hf : c.fmt = d.fmt := by simp [Ctx.fmt, h]
  unfold Fp.isFinite at ha hb
  unfold Fp.add
  rw [hf]
  cases ua : Fp.unpack d.fmt a <;> cases ub : Fp.unpack d.fmt b <;> simp_all

theorem Fp.sub_place (h : c.cfg = d.cfg) (ha : Fp.isFinite d.fmt a = true) (hb : Fp.isFinite d.fmt b = true) :
    Fp.sub c a b = Fp.sub d a b := by
  have hf : c.fmt = d.fmt := by simp [Ctx.fmt, h]
  unfold Fp.isFinite at ha hb
  unfold Fp.sub
  rw [hf]
  cases ua : Fp.unpack d.fmt a <;> cases ub : Fp.unpack d.fmt b <;> simp_all

theorem Fp.mul_place (h : c.cfg = d.cfg) (ha : Fp.isFinite d.fmt a = true) (hb : Fp.isFinite d.fmt b = true) :
    Fp.mul c a b = Fp.mul d a b := by
  have hf : c.fmt = d.fmt := by simp [Ctx.fmt, h]
  unfold Fp.isFinite at ha hb
  unfold Fp.mul
  rw [hf]
  cases ua : Fp.unpack d.fmt a <;> cases ub : Fp.unpack d.fmt b <;> simp_all

theorem Fp.div_place (h : c.cfg = d.cfg) (ha : Fp.isFinite d.fmt a = true) (hb : Fp.isFinite d.fmt b = true)
    (h0 : Fp.eq d.fmt b Fp.zero = false) : Fp.div c a b = Fp.div d a b := by
  have hf : c.fmt = d.fmt := by simp [Ctx.fmt, h]
  have hz : Fp.orderKey d.fmt Fp.zero = some 0 := by cases d.fmt <;> decide
  unfold Fp.isFinite at ha hb
  unfold Fp.eq at h0
  rw [hz] at h0
  unfold Fp.orderKey at h0
  unfold Fp.div
  rw [hf]
  cases ua : Fp.unpack d.fmt a <;> cases ub : Fp.unpack d.fmt b <;> simp_all
  rename_i sb n
  have hn : n ≠ 0 := by rintro rfl; cases sb <;> simp at h0
  simp [hn]

/-! ## Infinities, signed zeros and NaNs -/

@[simp] theorem Fp.unpack_infinity (fmt : NumFmt) (negative : Bool) :
    Fp.unpack fmt (Fp.infinity fmt negative) = .inf negative := by
  cases fmt <;> cases negative <;> decide +kernel

@[simp] theorem Fp.unpack_signedZero (fmt : NumFmt) (negative : Bool) :
    Fp.unpack fmt (Fp.withSign fmt negative 0) = .fin negative 0 := by
  cases fmt <;> cases negative <;> decide +kernel

/-- Every pick of a NaN is a NaN of its format (00_scope.md section 4). -/
theorem Fp.unpack_nanOf (fmt : NumFmt) (bits : BitVec 64) : Fp.unpack fmt (Fp.nanOf fmt bits) = .nan := by
  have key : ∀ (fmt : NumFmt) (neg : Bool) (f : Nat), f ≠ 0 → f < 2 ^ Fp.fracBits fmt →
      Fp.unpack fmt (Fp.withSign fmt neg (Fp.infBits fmt + f)) = .nan := by
    intro fmt neg f h0 h1
    have he : ∀ e g : Nat, e = Fp.expMax fmt → g ≠ 0 → (if e = Fp.expMax fmt then if g = 0 then Fp.Num.inf neg else .nan
        else if e = 0 then .fin neg g else .fin neg ((2 ^ Fp.fracBits fmt + g) * 2 ^ (e - 1))) = .nan := by
      intro e g h2 h3
      simp [h2, h3]
    cases fmt <;> cases neg <;>
      simp only [Fp.unpack, Fp.withSign, Fp.infBits, Fp.expMax, Fp.expBits, Fp.fracBits, Fp.signBit, NumFmt.width,
        BitVec.toNat_ofNat] at h1 ⊢ <;>
      norm_num at h1 ⊢ <;> (try (split_ifs <;> first | rfl | (exfalso; omega)))
  unfold Fp.nanOf
  simp only
  apply key
  · split
    · exact (Nat.two_pow_pos _).ne'
    · assumption
  · split
    · exact Nat.pow_lt_pow_right (by decide) (by cases fmt <;> decide)
    · exact Nat.mod_lt _ (Nat.two_pow_pos _)

/-- NAN_OUT is a NaN of its format, whatever the draw (00_scope.md section 4). -/
theorem Fp.unpack_nanOut (c : Ctx) : Fp.unpack c.fmt (Fp.nanOut c) = .nan := Fp.unpack_nanOf c.fmt c.draw

/-- A product with a NaN has no integer part (00_scope.md R11). -/
theorem Fp.floor_mul_nan {c : Ctx} {a b : F} (h : Fp.unpack c.fmt b = .nan) : Fp.floor? c.fmt (Fp.mul c a b) = none := by
  have hm : Fp.mul c a b = Fp.nanOut c := by
    unfold Fp.mul
    rw [h]
    cases Fp.unpack c.fmt a <;> rfl
  simp [hm, Fp.floor?, Fp.unpack_nanOut]

end Sys2Proof.Machine
end

