-- ==== Sys2Proof/Laws/Slots.lean ====
section
/-! SUPPORT. The sample storage: a read after a write, and the canonical form every storage operation keeps. -/

namespace Sys2Proof.Machine

theorem Slots.risingFrom_mono {a b : Nat} (hab : a ≤ b) :
    ∀ {sl : Slots}, Slots.risingFrom b sl = true → Slots.risingFrom a sl = true
  | [], _ => rfl
  | (x, v) :: rest, h => by
    simp only [Slots.risingFrom, Bool.and_eq_true, decide_eq_true_eq] at h ⊢
    exact ⟨⟨by omega, h.1.2⟩, h.2⟩

/-- Below the first listed slot every slot reads +0. -/
theorem Slots.read_below {b i : Nat} (hi : i < b) :
    ∀ {sl : Slots}, Slots.risingFrom b sl = true → Slots.read sl i = 0#64
  | [], _ => rfl
  | (x, v) :: rest, h => by
    simp only [Slots.risingFrom, Bool.and_eq_true, decide_eq_true_eq] at h
    have h1 : ¬ x = i := by omega
    have h2 : ¬ x < i := by omega
    simp [Slots.read, h1, h2]

theorem Slots.risingFrom_write {b i : Nat} {v : F} (hb : b ≤ i) :
    ∀ {sl : Slots}, Slots.risingFrom b sl = true → Slots.risingFrom b (Slots.write sl i v) = true
  | [], _ => by
    unfold Slots.write
    split <;> simp_all [Slots.risingFrom]
  | (x, y) :: rest, h => by
    simp only [Slots.risingFrom, Bool.and_eq_true, decide_eq_true_eq] at h
    unfold Slots.write
    by_cases h1 : x < i
    · simp only [h1, if_true, Slots.risingFrom, Bool.and_eq_true, decide_eq_true_eq]
      exact ⟨h.1, Slots.risingFrom_write (by omega) h.2⟩
    · simp only [h1, if_false]
      by_cases h2 : x = i
      · subst h2
        by_cases hv : v = 0#64
        · rw [if_pos rfl, if_pos hv]
          exact Slots.risingFrom_mono (by omega) h.2
        · rw [if_pos rfl, if_neg hv]
          simp only [Slots.risingFrom, Bool.and_eq_true, decide_eq_true_eq]
          exact ⟨⟨hb, hv⟩, h.2⟩
      · simp only [h2, if_false]
        by_cases hv : v = 0#64
        · simp only [if_pos hv, Slots.risingFrom, Bool.and_eq_true, decide_eq_true_eq]
          exact h
        · simp only [if_neg hv, Slots.risingFrom, Bool.and_eq_true, decide_eq_true_eq]
          exact ⟨⟨hb, hv⟩, ⟨by omega, h.1.2⟩, h.2⟩

theorem Slots.read_write_same_from {b i : Nat} {v : F} :
    ∀ {sl : Slots}, Slots.risingFrom b sl = true → Slots.read (Slots.write sl i v) i = v
  | [], _ => by
    unfold Slots.write
    split <;> simp_all [Slots.read]
  | (x, y) :: rest, h => by
    simp only [Slots.risingFrom, Bool.and_eq_true, decide_eq_true_eq] at h
    unfold Slots.write
    by_cases h1 : x < i
    · have hne : ¬ x = i := by omega
      simp only [h1, if_true, Slots.read, hne, if_false]
      exact Slots.read_write_same_from h.2
    · simp only [h1, if_false]
      by_cases h2 : x = i
      · subst h2
        by_cases hv : v = 0#64
        · rw [if_pos rfl, if_pos hv, hv]
          exact Slots.read_below (Nat.lt_succ_self _) h.2
        · simp [hv, Slots.read]
      · by_cases hv : v = 0#64
        · simp [h2, h1, hv, Slots.read]
        · simp [h2, hv, Slots.read]

theorem Slots.read_write_other_from {b i j : Nat} {v : F} (hij : j ≠ i) :
    ∀ {sl : Slots}, Slots.risingFrom b sl = true → Slots.read (Slots.write sl i v) j = Slots.read sl j
  | [], _ => by
    unfold Slots.write
    split
    · rfl
    · simp [Slots.read, Ne.symm hij]
  | (x, y) :: rest, h => by
    simp only [Slots.risingFrom, Bool.and_eq_true, decide_eq_true_eq] at h
    unfold Slots.write
    by_cases h1 : x < i
    · simp only [h1, if_true, Slots.read]
      rw [Slots.read_write_other_from hij h.2]
    · simp only [h1, if_false]
      by_cases h2 : x = i
      · subst h2
        have hne : ¬ x = j := fun e => hij e.symm
        by_cases hv : v = 0#64
        · rw [if_pos rfl, if_pos hv]
          simp only [Slots.read, hne, if_false]
          by_cases h3 : x < j
          · simp [h3]
          · simp only [h3, if_false]
            exact Slots.read_below (by omega) h.2
        · simp [hv, Slots.read, hne]
      · by_cases hv : v = 0#64
        · simp [h2, hv]
        · have hne : ¬ i = j := fun e => hij e.symm
          simp only [h2, if_false, if_neg hv]
          rw [Slots.read]
          simp only [hne, if_false]
          by_cases h3 : i < j
          · simp [h3]
          · have h4 : ¬ x = j := by omega
            have h5 : ¬ x < j := by omega
            simp [h3, Slots.read, h4, h5]

/-- A read of the slot just written gives the value written. -/
theorem Slots.read_write_same {sl : Slots} (h : Slots.wf sl = true) (i : Nat) (v : F) :
    Slots.read (Slots.write sl i v) i = v := Slots.read_write_same_from h

/-- A write leaves every other slot alone. -/
theorem Slots.read_write_other {sl : Slots} (h : Slots.wf sl = true) {i j : Nat} (hij : j ≠ i) (v : F) :
    Slots.read (Slots.write sl i v) j = Slots.read sl j := Slots.read_write_other_from hij h

/-- A write keeps the canonical form. -/
theorem Slots.wf_write {sl : Slots} (h : Slots.wf sl = true) (i : Nat) (v : F) :
    Slots.wf (Slots.write sl i v) = true := Slots.risingFrom_write (Nat.zero_le _) h

/-- A fresh storage has the canonical form. -/
@[simp] theorem Slots.wf_nil : Slots.wf [] = true := rfl

@[simp] theorem Slots.below_nil (cap : Nat) : Slots.below cap [] = true := rfl

theorem Slots.below_write {cap i : Nat} {v : F} (hi : i < cap) :
    ∀ {sl : Slots}, Slots.below cap sl = true → Slots.below cap (Slots.write sl i v) = true
  | [], _ => by
    unfold Slots.write
    split <;> simp [Slots.below, hi]
  | (x, y) :: rest, h => by
    have h' : x < cap ∧ Slots.below cap rest = true := by simpa [Slots.below] using h
    unfold Slots.write
    by_cases h1 : x < i
    · have := Slots.below_write (v := v) hi h'.2
      simp only [h1, if_true]
      simpa [Slots.below] using ⟨h'.1, by simpa [Slots.below] using this⟩
    · have h2 := h'.2
      simp only [Slots.below] at h2
      by_cases hx : x = i <;> by_cases hv : v = 0#64 <;> simp [h1, hx, hv, Slots.below, hi, h'.1] <;>
        simpa using h2

theorem Slots.below_mono {a b : Nat} (hab : a ≤ b) {sl : Slots} (h : Slots.below a sl = true) :
    Slots.below b sl = true := by
  simp only [Slots.below, List.all_eq_true, decide_eq_true_eq] at h ⊢
  exact fun e he => Nat.lt_of_lt_of_le (h e he) hab

theorem Slots.risingFrom_zeroFill {lo hi : Nat} :
    ∀ {b : Nat} {sl : Slots}, Slots.risingFrom b sl = true → Slots.risingFrom b (Slots.zeroFill sl lo hi) = true
  | _, [], _ => rfl
  | b, (x, v) :: rest, h => by
    simp only [Slots.risingFrom, Bool.and_eq_true, decide_eq_true_eq] at h
    have ih := Slots.risingFrom_zeroFill (lo := lo) (hi := hi) h.2
    simp only [Slots.zeroFill, List.filter_cons] at ih ⊢
    split
    · simp only [Slots.risingFrom, Bool.and_eq_true, decide_eq_true_eq]
      exact ⟨h.1, ih⟩
    · exact Slots.risingFrom_mono (by omega) ih

/-- Filling with +0 keeps the canonical form. -/
theorem Slots.wf_zeroFill {sl : Slots} (h : Slots.wf sl = true) (lo hi : Nat) :
    Slots.wf (Slots.zeroFill sl lo hi) = true := Slots.risingFrom_zeroFill h

theorem Slots.below_zeroFill {cap lo hi : Nat} {sl : Slots} (h : Slots.below cap sl = true) :
    Slots.below cap (Slots.zeroFill sl lo hi) = true := by
  simp only [Slots.below, Slots.zeroFill, List.all_eq_true, decide_eq_true_eq] at h ⊢
  exact fun e he => h e (List.mem_of_mem_filter he)

theorem Slots.read_zeroFill_from {lo hi j : Nat} :
    ∀ {b : Nat} {sl : Slots}, Slots.risingFrom b sl = true →
      Slots.read (Slots.zeroFill sl lo hi) j = if lo ≤ j ∧ j < hi then 0#64 else Slots.read sl j
  | _, [], _ => by simp [Slots.zeroFill, Slots.read]
  | b, (x, v) :: rest, h => by
    simp only [Slots.risingFrom, Bool.and_eq_true, decide_eq_true_eq] at h
    have ih := Slots.read_zeroFill_from (lo := lo) (hi := hi) (j := j) h.2
    have ihw := Slots.risingFrom_zeroFill (lo := lo) (hi := hi) h.2
    simp only [Slots.zeroFill, List.filter_cons] at ih ihw ⊢
    by_cases hk : (decide (x < lo) || decide (hi ≤ x)) = true
    · simp only [hk, if_true]
      have hk' : x < lo ∨ hi ≤ x := by simpa using hk
      by_cases hxj : x = j
      · subst hxj
        have hn : ¬ (lo ≤ x ∧ x < hi) := by omega
        simp [Slots.read, hn]
      · simp only [Slots.read, hxj, if_false]
        by_cases hlt : x < j
        · simp only [hlt, if_true]
          exact ih
        · simp [hlt]
    · simp only [hk]
      have hk' : lo ≤ x ∧ x < hi := by
        simp only [Bool.or_eq_true, decide_eq_true_eq, not_or, Nat.not_lt, Nat.not_le] at hk
        exact hk
      by_cases hxj : x = j
      · subst hxj
        simp only [hk', and_self, if_true]
        exact Slots.read_below (Nat.lt_succ_self _) ihw
      · by_cases hlt : x < j
        · simp only [Slots.read, hxj, hlt, if_true, if_false]
          exact ih
        · have : Slots.read (List.filter (fun e => decide (e.1 < lo) || decide (hi ≤ e.1)) rest) j = 0#64 :=
            Slots.read_below (by omega) ihw
          simp [Slots.read, hxj, hlt, this]

/-- After filling slots `lo` to `hi - 1` they read +0 and every other slot reads as before. -/
theorem Slots.read_zeroFill {sl : Slots} (h : Slots.wf sl = true) (lo hi j : Nat) :
    Slots.read (Slots.zeroFill sl lo hi) j = if lo ≤ j ∧ j < hi then 0#64 else Slots.read sl j :=
  Slots.read_zeroFill_from h

/-- A slot at or above the bound of a storage reads +0. -/
theorem Slots.read_of_below {cap i : Nat} (hi : cap ≤ i) :
    ∀ {sl : Slots}, Slots.below cap sl = true → Slots.read sl i = 0#64
  | [], _ => rfl
  | (x, v) :: rest, h => by
    have h' : x < cap ∧ Slots.below cap rest = true := by simpa [Slots.below] using h
    have h1 : ¬ x = i := by omega
    simp only [Slots.read, h1, if_false]
    split
    · exact Slots.read_of_below hi h'.2
    · rfl

end Sys2Proof.Machine
end

