-- ==== Sys2Proof/Laws/Line.lean ====
section
/-! SUPPORT. The procedures over one line: what each can do to the line when it answers, that each keeps the line
invariants of 10_state.md R28, and that on such a line none stops the model. -/

namespace Sys2Proof.Machine

variable {c : Ctx} {p : Params} {ln ln' : Line}

/-! ## The invariants, field by field -/

/-- The line invariants as a proposition. -/
theorem Line.wf_iff : ln.wf p = true ↔
    (ln.n = 0 ∨ (4 ≤ ln.n ∧ ln.n % 2 = 0)) ∧ ln.n + 1 ≤ ln.cap ∧ ln.cap ≤ p.maxcap ∧
      (if ln.n = 0 then ln.w = 0 else ln.w < ln.n) ∧ 2 * ln.off = ln.n ∧
      (-(2 ^ 31 : Int) ≤ ln.exc ∧ ln.exc < (2 ^ 31 : Int)) ∧ Slots.wf ln.buf = true ∧
      Slots.below ln.cap ln.buf = true := by
  simp only [Line.wf, Bool.and_eq_true, decide_eq_true_eq]
  tauto

/-! ## Memory primitives -/

theorem Line.bufRead_ok {i : Nat} {v : F} (h : ln.bufRead i = .ok v) : i < ln.cap ∧ v = Slots.read ln.buf i := by
  unfold Line.bufRead at h
  split at h
  · cases h; exact ⟨by assumption, rfl⟩
  · cases h

theorem Line.bufRead_lt {i : Nat} (h : i < ln.cap) : ln.bufRead i = .ok (Slots.read ln.buf i) := by
  simp [Line.bufRead, h]

theorem Line.bufWrite_ok {i : Nat} {v : F} (h : ln.bufWrite i v = .ok ln') :
    i < ln.cap ∧ ln' = { ln with buf := Slots.write ln.buf i v } := by
  unfold Line.bufWrite at h
  split at h
  · cases h; exact ⟨by assumption, rfl⟩
  · cases h

theorem Line.bufWrite_lt {i : Nat} (h : i < ln.cap) (v : F) :
    ln.bufWrite i v = .ok { ln with buf := Slots.write ln.buf i v } := by
  simp [Line.bufWrite, h]

/-! ## CurrentOutput -/

/-- Interpolation changes APS at most (R107 to R109). -/
theorem Line.interpolate_line (t1 t2 : F) : ∃ a, (ln.interpolate c t1 t2).2 = { ln with aps := a } := by
  unfold Line.interpolate
  split
  · exact ⟨ln.aps, rfl⟩
  · split
    · exact ⟨ln.aps, rfl⟩
    · exact ⟨_, rfl⟩

/-- Uninterpolated or linear, interpolation changes nothing (R107, R108). -/
theorem Line.interpolate_pure (h : ln.mode ≠ .allpass) (t1 t2 : F) : (ln.interpolate c t1 t2).2 = ln := by
  unfold Line.interpolate
  split
  · rfl
  · split
    · rfl
    · cases hm : ln.mode <;> simp_all

/-- What a current output is: the interpolation of the two taps of R106. -/
theorem Line.currentOutput_ok {y : F} (h : ln.currentOutput c = .ok (y, ln')) :
    ln.n ≠ 0 ∧ ln.readSlot 0 < ln.cap ∧ ln.readSlot 1 < ln.cap ∧
      (y, ln') = ln.interpolate c (Slots.read ln.buf (ln.readSlot 0)) (Slots.read ln.buf (ln.readSlot 1)) := by
  unfold Line.currentOutput at h
  split at h
  · cases h
  · rename_i hn
    cases h1 : ln.bufRead (ln.readSlot 0) with
    | error e => simp [h1, bind, Except.bind] at h
    | ok t1 =>
      cases h2 : ln.bufRead (ln.readSlot 1) with
      | error e => simp [h1, h2, bind, Except.bind] at h
      | ok t2 =>
        obtain ⟨hc1, rfl⟩ := Line.bufRead_ok h1
        obtain ⟨hc2, rfl⟩ := Line.bufRead_ok h2
        simp only [h1, h2, bind, Except.bind] at h
        exact ⟨hn, hc1, hc2, (Except.ok.inj h).symm⟩

/-- A current output changes APS at most. -/
theorem Line.currentOutput_line {y : F} (h : ln.currentOutput c = .ok (y, ln')) : ∃ a, ln' = { ln with aps := a } := by
  obtain ⟨_, _, _, he⟩ := Line.currentOutput_ok h
  obtain ⟨a, ha⟩ := Line.interpolate_line (c := c) (ln := ln) (Slots.read ln.buf (ln.readSlot 0))
    (Slots.read ln.buf (ln.readSlot 1))
  exact ⟨a, by rw [← ha, ← he]⟩

/-- The slots of a current output lie below N. -/
theorem Line.readSlot_lt (h : ln.n ≠ 0) (ahead : Int) : ln.readSlot ahead < ln.n := by
  unfold Line.readSlot
  have hn : (0 : Int) < ln.n := by omega
  have h1 := Int.emod_nonneg ((ln.w : Int) + ln.off + ln.exc + ahead) (by omega : (ln.n : Int) ≠ 0)
  have h2 := Int.emod_lt_of_pos ((ln.w : Int) + ln.off + ln.exc + ahead) hn
  omega

/-- On a line that meets its invariants and has a length, the current output answers. -/
theorem Line.currentOutput_total (hw : ln.wf p = true) (hn : ln.n ≠ 0) :
    ln.currentOutput c =
      .ok (ln.interpolate c (Slots.read ln.buf (ln.readSlot 0)) (Slots.read ln.buf (ln.readSlot 1))) := by
  obtain ⟨-, hcap, -⟩ := Line.wf_iff.1 hw
  have h0 := Line.readSlot_lt hn 0
  have h1 := Line.readSlot_lt hn 1
  simp [Line.currentOutput, hn, Line.bufRead_lt (show ln.readSlot 0 < ln.cap by omega),
    Line.bufRead_lt (show ln.readSlot 1 < ln.cap by omega), bind, Except.bind]

/-- APS is free: the invariants do not speak of it. -/
theorem Line.wf_aps (a : F) : ({ ln with aps := a } : Line).wf p = ln.wf p := rfl

theorem Line.currentOutput_wf (hw : ln.wf p = true) {y : F} (h : ln.currentOutput c = .ok (y, ln')) :
    ln'.wf p = true := by
  obtain ⟨a, rfl⟩ := Line.currentOutput_line h
  rw [Line.wf_aps]
  exact hw

/-! ## Push -/

/-- What storing a sample does (R103). -/
theorem Line.store_ok {s : F} (h : ln.store s = .ok ln') :
    ln.n ≠ 0 ∧ ln.w < ln.cap ∧ ln' = { ln with buf := Slots.write ln.buf ln.w s, w := (ln.w + 1) % ln.n } := by
  unfold Line.store at h
  split at h
  · cases h
  · rename_i hn
    cases hb : ln.bufWrite ln.w s with
    | error e => simp [hb, bind, Except.bind] at h
    | ok l =>
      obtain ⟨hc, rfl⟩ := Line.bufWrite_ok hb
      simp only [hb, bind, Except.bind] at h
      exact ⟨hn, hc, (Except.ok.inj h).symm⟩

/-- What the modulation step does: PHASE, EXC and FRAC at most, and a new EXC is an s32 (R104). -/
theorem Line.modulate_ok (h : ln.modulate c = .ok ln') :
    ∃ phase exc frac, ln' = { ln with phase := phase, exc := exc, frac := frac } ∧
      (exc = ln.exc ∨ (-(2 ^ 31 : Int) ≤ exc ∧ exc < (2 ^ 31 : Int))) := by
  unfold Line.modulate at h
  split at h
  · split at h
    · cases h
    · split at h
      · cases h
      · rename_i e _ hr
        cases h
        exact ⟨_, e, _, rfl, .inr (by omega)⟩
  · cases h
    exact ⟨ln.phase, ln.exc, ln.frac, rfl, .inl rfl⟩

/-- Without modulation the modulation step does nothing (R104). -/
theorem Line.modulate_off (h : ln.moden = false) : ln.modulate c = .ok ln := by simp [Line.modulate, h]

/-- What the feedback step does: APS and slot `j` at most (R105). -/
theorem Line.feedback_ok {j : Nat} (h : ln.feedback c j = .ok ln') :
    ln' = ln ∨ ∃ a v, j < ln.cap ∧ ln' = { ln with aps := a, buf := Slots.write ln.buf j v } := by
  unfold Line.feedback at h
  split at h
  · exact .inl (Except.ok.inj h).symm
  · cases ho : ln.currentOutput (c.at 1) with
    | error e => simp [ho, bind, Except.bind] at h
    | ok r =>
      obtain ⟨y, l1⟩ := r
      obtain ⟨a, rfl⟩ := Line.currentOutput_line ho
      simp only [ho, bind, Except.bind] at h
      split at h
      · cases h
      · obtain ⟨hc, rfl⟩ := Line.bufWrite_ok h
        exact .inr ⟨a, _, hc, rfl⟩

/-- Without feedback the feedback step does nothing (R105). -/
theorem Line.feedback_off {j : Nat} (h : Fp.eq c.fmt ln.fb Fp.zero = true) : ln.feedback c j = .ok ln := by
  simp [Line.feedback, h]

/-- What a push does: W advances modulo N, slot W is written, PHASE, EXC, FRAC and APS at most change, and nothing else
does (R103 to R105). -/
theorem Line.push_ok {s : F} (h : ln.push c s = .ok ln') :
    ln.n ≠ 0 ∧ ln.w < ln.cap ∧ ∃ phase exc frac aps buf,
      ln' = { ln with
        buf := buf, w := (ln.w + 1) % ln.n, phase := phase, exc := exc, frac := frac, aps := aps } ∧
      (exc = ln.exc ∨ (-(2 ^ 31 : Int) ≤ exc ∧ exc < (2 ^ 31 : Int))) ∧
      (buf = Slots.write ln.buf ln.w s ∨ ∃ v, buf = Slots.write (Slots.write ln.buf ln.w s) ln.w v) := by
  unfold Line.push at h
  cases hs : ln.store s with
  | error e => simp [hs, bind, Except.bind] at h
  | ok l1 =>
    obtain ⟨hn, hc, rfl⟩ := Line.store_ok hs
    simp only [hs, bind, Except.bind] at h
    split at h
    · cases h
    · rename_i l2 hm
      obtain ⟨ph, ex, fr, rfl, hr⟩ := Line.modulate_ok hm
      refine ⟨hn, hc, ?_⟩
      rcases Line.feedback_ok h with rfl | ⟨a, v, _, rfl⟩
      · exact ⟨ph, ex, fr, _, _, rfl, hr, .inl rfl⟩
      · exact ⟨ph, ex, fr, a, _, rfl, hr, .inr ⟨v, rfl⟩⟩

/-- A push changes no slot but the one at the write cursor. -/
theorem Line.push_read_other {s : F} (hb : Slots.wf ln.buf = true) (h : ln.push c s = .ok ln') {i : Nat}
    (hi : i ≠ ln.w) : Slots.read ln'.buf i = Slots.read ln.buf i := by
  obtain ⟨_, _, _, _, _, _, _, rfl, _, hbuf⟩ := Line.push_ok h
  rcases hbuf with rfl | ⟨v, rfl⟩
  · exact Slots.read_write_other hb hi _
  · show Slots.read (Slots.write (Slots.write ln.buf ln.w s) ln.w v) i = _
    rw [Slots.read_write_other (Slots.wf_write hb _ _) hi, Slots.read_write_other hb hi]

/-- Storing a sample keeps the line invariants. -/
theorem Line.store_wf {s : F} (hw : ln.wf p = true) (h : ln.store s = .ok ln') : ln'.wf p = true := by
  obtain ⟨hn, hc, rfl⟩ := Line.store_ok h
  rw [Line.wf_iff] at hw ⊢
  obtain ⟨h1, h2, h3, h4, h5, h6, h7, h8⟩ := hw
  have hmod : (ln.w + 1) % ln.n < ln.n := Nat.mod_lt _ (Nat.pos_of_ne_zero hn)
  exact ⟨h1, h2, h3, by simp [hn, hmod], h5, h6, Slots.wf_write h7 _ _, Slots.below_write hc h8⟩

/-- The modulation step keeps the line invariants. -/
theorem Line.modulate_wf (hw : ln.wf p = true) (h : ln.modulate c = .ok ln') : ln'.wf p = true := by
  obtain ⟨ph, ex, fr, rfl, hr⟩ := Line.modulate_ok h
  rw [Line.wf_iff] at hw ⊢
  obtain ⟨h1, h2, h3, h4, h5, h6, h7, h8⟩ := hw
  refine ⟨h1, h2, h3, h4, h5, ?_, h7, h8⟩
  rcases hr with rfl | hr
  · exact h6
  · exact hr

/-- The feedback step keeps the line invariants. -/
theorem Line.feedback_wf {j : Nat} (hw : ln.wf p = true) (h : ln.feedback c j = .ok ln') : ln'.wf p = true := by
  rcases Line.feedback_ok h with rfl | ⟨a, v, hj, rfl⟩
  · exact hw
  · rw [Line.wf_iff] at hw ⊢
    obtain ⟨h1, h2, h3, h4, h5, h6, h7, h8⟩ := hw
    exact ⟨h1, h2, h3, h4, h5, h6, Slots.wf_write h7 _ _, Slots.below_write hj h8⟩

/-- A push is its three steps. -/
theorem Line.push_steps {s : F} (h : ln.push c s = .ok ln') :
    ∃ stored modulated, ln.store s = .ok stored ∧ stored.modulate (c.at 1) = .ok modulated ∧
      modulated.feedback (c.at 2) ln.w = .ok ln' := by
  unfold Line.push at h
  cases hs : ln.store s with
  | error e => simp [hs, bind, Except.bind] at h
  | ok l1 =>
    simp only [hs, bind, Except.bind] at h
    cases hm : l1.modulate (c.at 1) with
    | error e => simp [hm] at h
    | ok l2 => exact ⟨l1, l2, rfl, hm, by simpa [hm] using h⟩

/-- A push keeps the line invariants. -/
theorem Line.push_wf {s : F} (hw : ln.wf p = true) (h : ln.push c s = .ok ln') : ln'.wf p = true := by
  obtain ⟨l1, l2, hs, hm, hf⟩ := Line.push_steps h
  exact Line.feedback_wf (Line.modulate_wf (Line.store_wf hw hs) hm) hf

/-- On a line that meets its invariants and has a length, storing a sample answers. -/
theorem Line.store_total (hw : ln.wf p = true) (hn : ln.n ≠ 0) (s : F) :
    ln.store s = .ok { ln with buf := Slots.write ln.buf ln.w s, w := (ln.w + 1) % ln.n } := by
  obtain ⟨-, h2, -, h4, -⟩ := Line.wf_iff.1 hw
  simp only [hn, if_false] at h4
  simp [Line.store, hn, Line.bufWrite_lt (show ln.w < ln.cap by omega), bind, Except.bind]

/-- The modulation step raises EMODRANGE or answers. -/
theorem Line.modulate_error {stop : Stop} (h : ln.modulate c = .error stop) : stop = .raise .emodrange := by
  unfold Line.modulate at h
  split at h
  · split at h
    · exact (Except.error.inj h).symm
    · split at h
      · exact (Except.error.inj h).symm
      · cases h
  · cases h

/-- When the modulation step answers: with MODEN = 1, when the integer part of the offset exists and is an s32 (R104). -/
theorem Line.modulate_answers_iff : (∃ l, ln.modulate c = .ok l) ↔
    (ln.moden = true → ∃ e, excursionOf c (Fp.mul (c.at 4) (Fp.sin (c.at 3) (Fp.add (c.at 2) ln.phase
      (Fp.mul (c.at 1) c.cfg.twoPi ln.freq))) ln.ext) = some e ∧ ¬(e < -(2 ^ 31 : Int) ∨ (2 ^ 31 : Int) ≤ e)) := by
  unfold Line.modulate Line.modOffset Line.nextPhase
  cases ln.moden with
  | false => simp
  | true =>
    simp only [if_true, true_implies]
    cases excursionOf c (Fp.mul (c.at 4) (Fp.sin (c.at 3) (Fp.add (c.at 2) ln.phase
      (Fp.mul (c.at 1) c.cfg.twoPi ln.freq))) ln.ext) with
    | none => simp
    | some e =>
      simp only [Option.some.injEq, exists_eq_left']
      split
      · rename_i h
        exact ⟨fun ⟨_, hl⟩ => (by cases hl), fun hn => absurd h hn⟩
      · rename_i h
        exact ⟨fun _ => h, fun _ => ⟨_, rfl⟩⟩

/-- Whether the modulation is in range depends on MODEN, PHASE, FREQ and EXT alone (R104). -/
theorem Line.modulationInRange_congr {a b : Line} (h1 : a.moden = b.moden) (h2 : a.phase = b.phase) (h3 : a.freq = b.freq)
    (h4 : a.ext = b.ext) (h : a.modulationInRange p) : b.modulationInRange p := by
  intro d hd
  have := Line.modulate_answers_iff.1 (h d hd)
  rw [h1, h2, h3, h4] at this
  exact Line.modulate_answers_iff.2 this

/-- On a line that meets its invariants and has a length, the feedback step on a slot below N answers. -/
theorem Line.feedback_total {j : Nat} (hw : ln.wf p = true) (hn : ln.n ≠ 0) (hj : j < ln.n) :
    ∃ l, ln.feedback c j = .ok l := by
  obtain ⟨-, h2, -⟩ := Line.wf_iff.1 hw
  unfold Line.feedback
  split
  · exact ⟨ln, rfl⟩
  · have ho := Line.currentOutput_total (c := c.at 1) hw hn
    obtain ⟨a, ha⟩ := Line.interpolate_line (c := c.at 1) (ln := ln) (Slots.read ln.buf (ln.readSlot 0))
      (Slots.read ln.buf (ln.readSlot 1))
    rw [ho]
    generalize ln.interpolate (c.at 1) (Slots.read ln.buf (ln.readSlot 0)) (Slots.read ln.buf (ln.readSlot 1)) = r at ha
    obtain ⟨y, l1⟩ := r
    simp only at ha
    subst ha
    have hj' : j < ({ ln with aps := a } : Line).cap := by show j < ln.cap; omega
    simp only [bind, Except.bind, Line.bufRead_lt hj', Line.bufWrite_lt hj']
    exact ⟨_, rfl⟩

/-- On a line that meets its invariants and has a length, a push answers as soon as its modulation step does. -/
theorem Line.push_total (hw : ln.wf p = true) (hn : ln.n ≠ 0) (s : F)
    (hm : ∃ l, Line.modulate (c.at 1) { ln with buf := Slots.write ln.buf ln.w s, w := (ln.w + 1) % ln.n } = .ok l) :
    ∃ l, ln.push c s = .ok l := by
  have hs := Line.store_total hw hn s
  obtain ⟨l2, hm⟩ := hm
  have hw2 := Line.modulate_wf (Line.store_wf hw hs) hm
  obtain ⟨ph, ex, fr, rfl, -⟩ := Line.modulate_ok hm
  have hw' : ln.w < ln.n := by
    obtain ⟨-, -, -, h4, -⟩ := Line.wf_iff.1 hw
    simpa [hn] using h4
  obtain ⟨l3, hf⟩ := Line.feedback_total (c := c.at 2) (j := ln.w) hw2 hn hw'
  exact ⟨l3, by simp [Line.push, hs, hm, hf, bind, Except.bind]⟩

/-- On a line that meets its invariants, a push raises ELINEUNSET or EMODRANGE, or answers: it does not stop the
model. -/
theorem Line.push_error {s : F} {stop : Stop} (hw : ln.wf p = true) (h : ln.push c s = .error stop) :
    (ln.n = 0 ∧ stop = .raise .elineunset) ∨ (ln.n ≠ 0 ∧ stop = .raise .emodrange) := by
  by_cases hn : ln.n = 0
  · refine .inl ⟨hn, ?_⟩
    simp [Line.push, Line.store, hn, bind, Except.bind] at h
    exact h.symm
  · refine .inr ⟨hn, ?_⟩
    have hs := Line.store_total hw hn s
    cases hm : Line.modulate (c.at 1) { ln with buf := Slots.write ln.buf ln.w s, w := (ln.w + 1) % ln.n } with
    | error e =>
      simp only [Line.push, hs, hm, bind, Except.bind] at h
      rw [← Except.error.inj h]
      exact Line.modulate_error hm
    | ok l =>
      obtain ⟨l', hl⟩ := Line.push_total (c := c) hw hn s ⟨l, hm⟩
      rw [hl] at h
      cases h

/-! ## TapAt and Diffuse -/

/-- What a tap reads (R110). -/
theorem Line.tapAt_ok {k : Int} {v : F} (h : ln.tapAt k = .ok v) :
    ln.n ≠ 0 ∧ v = Slots.read ln.buf (((ln.w : Int) - k) % (ln.n : Int)).toNat := by
  unfold Line.tapAt at h
  split at h
  · cases h
  · rename_i hn
    exact ⟨hn, (Line.bufRead_ok h).2⟩

/-- On a line that meets its invariants and has a length, a tap answers. -/
theorem Line.tapAt_total (hw : ln.wf p = true) (hn : ln.n ≠ 0) (k : Int) :
    ln.tapAt k = .ok (Slots.read ln.buf (((ln.w : Int) - k) % (ln.n : Int)).toNat) := by
  obtain ⟨-, hcap, -⟩ := Line.wf_iff.1 hw
  have h1 := Int.emod_nonneg ((ln.w : Int) - k) (by omega : (ln.n : Int) ≠ 0)
  have h2 := Int.emod_lt_of_pos ((ln.w : Int) - k) (by omega : (0 : Int) < ln.n)
  simp [Line.tapAt, hn, Line.bufRead_lt (show (((ln.w : Int) - k) % (ln.n : Int)).toNat < ln.cap by omega)]

/-- What a diffusion stage does: a current output, then the push of `x - y × c` (R140). -/
theorem Line.diffuse_ok {x k y : F} (h : ln.diffuse c x k = .ok (y, ln')) :
    ∃ out read, ln.currentOutput (c.at 1) = .ok (out, read) ∧
      read.push (c.at 4) (Fp.sub (c.at 3) x (Fp.mul (c.at 2) out k)) = .ok ln' ∧
      y = Fp.add (c.at 6) out (Fp.mul (c.at 5) (Fp.sub (c.at 3) x (Fp.mul (c.at 2) out k)) k) := by
  unfold Line.diffuse at h
  cases ho : ln.currentOutput (c.at 1) with
  | error e => simp [ho, bind, Except.bind] at h
  | ok r =>
    obtain ⟨out, rd⟩ := r
    simp only [ho, bind, Except.bind] at h
    split at h
    · cases h
    · rename_i l2 hp
      cases h
      exact ⟨out, rd, rfl, hp, rfl⟩

/-- A diffusion stage keeps the line invariants. -/
theorem Line.diffuse_wf {x k y : F} (hw : ln.wf p = true) (h : ln.diffuse c x k = .ok (y, ln')) : ln'.wf p = true := by
  obtain ⟨out, rd, ho, hp, _⟩ := Line.diffuse_ok h
  exact Line.push_wf (Line.currentOutput_wf hw ho) hp

/-! ## SetLength -/

/-- A length that fails the guard changes nothing (R100). -/
theorem Line.setLength_guard {len : F} (h : lengthGuard c.fmt len = false) : ln.setLength c len = .ok ln := by
  simp [Line.setLength, h]

/-- What SetLength does when it answers: nothing (R100), or the growth and the length fields of R101 and R102. -/
theorem Line.setLength_ok {len : F} (h : ln.setLength c len = .ok ln') :
    (lengthGuard c.fmt len = false ∧ ln' = ln) ∨
      (lengthGuard c.fmt len = true ∧ ∃ need m, slotsNeeded c.fmt len = some need ∧
        Fp.unpack c.fmt len = .fin false m ∧ 2 ≤ m / Fp.one c.fmt ∧ 2 * (m / Fp.one c.fmt) + 1 ≤ need ∧
        (need ≤ ln.cap ∨ need ≤ c.cfg.maxcap) ∧ ln' = (ln.grow need).storeLength c len (m / Fp.one c.fmt)) := by
  unfold Line.setLength at h
  cases hg : lengthGuard c.fmt len with
  | false => simp only [hg] at h; exact .inl ⟨rfl, (Except.ok.inj h).symm⟩
  | true =>
    simp only [hg, if_true] at h
    split at h
    · rename_i need whole hneed hwhole
      split at h
      · cases h
      · rename_i hcap
        obtain ⟨m, hm, rfl, h2, h3⟩ := lengthGuard_finite hg hneed hwhole
        refine .inr ⟨rfl, need, m, hneed, hm, h2, h3, by omega, ?_⟩
        rw [Int.toNat_natCast] at h
        exact (Except.ok.inj h).symm
    · cases h

/-- SetLength keeps the line invariants. -/
theorem Line.setLength_wf {len : F} (hw : ln.wf c.cfg = true) (h : ln.setLength c len = .ok ln') :
    ln'.wf c.cfg = true := by
  rcases Line.setLength_ok h with ⟨_, rfl⟩ | ⟨_, need, m, _, _, h2, h3, hcap, rfl⟩
  · exact hw
  · rw [Line.wf_iff] at hw ⊢
    obtain ⟨i1, i2, i3, i4, i5, i6, i7, i8⟩ := hw
    have hpos : 2 * (m / Fp.one c.fmt) ≠ 0 := by omega
    have hmod : ln.w % (2 * (m / Fp.one c.fmt)) < 2 * (m / Fp.one c.fmt) := Nat.mod_lt _ (Nat.pos_of_ne_zero hpos)
    unfold Line.grow
    split
    · rename_i hgrow
      have hmax : need ≤ c.cfg.maxcap := by omega
      refine ⟨.inr ⟨?_, ?_⟩, ?_, hmax, ?_, rfl, i6, Slots.wf_zeroFill i7 _ _, ?_⟩
      · show 4 ≤ 2 * (m / Fp.one c.fmt); omega
      · show 2 * (m / Fp.one c.fmt) % 2 = 0; omega
      · show 2 * (m / Fp.one c.fmt) + 1 ≤ need; omega
      · show (if 2 * (m / Fp.one c.fmt) = 0 then _ else _)
        rw [if_neg hpos]; exact hmod
      · exact Slots.below_zeroFill (Slots.below_mono (show ln.cap ≤ need by omega) i8)
    · refine ⟨.inr ⟨?_, ?_⟩, ?_, i3, ?_, rfl, i6, i7, i8⟩
      · show 4 ≤ 2 * (m / Fp.one c.fmt); omega
      · show 2 * (m / Fp.one c.fmt) % 2 = 0; omega
      · show 2 * (m / Fp.one c.fmt) + 1 ≤ ln.cap; omega
      · show (if 2 * (m / Fp.one c.fmt) = 0 then _ else _)
        rw [if_neg hpos]; exact hmod

/-- SetLength never stops the model. -/
theorem Line.setLength_noHalt {len : F} {f : Fault} : ln.setLength c len ≠ .error (.halt f) := by
  unfold Line.setLength
  split
  · split
    · split <;> simp
    · simp
  · simp

end Sys2Proof.Machine
end

