-- ==== Sys2Proof/Laws/Lines.lean ====
section
/-! SUPPORT. The thirteen lines: reading one after storing one. -/

namespace Sys2Proof.Machine

@[simp] theorem Lines.get_set_same (ls : Lines) (l : LineName) (ln : Line) : (ls.set l ln).get l = ln := by
  cases l <;> rfl

theorem Lines.get_set_other (ls : Lines) {l l' : LineName} (h : l' ≠ l) (ln : Line) :
    (ls.set l ln).get l' = ls.get l' := by
  cases l <;> cases l' <;> first | rfl | exact absurd rfl h

@[simp] theorem Lines.set_get (ls : Lines) (l : LineName) : ls.set l (ls.get l) = ls := by
  cases l <;> rfl

theorem Lines.get_set (ls : Lines) (l l' : LineName) (ln : Line) :
    (ls.set l ln).get l' = if l' = l then ln else ls.get l' := by
  by_cases h : l' = l
  · subst h; simp
  · simp [h, Lines.get_set_other ls h]

/-- Two networks with the same thirteen lines are the same network. -/
theorem Lines.ext_get {a b : Lines} (h : ∀ l, a.get l = b.get l) : a = b := by
  cases a; cases b
  have h0 := h .in0
  have h1 := h .in1
  have h2 := h .in2
  have h3 := h .in3
  have h4 := h .moda
  have h5 := h .modb
  have h6 := h .dla
  have h7 := h .dlb
  have h8 := h .rca
  have h9 := h .rcb
  have h10 := h .difa
  have h11 := h .difb
  have h12 := h .pre
  simp only [Lines.get] at h0 h1 h2 h3 h4 h5 h6 h7 h8 h9 h10 h11 h12
  simp only [h0, h1, h2, h3, h4, h5, h6, h7, h8, h9, h10, h11, h12]

theorem mem_allLines (l : LineName) : l ∈ allLines := by cases l <;> decide

theorem Lines.anyUnset_eq_false {ls : Lines} : ls.anyUnset = false ↔ ∀ l, (ls.get l).n ≠ 0 := by
  unfold Lines.anyUnset
  rw [List.any_eq_false]
  exact ⟨fun h l => by simpa using h l (mem_allLines l), fun h l _ => by simpa using h l⟩

end Sys2Proof.Machine
end

