-- ==== Sys2Proof/Laws/Network.lean ====
section
/-! SUPPORT. The procedures among the thirteen lines, the steps of Frame, and that each keeps the line invariants. -/

namespace Sys2Proof.Machine

variable {c : Ctx} {p : Params} {ls ls' : Lines}

theorem Lines.wf_iff : ls.wf p = true ↔ ∀ l, (ls.get l).wf p = true := by
  unfold Lines.wf
  rw [List.all_eq_true]
  exact ⟨fun h l => h l (mem_allLines l), fun h l _ => h l⟩

theorem Lines.wf_set {l : LineName} {ln : Line} (h : ls.wf p = true) (hl : ln.wf p = true) :
    (ls.set l ln).wf p = true := by
  rw [Lines.wf_iff] at h ⊢
  intro l'
  rw [Lines.get_set]
  split
  · exact hl
  · exact h l'

/-! ## One line among thirteen -/

theorem Lines.push_ok {l : LineName} {s : F} (h : ls.push c l s = .ok ls') :
    ∃ ln, (ls.get l).push c s = .ok ln ∧ ls' = ls.set l ln := map_ok h

theorem Lines.currentOutput_ok {l : LineName} {y : F} (h : ls.currentOutput c l = .ok (y, ls')) :
    ∃ ln, (ls.get l).currentOutput c = .ok (y, ln) ∧ ls' = ls.set l ln := by
  obtain ⟨⟨y', ln⟩, h1, h2⟩ := map_ok h
  cases h2
  exact ⟨ln, h1, rfl⟩

theorem Lines.diffuse_ok {l : LineName} {x k y : F} (h : ls.diffuse c l x k = .ok (y, ls')) :
    ∃ ln, (ls.get l).diffuse c x k = .ok (y, ln) ∧ ls' = ls.set l ln := by
  obtain ⟨⟨y', ln⟩, h1, h2⟩ := map_ok h
  cases h2
  exact ⟨ln, h1, rfl⟩

theorem Lines.pass_ok {l : LineName} {s y : F} (h : ls.pass c l s = .ok (y, ls')) :
    ∃ ls1, ls.push (c.at 1) l s = .ok ls1 ∧ ls1.currentOutput (c.at 2) l = .ok (y, ls') := bind_ok h

theorem Lines.push_wf {l : LineName} {s : F} (hw : ls.wf p = true) (h : ls.push c l s = .ok ls') :
    ls'.wf p = true := by
  obtain ⟨ln, h1, rfl⟩ := Lines.push_ok h
  exact Lines.wf_set hw (Line.push_wf (Lines.wf_iff.1 hw l) h1)

theorem Lines.currentOutput_wf {l : LineName} {y : F} (hw : ls.wf p = true)
    (h : ls.currentOutput c l = .ok (y, ls')) : ls'.wf p = true := by
  obtain ⟨ln, h1, rfl⟩ := Lines.currentOutput_ok h
  exact Lines.wf_set hw (Line.currentOutput_wf (Lines.wf_iff.1 hw l) h1)

theorem Lines.diffuse_wf {l : LineName} {x k y : F} (hw : ls.wf p = true)
    (h : ls.diffuse c l x k = .ok (y, ls')) : ls'.wf p = true := by
  obtain ⟨ln, h1, rfl⟩ := Lines.diffuse_ok h
  exact Lines.wf_set hw (Line.diffuse_wf (Lines.wf_iff.1 hw l) h1)

theorem Lines.pass_wf {l : LineName} {s y : F} (hw : ls.wf p = true) (h : ls.pass c l s = .ok (y, ls')) :
    ls'.wf p = true := by
  obtain ⟨ls1, h1, h2⟩ := Lines.pass_ok h
  exact Lines.currentOutput_wf (Lines.push_wf hw h1) h2

/-! ## The steps of Frame -/

theorem inputDiffusion_ok {id1 id2 x y : F} (h : inputDiffusion c id1 id2 ls x = .ok (y, ls')) :
    ∃ x1 ls1 x2 ls2 x3 ls3, ls.diffuse (c.at 1) .in0 x id1 = .ok (x1, ls1) ∧
      ls1.diffuse (c.at 2) .in1 x1 id1 = .ok (x2, ls2) ∧ ls2.diffuse (c.at 3) .in2 x2 id2 = .ok (x3, ls3) ∧
      ls3.diffuse (c.at 4) .in3 x3 id2 = .ok (y, ls') := by
  obtain ⟨⟨x1, ls1⟩, h1, h⟩ := bind_ok h
  obtain ⟨⟨x2, ls2⟩, h2, h⟩ := bind_ok h
  obtain ⟨⟨x3, ls3⟩, h3, h⟩ := bind_ok h
  exact ⟨x1, ls1, x2, ls2, x3, ls3, h1, h2, h3, h⟩

theorem tankStep_ok {t : Tank} {s : State} {seed lp lp' : F} (h : tankStep c t s ls seed lp = .ok (lp', ls')) :
    ∃ a ls1 b ls2 d ls3, ls.diffuse (c.at 1) t.diffuser seed s.dd1 = .ok (a, ls1) ∧
      ls1.pass (c.at 2) t.damped a = .ok (b, ls2) ∧ lp' = dampLowPass (c.at 3) s.damp b lp ∧
      ls2.diffuse (c.at 5) t.second (Fp.mul (c.at 4) s.decay lp') s.dd2 = .ok (d, ls3) ∧
      ls3.push (c.at 6) t.recirculation d = .ok ls' := by
  obtain ⟨⟨a, ls1⟩, h1, h⟩ := bind_ok h
  obtain ⟨⟨b, ls2⟩, h2, h⟩ := bind_ok h
  obtain ⟨⟨d, ls3⟩, h3, h⟩ := bind_ok h
  obtain ⟨ls4, h4, h⟩ := bind_ok h
  cases h
  exact ⟨a, ls1, b, ls2, d, ls3, h1, h2, rfl, h3, h4⟩

/-- Everything a frame does when it answers: every line has a length, and the steps R151 to R159 in order. -/
theorem frameOn_ok {s t : State} {left right wl wr : F} (h : frameOn c s ls left right = .ok (t, wl, wr)) :
    ls.anyUnset = false ∧ ∃ u ls1 x ls2 outB ls3 outA ls4 lpa ls5 lpb ls6,
      ls.pass (c.at 2) .pre (downmix (c.at 1) left right) = .ok (u, ls1) ∧
      inputDiffusion (c.at 4) s.id1 s.id2 ls1 (bandwidthLowPass (c.at 3) s.bw s.lpbw u) = .ok (x, ls2) ∧
      ls2.currentOutput (c.at 5) .rcb = .ok (outB, ls3) ∧
      ls3.currentOutput (c.at 7) .rca = .ok (outA, ls4) ∧
      tankStep (c.at 9) tankA s ls4 (tankSeed (c.at 6) s.decay outB x) s.lpa = .ok (lpa, ls5) ∧
      tankStep (c.at 10) tankB s ls5 (tankSeed (c.at 8) s.decay outA x) s.lpb = .ok (lpb, ls6) ∧
      tapSum (c.at 11) s.ratio ls6 s.cfg.tapsLeft Fp.zero = .ok wl ∧
      tapSum (c.at 12) s.ratio ls6 s.cfg.tapsRight Fp.zero = .ok wr ∧
      t = { s with lpbw := bandwidthLowPass (c.at 3) s.bw s.lpbw u, lpa := lpa, lpb := lpb, lines := some ls6 } := by
  unfold frameOn at h
  split at h
  · cases h
  · rename_i hu
    obtain ⟨⟨u, ls1⟩, h1, h⟩ := bind_ok h
    obtain ⟨⟨x, ls2⟩, h2, h⟩ := bind_ok h
    obtain ⟨⟨ob, ls3⟩, h3, h⟩ := bind_ok h
    obtain ⟨⟨oa, ls4⟩, h4, h⟩ := bind_ok h
    obtain ⟨⟨la, ls5⟩, h5, h⟩ := bind_ok h
    obtain ⟨⟨lb, ls6⟩, h6, h⟩ := bind_ok h
    obtain ⟨w1, h7, h⟩ := bind_ok h
    obtain ⟨w2, h8, h⟩ := bind_ok h
    cases h
    exact ⟨by simpa using hu, u, ls1, x, ls2, ob, ls3, oa, ls4, la, ls5, lb, ls6, h1, h2, h3, h4, h5, h6, h7, h8, rfl⟩

/-- A frame keeps the line invariants. -/
theorem frameOn_wf {s t : State} {left right wl wr : F} (hw : ls.wf p = true)
    (h : frameOn c s ls left right = .ok (t, wl, wr)) : ∃ ls', t.lines = some ls' ∧ ls'.wf p = true := by
  obtain ⟨-, u, ls1, x, ls2, ob, ls3, oa, ls4, la, ls5, lb, ls6, h1, h2, h3, h4, h5, h6, -, -, rfl⟩ := frameOn_ok h
  refine ⟨ls6, rfl, ?_⟩
  obtain ⟨_, _, _, _, _, _, g1, g2, g3, g4⟩ := inputDiffusion_ok h2
  have w2 := Lines.diffuse_wf (Lines.diffuse_wf (Lines.diffuse_wf (Lines.diffuse_wf (Lines.pass_wf hw h1) g1) g2) g3) g4
  have w4 := Lines.currentOutput_wf (Lines.currentOutput_wf w2 h3) h4
  obtain ⟨_, _, _, _, _, _, a1, a2, -, a3, a4⟩ := tankStep_ok h5
  have w5 := Lines.push_wf (Lines.diffuse_wf (Lines.pass_wf (Lines.diffuse_wf w4 a1) a2) a3) a4
  obtain ⟨_, _, _, _, _, _, b1, b2, -, b3, b4⟩ := tankStep_ok h6
  exact Lines.push_wf (Lines.diffuse_wf (Lines.pass_wf (Lines.diffuse_wf w5 b1) b2) b3) b4

end Sys2Proof.Machine
end

