-- ==== Sys2Proof/Laws/Outcome.lean ====
section
/-! SUPPORT. What a command's end can be: one lemma per shared operation of Sys2Proof/Machine/Ops.lean that answers an
outcome (60_exceptions.md R232 to R236). -/

namespace Sys2Proof.Machine

variable {s t : State}

@[simp] theorem State.finish_ok (u : State) (results : List Item) :
    s.finish (.ok (u, results)) = .next (u.respond u.status results) := rfl

@[simp] theorem State.finish_raise (cause : Cause) : s.finish (.error (.raise cause)) = .next (s.takeFault cause) := rfl

@[simp] theorem State.finish_halt (fault : Fault) : s.finish (.error (.halt fault)) = .fault fault := rfl

/-- If a command ends in a next state, it answered its results, or took a fault from the state before it. -/
theorem State.finish_next {body : Except Stop (State × List Item)} (h : s.finish body = .next t) :
    (∃ u results, body = .ok (u, results) ∧ t = u.respond u.status results) ∨
      ∃ cause, body = .error (.raise cause) ∧ t = s.takeFault cause := by
  match body, h with
  | .ok (u, results), h => exact .inl ⟨u, results, rfl, by simpa using h.symm⟩
  | .error (.raise cause), h => exact .inr ⟨cause, rfl, by simpa using h.symm⟩
  | .error (.halt f), h => simp at h

/-- A command stops the model only if its body does. -/
theorem State.finish_fault {body : Except Stop (State × List Item)} {f : Fault} (h : s.finish body = .fault f) :
    body = .error (.halt f) := by
  match body, h with
  | .ok (u, results), h => simp at h
  | .error (.raise cause), h => simp at h
  | .error (.halt g), h => cases h; rfl

@[simp] theorem State.accepted_eq (body : Except Stop (State × List Item)) : s.accepted body = s.finish body := rfl

theorem State.needNetwork_none (h : s.lines = none) (body : Lines → Except Stop (State × List Item)) :
    s.needNetwork body = .error (.raise .enotinit) := by
  simp [State.needNetwork, h]

theorem State.needNetwork_some {ls : Lines} (h : s.lines = some ls) (body : Lines → Except Stop (State × List Item)) :
    s.needNetwork body = body ls := by
  simp [State.needNetwork, h]

theorem State.gated_fault {c : Cause} (h : s.fault = some c) (legal : Bool)
    (body : Lines → Except Stop (State × List Item)) : s.gated legal body = .next s.reject := by
  simp [State.gated, h]

theorem State.gated_illegal (h : s.fault = none) (body : Lines → Except Stop (State × List Item)) :
    s.gated false body = .next (s.takeFault .eillcmd) := by
  simp [State.gated, h]

theorem State.gated_noNetwork (h : s.fault = none) (hl : s.lines = none)
    (body : Lines → Except Stop (State × List Item)) : s.gated true body = .next (s.takeFault .enotinit) := by
  simp [State.gated, h, State.needNetwork_none hl]

theorem State.gated_ready {ls : Lines} (h : s.fault = none) (hl : s.lines = some ls)
    (body : Lines → Except Stop (State × List Item)) : s.gated true body = s.finish (body ls) := by
  simp [State.gated, h, State.needNetwork_some hl]

/-- If a gated command answers a next state, it was rejected, took a fault, or answered its results on a network. -/
theorem State.gated_next {legal : Bool} {body : Lines → Except Stop (State × List Item)}
    (h : s.gated legal body = .next t) :
    ((∃ c, s.fault = some c) ∧ t = s.reject) ∨ (s.fault = none ∧ ∃ cause, t = s.takeFault cause) ∨
      (s.fault = none ∧ ∃ ls u results,
        s.lines = some ls ∧ body ls = .ok (u, results) ∧ t = u.respond u.status results) := by
  cases hf : s.fault with
  | some c =>
    rw [State.gated_fault hf] at h
    exact .inl ⟨⟨c, rfl⟩, by simpa using h.symm⟩
  | none =>
    cases legal with
    | false =>
      rw [State.gated_illegal hf] at h
      exact .inr (.inl ⟨rfl, .eillcmd, by simpa using h.symm⟩)
    | true =>
      cases hl : s.lines with
      | none =>
        rw [State.gated_noNetwork hf hl] at h
        exact .inr (.inl ⟨rfl, .enotinit, by simpa using h.symm⟩)
      | some ls =>
        rw [State.gated_ready hf hl] at h
        rcases State.finish_next h with ⟨u, r, hb, ht⟩ | ⟨c, _, ht⟩
        · exact .inr (.inr ⟨rfl, ls, u, r, rfl, hb, ht⟩)
        · exact .inr (.inl ⟨rfl, c, ht⟩)

/-- A procedure on one line that gives a line and its results. -/
theorem State.onLine_ok {ls : Lines} {l : LineName} {body : Line → Except Stop (Line × List Item)} {ln : Line}
    {results : List Item} (h : body (ls.get l) = .ok (ln, results)) :
    s.onLine ls l body = .ok ({ s with lines := some (ls.set l ln) }, results) := by
  simp [State.onLine, h]

theorem State.onLine_error {ls : Lines} {l : LineName} {body : Line → Except Stop (Line × List Item)} {stop : Stop}
    (h : body (ls.get l) = .error stop) : s.onLine ls l body = .error stop := by
  simp [State.onLine, h]

/-- If a procedure on one line answers, the state differs from the one before in that line alone. -/
theorem State.onLine_inv {ls : Lines} {l : LineName} {body : Line → Except Stop (Line × List Item)} {u : State}
    {results : List Item} (h : s.onLine ls l body = .ok (u, results)) :
    ∃ ln, body (ls.get l) = .ok (ln, results) ∧ u = { s with lines := some (ls.set l ln) } := by
  unfold State.onLine at h
  split at h
  · cases h
  · rename_i ln r hb
    cases h
    exact ⟨ln, hb, rfl⟩

end Sys2Proof.Machine
end

