-- ==== Sys2Proof/Laws/State.lean ====
section
/-! SUPPORT. The fields of a state after each of its updates, one lemma per field per update. -/
namespace Sys2Proof.Machine
variable (s : State)

/-! ## State.respond -/
@[simp] theorem State.respond_cfg (status : Word) (results : List Item) :
    (s.respond status results).cfg = s.cfg := rfl
@[simp] theorem State.respond_inq (status : Word) (results : List Item) :
    (s.respond status results).inq = s.inq := rfl
@[simp] theorem State.respond_out (status : Word) (results : List Item) :
    (s.respond status results).out = ⟨status, results⟩ :: s.out := rfl
@[simp] theorem State.respond_resetIn (status : Word) (results : List Item) :
    (s.respond status results).resetIn = s.resetIn := rfl
@[simp] theorem State.respond_draws (status : Word) (results : List Item) :
    (s.respond status results).draws = s.draws + 1 := rfl
@[simp] theorem State.respond_fault (status : Word) (results : List Item) :
    (s.respond status results).fault = s.fault := rfl
@[simp] theorem State.respond_sr (status : Word) (results : List Item) :
    (s.respond status results).sr = s.sr := rfl
@[simp] theorem State.respond_bw (status : Word) (results : List Item) :
    (s.respond status results).bw = s.bw := rfl
@[simp] theorem State.respond_damp (status : Word) (results : List Item) :
    (s.respond status results).damp = s.damp := rfl
@[simp] theorem State.respond_decay (status : Word) (results : List Item) :
    (s.respond status results).decay = s.decay := rfl
@[simp] theorem State.respond_dd1 (status : Word) (results : List Item) :
    (s.respond status results).dd1 = s.dd1 := rfl
@[simp] theorem State.respond_dd2 (status : Word) (results : List Item) :
    (s.respond status results).dd2 = s.dd2 := rfl
@[simp] theorem State.respond_id1 (status : Word) (results : List Item) :
    (s.respond status results).id1 = s.id1 := rfl
@[simp] theorem State.respond_id2 (status : Word) (results : List Item) :
    (s.respond status results).id2 = s.id2 := rfl
@[simp] theorem State.respond_wet (status : Word) (results : List Item) :
    (s.respond status results).wet = s.wet := rfl
@[simp] theorem State.respond_dry (status : Word) (results : List Item) :
    (s.respond status results).dry = s.dry := rfl
@[simp] theorem State.respond_lpbw (status : Word) (results : List Item) :
    (s.respond status results).lpbw = s.lpbw := rfl
@[simp] theorem State.respond_lpa (status : Word) (results : List Item) :
    (s.respond status results).lpa = s.lpa := rfl
@[simp] theorem State.respond_lpb (status : Word) (results : List Item) :
    (s.respond status results).lpb = s.lpb := rfl
@[simp] theorem State.respond_ratio (status : Word) (results : List Item) :
    (s.respond status results).ratio = s.ratio := rfl
@[simp] theorem State.respond_lines (status : Word) (results : List Item) :
    (s.respond status results).lines = s.lines := rfl
@[simp] theorem State.respond_status (status : Word) (results : List Item) :
    (s.respond status results).status = s.status := rfl

/-! ## State.recordFault -/
@[simp] theorem State.recordFault_cfg (cause : Cause) : (s.recordFault cause).cfg = s.cfg := by
  unfold State.recordFault; split <;> rfl
@[simp] theorem State.recordFault_inq (cause : Cause) : (s.recordFault cause).inq = s.inq := by
  unfold State.recordFault; split <;> rfl
@[simp] theorem State.recordFault_out (cause : Cause) : (s.recordFault cause).out = s.out := by
  unfold State.recordFault; split <;> rfl
@[simp] theorem State.recordFault_resetIn (cause : Cause) : (s.recordFault cause).resetIn = s.resetIn := by
  unfold State.recordFault; split <;> rfl
@[simp] theorem State.recordFault_draws (cause : Cause) : (s.recordFault cause).draws = s.draws := by
  unfold State.recordFault; split <;> rfl
@[simp] theorem State.recordFault_fault (cause : Cause) :
    (s.recordFault cause).fault = some (s.fault.getD cause) := by
  unfold State.recordFault; split <;> simp_all
@[simp] theorem State.recordFault_sr (cause : Cause) : (s.recordFault cause).sr = s.sr := by
  unfold State.recordFault; split <;> rfl
@[simp] theorem State.recordFault_bw (cause : Cause) : (s.recordFault cause).bw = s.bw := by
  unfold State.recordFault; split <;> rfl
@[simp] theorem State.recordFault_damp (cause : Cause) : (s.recordFault cause).damp = s.damp := by
  unfold State.recordFault; split <;> rfl
@[simp] theorem State.recordFault_decay (cause : Cause) : (s.recordFault cause).decay = s.decay := by
  unfold State.recordFault; split <;> rfl
@[simp] theorem State.recordFault_dd1 (cause : Cause) : (s.recordFault cause).dd1 = s.dd1 := by
  unfold State.recordFault; split <;> rfl
@[simp] theorem State.recordFault_dd2 (cause : Cause) : (s.recordFault cause).dd2 = s.dd2 := by
  unfold State.recordFault; split <;> rfl
@[simp] theorem State.recordFault_id1 (cause : Cause) : (s.recordFault cause).id1 = s.id1 := by
  unfold State.recordFault; split <;> rfl
@[simp] theorem State.recordFault_id2 (cause : Cause) : (s.recordFault cause).id2 = s.id2 := by
  unfold State.recordFault; split <;> rfl
@[simp] theorem State.recordFault_wet (cause : Cause) : (s.recordFault cause).wet = s.wet := by
  unfold State.recordFault; split <;> rfl
@[simp] theorem State.recordFault_dry (cause : Cause) : (s.recordFault cause).dry = s.dry := by
  unfold State.recordFault; split <;> rfl
@[simp] theorem State.recordFault_lpbw (cause : Cause) : (s.recordFault cause).lpbw = s.lpbw := by
  unfold State.recordFault; split <;> rfl
@[simp] theorem State.recordFault_lpa (cause : Cause) : (s.recordFault cause).lpa = s.lpa := by
  unfold State.recordFault; split <;> rfl
@[simp] theorem State.recordFault_lpb (cause : Cause) : (s.recordFault cause).lpb = s.lpb := by
  unfold State.recordFault; split <;> rfl
@[simp] theorem State.recordFault_ratio (cause : Cause) : (s.recordFault cause).ratio = s.ratio := by
  unfold State.recordFault; split <;> rfl
@[simp] theorem State.recordFault_lines (cause : Cause) : (s.recordFault cause).lines = s.lines := by
  unfold State.recordFault; split <;> rfl

/-! ## State.takeFault -/
@[simp] theorem State.takeFault_cfg (cause : Cause) : (s.takeFault cause).cfg = s.cfg := by simp [State.takeFault]
@[simp] theorem State.takeFault_inq (cause : Cause) : (s.takeFault cause).inq = s.inq := by simp [State.takeFault]
@[simp] theorem State.takeFault_out (cause : Cause) :
    (s.takeFault cause).out = ⟨(s.recordFault cause).status, []⟩ :: s.out := by simp [State.takeFault]
@[simp] theorem State.takeFault_resetIn (cause : Cause) : (s.takeFault cause).resetIn = s.resetIn := by simp [State.takeFault]
@[simp] theorem State.takeFault_draws (cause : Cause) : (s.takeFault cause).draws = s.draws + 1 := by simp [State.takeFault]
@[simp] theorem State.takeFault_fault (cause : Cause) : (s.takeFault cause).fault = some (s.fault.getD cause) := by simp [State.takeFault]
@[simp] theorem State.takeFault_sr (cause : Cause) : (s.takeFault cause).sr = s.sr := by simp [State.takeFault]
@[simp] theorem State.takeFault_bw (cause : Cause) : (s.takeFault cause).bw = s.bw := by simp [State.takeFault]
@[simp] theorem State.takeFault_damp (cause : Cause) : (s.takeFault cause).damp = s.damp := by simp [State.takeFault]
@[simp] theorem State.takeFault_decay (cause : Cause) : (s.takeFault cause).decay = s.decay := by simp [State.takeFault]
@[simp] theorem State.takeFault_dd1 (cause : Cause) : (s.takeFault cause).dd1 = s.dd1 := by simp [State.takeFault]
@[simp] theorem State.takeFault_dd2 (cause : Cause) : (s.takeFault cause).dd2 = s.dd2 := by simp [State.takeFault]
@[simp] theorem State.takeFault_id1 (cause : Cause) : (s.takeFault cause).id1 = s.id1 := by simp [State.takeFault]
@[simp] theorem State.takeFault_id2 (cause : Cause) : (s.takeFault cause).id2 = s.id2 := by simp [State.takeFault]
@[simp] theorem State.takeFault_wet (cause : Cause) : (s.takeFault cause).wet = s.wet := by simp [State.takeFault]
@[simp] theorem State.takeFault_dry (cause : Cause) : (s.takeFault cause).dry = s.dry := by simp [State.takeFault]
@[simp] theorem State.takeFault_lpbw (cause : Cause) : (s.takeFault cause).lpbw = s.lpbw := by simp [State.takeFault]
@[simp] theorem State.takeFault_lpa (cause : Cause) : (s.takeFault cause).lpa = s.lpa := by simp [State.takeFault]
@[simp] theorem State.takeFault_lpb (cause : Cause) : (s.takeFault cause).lpb = s.lpb := by simp [State.takeFault]
@[simp] theorem State.takeFault_ratio (cause : Cause) : (s.takeFault cause).ratio = s.ratio := by simp [State.takeFault]
@[simp] theorem State.takeFault_lines (cause : Cause) : (s.takeFault cause).lines = s.lines := by simp [State.takeFault]

/-! ## State.reject -/
@[simp] theorem State.reject_cfg : s.reject.cfg = s.cfg := rfl
@[simp] theorem State.reject_inq : s.reject.inq = s.inq := rfl
@[simp] theorem State.reject_out : s.reject.out = ⟨s.rejectedStatus, []⟩ :: s.out := rfl
@[simp] theorem State.reject_resetIn : s.reject.resetIn = s.resetIn := rfl
@[simp] theorem State.reject_draws : s.reject.draws = s.draws + 1 := rfl
@[simp] theorem State.reject_fault : s.reject.fault = s.fault := rfl
@[simp] theorem State.reject_sr : s.reject.sr = s.sr := rfl
@[simp] theorem State.reject_bw : s.reject.bw = s.bw := rfl
@[simp] theorem State.reject_damp : s.reject.damp = s.damp := rfl
@[simp] theorem State.reject_decay : s.reject.decay = s.decay := rfl
@[simp] theorem State.reject_dd1 : s.reject.dd1 = s.dd1 := rfl
@[simp] theorem State.reject_dd2 : s.reject.dd2 = s.dd2 := rfl
@[simp] theorem State.reject_id1 : s.reject.id1 = s.id1 := rfl
@[simp] theorem State.reject_id2 : s.reject.id2 = s.id2 := rfl
@[simp] theorem State.reject_wet : s.reject.wet = s.wet := rfl
@[simp] theorem State.reject_dry : s.reject.dry = s.dry := rfl
@[simp] theorem State.reject_lpbw : s.reject.lpbw = s.lpbw := rfl
@[simp] theorem State.reject_lpa : s.reject.lpa = s.lpa := rfl
@[simp] theorem State.reject_lpb : s.reject.lpb = s.lpb := rfl
@[simp] theorem State.reject_ratio : s.reject.ratio = s.ratio := rfl
@[simp] theorem State.reject_lines : s.reject.lines = s.lines := rfl

/-! ## State.hardwareResetState -/
@[simp] theorem State.hardwareResetState_cfg : s.hardwareResetState.cfg = s.cfg := rfl
@[simp] theorem State.hardwareResetState_inq : s.hardwareResetState.inq = s.inq := rfl
@[simp] theorem State.hardwareResetState_out : s.hardwareResetState.out = s.out := rfl
@[simp] theorem State.hardwareResetState_resetIn : s.hardwareResetState.resetIn = s.resetIn := rfl
@[simp] theorem State.hardwareResetState_draws : s.hardwareResetState.draws = s.draws := rfl
@[simp] theorem State.hardwareResetState_fault : s.hardwareResetState.fault = none := rfl
@[simp] theorem State.hardwareResetState_sr : s.hardwareResetState.sr = 0#32 := rfl
@[simp] theorem State.hardwareResetState_bw : s.hardwareResetState.bw = 0#64 := rfl
@[simp] theorem State.hardwareResetState_damp : s.hardwareResetState.damp = 0#64 := rfl
@[simp] theorem State.hardwareResetState_decay : s.hardwareResetState.decay = 0#64 := rfl
@[simp] theorem State.hardwareResetState_dd1 : s.hardwareResetState.dd1 = 0#64 := rfl
@[simp] theorem State.hardwareResetState_dd2 : s.hardwareResetState.dd2 = 0#64 := rfl
@[simp] theorem State.hardwareResetState_id1 : s.hardwareResetState.id1 = 0#64 := rfl
@[simp] theorem State.hardwareResetState_id2 : s.hardwareResetState.id2 = 0#64 := rfl
@[simp] theorem State.hardwareResetState_wet : s.hardwareResetState.wet = 0#64 := rfl
@[simp] theorem State.hardwareResetState_dry : s.hardwareResetState.dry = 0#64 := rfl
@[simp] theorem State.hardwareResetState_lpbw : s.hardwareResetState.lpbw = 0#64 := rfl
@[simp] theorem State.hardwareResetState_lpa : s.hardwareResetState.lpa = 0#64 := rfl
@[simp] theorem State.hardwareResetState_lpb : s.hardwareResetState.lpb = 0#64 := rfl
@[simp] theorem State.hardwareResetState_ratio : s.hardwareResetState.ratio = 0#64 := rfl
@[simp] theorem State.hardwareResetState_lines : s.hardwareResetState.lines = none := rfl

/-! ## State.hardwareResetEvent -/
@[simp] theorem State.hardwareResetEvent_cfg : s.hardwareResetEvent.cfg = s.cfg := rfl
@[simp] theorem State.hardwareResetEvent_inq : s.hardwareResetEvent.inq = [] := rfl
@[simp] theorem State.hardwareResetEvent_out : s.hardwareResetEvent.out = s.out := rfl
@[simp] theorem State.hardwareResetEvent_resetIn : s.hardwareResetEvent.resetIn = false := rfl
@[simp] theorem State.hardwareResetEvent_draws : s.hardwareResetEvent.draws = s.draws := rfl
@[simp] theorem State.hardwareResetEvent_fault : s.hardwareResetEvent.fault = none := rfl
@[simp] theorem State.hardwareResetEvent_sr : s.hardwareResetEvent.sr = 0#32 := rfl
@[simp] theorem State.hardwareResetEvent_bw : s.hardwareResetEvent.bw = 0#64 := rfl
@[simp] theorem State.hardwareResetEvent_damp : s.hardwareResetEvent.damp = 0#64 := rfl
@[simp] theorem State.hardwareResetEvent_decay : s.hardwareResetEvent.decay = 0#64 := rfl
@[simp] theorem State.hardwareResetEvent_dd1 : s.hardwareResetEvent.dd1 = 0#64 := rfl
@[simp] theorem State.hardwareResetEvent_dd2 : s.hardwareResetEvent.dd2 = 0#64 := rfl
@[simp] theorem State.hardwareResetEvent_id1 : s.hardwareResetEvent.id1 = 0#64 := rfl
@[simp] theorem State.hardwareResetEvent_id2 : s.hardwareResetEvent.id2 = 0#64 := rfl
@[simp] theorem State.hardwareResetEvent_wet : s.hardwareResetEvent.wet = 0#64 := rfl
@[simp] theorem State.hardwareResetEvent_dry : s.hardwareResetEvent.dry = 0#64 := rfl
@[simp] theorem State.hardwareResetEvent_lpbw : s.hardwareResetEvent.lpbw = 0#64 := rfl
@[simp] theorem State.hardwareResetEvent_lpa : s.hardwareResetEvent.lpa = 0#64 := rfl
@[simp] theorem State.hardwareResetEvent_lpb : s.hardwareResetEvent.lpb = 0#64 := rfl
@[simp] theorem State.hardwareResetEvent_ratio : s.hardwareResetEvent.ratio = 0#64 := rfl
@[simp] theorem State.hardwareResetEvent_lines : s.hardwareResetEvent.lines = none := rfl

/-! ## State.keepRatio -/
@[simp] theorem State.keepRatio_cfg (ratio : F) : (s.keepRatio ratio).cfg = s.cfg := by
  unfold State.keepRatio; split <;> rfl
@[simp] theorem State.keepRatio_inq (ratio : F) : (s.keepRatio ratio).inq = s.inq := by
  unfold State.keepRatio; split <;> rfl
@[simp] theorem State.keepRatio_out (ratio : F) : (s.keepRatio ratio).out = s.out := by
  unfold State.keepRatio; split <;> rfl
@[simp] theorem State.keepRatio_resetIn (ratio : F) : (s.keepRatio ratio).resetIn = s.resetIn := by
  unfold State.keepRatio; split <;> rfl
@[simp] theorem State.keepRatio_draws (ratio : F) : (s.keepRatio ratio).draws = s.draws := by
  unfold State.keepRatio; split <;> rfl
@[simp] theorem State.keepRatio_fault (ratio : F) : (s.keepRatio ratio).fault = s.fault := by
  unfold State.keepRatio; split <;> rfl
@[simp] theorem State.keepRatio_sr (ratio : F) : (s.keepRatio ratio).sr = s.sr := by
  unfold State.keepRatio; split <;> rfl
@[simp] theorem State.keepRatio_bw (ratio : F) : (s.keepRatio ratio).bw = s.bw := by
  unfold State.keepRatio; split <;> rfl
@[simp] theorem State.keepRatio_damp (ratio : F) : (s.keepRatio ratio).damp = s.damp := by
  unfold State.keepRatio; split <;> rfl
@[simp] theorem State.keepRatio_decay (ratio : F) : (s.keepRatio ratio).decay = s.decay := by
  unfold State.keepRatio; split <;> rfl
@[simp] theorem State.keepRatio_dd1 (ratio : F) : (s.keepRatio ratio).dd1 = s.dd1 := by
  unfold State.keepRatio; split <;> rfl
@[simp] theorem State.keepRatio_dd2 (ratio : F) : (s.keepRatio ratio).dd2 = s.dd2 := by
  unfold State.keepRatio; split <;> rfl
@[simp] theorem State.keepRatio_id1 (ratio : F) : (s.keepRatio ratio).id1 = s.id1 := by
  unfold State.keepRatio; split <;> rfl
@[simp] theorem State.keepRatio_id2 (ratio : F) : (s.keepRatio ratio).id2 = s.id2 := by
  unfold State.keepRatio; split <;> rfl
@[simp] theorem State.keepRatio_wet (ratio : F) : (s.keepRatio ratio).wet = s.wet := by
  unfold State.keepRatio; split <;> rfl
@[simp] theorem State.keepRatio_dry (ratio : F) : (s.keepRatio ratio).dry = s.dry := by
  unfold State.keepRatio; split <;> rfl
@[simp] theorem State.keepRatio_lpbw (ratio : F) : (s.keepRatio ratio).lpbw = s.lpbw := by
  unfold State.keepRatio; split <;> rfl
@[simp] theorem State.keepRatio_lpa (ratio : F) : (s.keepRatio ratio).lpa = s.lpa := by
  unfold State.keepRatio; split <;> rfl
@[simp] theorem State.keepRatio_lpb (ratio : F) : (s.keepRatio ratio).lpb = s.lpb := by
  unfold State.keepRatio; split <;> rfl
@[simp] theorem State.keepRatio_ratio (ratio : F) :
    (s.keepRatio ratio).ratio = match s.cfg.tapScale with | .fixed => s.ratio | .scaled => ratio := by
  unfold State.keepRatio; cases s.cfg.tapScale <;> rfl
@[simp] theorem State.keepRatio_lines (ratio : F) : (s.keepRatio ratio).lines = s.lines := by
  unfold State.keepRatio; split <;> rfl

end Sys2Proof.Machine
end

