-- ==== Sys2Proof/Laws/Parameters.lean ====
section
/-! SUPPORT. What the parameters and INIT can do to a state when they answer. -/

namespace Sys2Proof.Machine

variable {c : Ctx} {p : Params} {ls ls' : Lines} {s t : State}

theorem Lines.setLength_ok {l : LineName} {len : F} (h : ls.setLength c l len = .ok ls') :
    ∃ ln, (ls.get l).setLength c len = .ok ln ∧ ls' = ls.set l ln := map_ok h

theorem Lines.setLength_wf {l : LineName} {len : F} (hw : ls.wf c.cfg = true) (h : ls.setLength c l len = .ok ls') :
    ls'.wf c.cfg = true := by
  obtain ⟨ln, h1, rfl⟩ := Lines.setLength_ok h
  exact Lines.wf_set hw (Line.setLength_wf (Lines.wf_iff.1 hw l) h1)

theorem Lines.setLengths_wf {ratio : F} :
    ∀ {table : List (LineName × Nat)} {ls : Lines}, ls.wf c.cfg = true →
      Lines.setLengths c ratio table ls = .ok ls' → ls'.wf c.cfg = true
  | [], _, hw, h => by cases h; exact hw
  | (l, canon) :: rest, ls, hw, h => by
    unfold Lines.setLengths at h
    split at h
    · cases h
    · rename_i ls1 h1
      exact Lines.setLengths_wf (Lines.setLength_wf (c := (c.at 14).at (l.number + 1)) hw h1) h

/-- If a parameter acts on the lines, there was a network, and nothing but the lines differs. -/
theorem State.onLines_ok {body : Lines → Except Stop Lines} (h : s.onLines body = .ok t) :
    ∃ ls ls', s.lines = some ls ∧ body ls = .ok ls' ∧ t = { s with lines := some ls' } := by
  unfold State.onLines at h
  split at h
  · cases h
  · rename_i ls hl
    obtain ⟨ls', h1, rfl⟩ := map_ok h
    exact ⟨ls, ls', hl, h1, rfl⟩

theorem State.onLines_some (hl : s.lines = some ls) (body : Lines → Except Stop Lines) :
    s.onLines body = (body ls).map fun ls' => { s with lines := some ls' } := by
  simp [State.onLines, hl]

/-- If SIZE answers, no length was too long, and all twelve network lines took their scaled lengths (R190). -/
theorem applySize_ok {v : F} (h : applySize c v s = .ok t) :
    (canonicalLengths.any fun e => tooLong c (scaledLength (c.at 2) (sizeRatio (c.at 1) v s) e.1 e.2)) = false ∧
      ∃ ls ls', s.lines = some ls ∧
        Lines.setLengths (c.at 2) (sizeRatio (c.at 1) v s) canonicalLengths ls = .ok ls' ∧
        t = ({ s with lines := some ls' } : State).keepRatio (sizeRatio (c.at 1) v s) := by
  unfold applySize at h
  simp only at h
  split at h
  · cases h
  · rename_i hlong
    obtain ⟨u, h1, rfl⟩ := map_ok h
    obtain ⟨ls, ls', hl, hb, rfl⟩ := State.onLines_ok h1
    exact ⟨by simpa using hlong, ls, ls', hl, hb, rfl⟩

/-- A line right after creation meets the line invariants (45_control.md R212). -/
theorem newLine_wf (hp : p.sane = true) (sr : Word) (m : Bool) : (newLine p sr m).wf p = true := by
  simp only [Params.sane, Bool.and_eq_true, decide_eq_true_eq] at hp
  rw [Line.wf_iff]
  exact ⟨.inl rfl, by show 0 + 1 ≤ p.cap0; omega, by show p.cap0 ≤ p.maxcap; omega, rfl, rfl,
    by show (-(2 ^ 31 : Int) ≤ 0 ∧ (0 : Int) < 2 ^ 31); omega, rfl, rfl⟩

/-- The thirteen lines right after creation meet the line invariants. -/
theorem newLines_wf (hp : p.sane = true) (sr : Word) : (newLines p sr).wf p = true := by
  rw [Lines.wf_iff]
  intro l
  cases l <;> exact newLine_wf hp sr _

end Sys2Proof.Machine
end

