-- ==== Sys2Proof/Laws/PerInstr.lean ====
section
/-! SUPPORT. Facts about every command as syntax, one lemma per constructor of Instr. -/

namespace Sys2Proof.Laws

/-- The request of a command is its command word and as many operand items as its OPC takes (30_encoding.md R80, R88). -/
def EncodeLength.Statement (i : Instr) : Prop := (encode i).length = 1 + i.opcode.operandCount

theorem EncodeLength.nop : EncodeLength.Statement .nop := rfl

theorem EncodeLength.init (sr : Word) : EncodeLength.Statement (.init sr) := rfl

theorem EncodeLength.deinit : EncodeLength.Statement .deinit := rfl

theorem EncodeLength.rdreg (reg : RegName) : EncodeLength.Statement (.rdreg reg) := rfl

theorem EncodeLength.lrd (line : LineName) (field : FieldName) : EncodeLength.Statement (.lrd line field) := rfl

theorem EncodeLength.lrdbuf (line : LineName) (index : Word) : EncodeLength.Statement (.lrdbuf line index) := rfl

theorem EncodeLength.setpPredelay (value : F) : EncodeLength.Statement (.setpPredelay value) := rfl

theorem EncodeLength.setpBandwidth (value : F) : EncodeLength.Statement (.setpBandwidth value) := rfl

theorem EncodeLength.setpDamping (value : F) : EncodeLength.Statement (.setpDamping value) := rfl

theorem EncodeLength.setpDecay (value : F) : EncodeLength.Statement (.setpDecay value) := rfl

theorem EncodeLength.setpDiffusion1 (value : F) : EncodeLength.Statement (.setpDiffusion1 value) := rfl

theorem EncodeLength.setpDiffusion2 (value : F) : EncodeLength.Statement (.setpDiffusion2 value) := rfl

theorem EncodeLength.setpIndiff1 (value : F) : EncodeLength.Statement (.setpIndiff1 value) := rfl

theorem EncodeLength.setpIndiff2 (value : F) : EncodeLength.Statement (.setpIndiff2 value) := rfl

theorem EncodeLength.setpModulation (value : F) : EncodeLength.Statement (.setpModulation value) := rfl

theorem EncodeLength.setpSize (value : F) : EncodeLength.Statement (.setpSize value) := rfl

theorem EncodeLength.setpWet (value : F) : EncodeLength.Statement (.setpWet value) := rfl

theorem EncodeLength.setpDry (value : F) : EncodeLength.Statement (.setpDry value) := rfl

theorem EncodeLength.frame (left right : F) : EncodeLength.Statement (.frame left right) := rfl

theorem EncodeLength.pmono (x : F) : EncodeLength.Statement (.pmono x) := rfl

theorem EncodeLength.pstereo (left right : F) : EncodeLength.Statement (.pstereo left right) := rfl

theorem EncodeLength.lsetlen (line : LineName) (length : F) : EncodeLength.Statement (.lsetlen line length) := rfl

theorem EncodeLength.lpush (line : LineName) (sample : F) : EncodeLength.Statement (.lpush line sample) := rfl

theorem EncodeLength.lout (line : LineName) : EncodeLength.Statement (.lout line) := rfl

theorem EncodeLength.ltap (line : LineName) (k : Word) : EncodeLength.Statement (.ltap line k) := rfl

theorem EncodeLength.ldiff (line : LineName) (x coefficient : F) : EncodeLength.Statement (.ldiff line x coefficient) := rfl

theorem EncodeLength.lmode (line : LineName) (mode : Word) : EncodeLength.Statement (.lmode line mode) := rfl

theorem EncodeLength.lfb (line : LineName) (feedback : F) : EncodeLength.Statement (.lfb line feedback) := rfl

theorem EncodeLength.lmod (line : LineName) (frequency extent : F) : EncodeLength.Statement (.lmod line frequency extent) := rfl

theorem EncodeLength.lmoden (line : LineName) (enable : Word) : EncodeLength.Statement (.lmoden line enable) := rfl

end Sys2Proof.Laws
end

