-- ==== Sys2Proof/Tests/Slice0.lean ====
section
/-! SUPPORT. Tests on fixed values, each with its source in spec/, and for every statement with hypotheses a witness that
meets them together. -/

namespace Sys2Proof.Tests

open Sys2Proof Sys2Proof.Machine

-- One theorem after another: many at once each take a thread with its own stack.
set_option Elab.async false

/-! ## Well-formed commands: what each check refuses -/

theorem test_wellFormed_refuses_wide_operands :
    ([.setpPredelay 0x100000000#64, .setpBandwidth 0x100000000#64, .setpDamping 0x100000000#64, .setpDecay 0x100000000#64,
      .setpDiffusion1 0x100000000#64, .setpDiffusion2 0x100000000#64, .setpIndiff1 0x100000000#64,
      .setpIndiff2 0x100000000#64, .setpModulation 0x100000000#64, .setpSize 0x100000000#64, .setpWet 0x100000000#64,
      .setpDry 0x100000000#64, .frame 0#64 0x100000000#64, .frame 0x100000000#64 0#64, .pmono 0x100000000#64,
      .pstereo 0#64 0x100000000#64, .pstereo 0x100000000#64 0#64, .lsetlen .in0 0x100000000#64,
      .lpush .in0 0x100000000#64, .ldiff .in0 0#64 0x100000000#64, .ldiff .in0 0x100000000#64 0#64,
      .lfb .in0 0x100000000#64, .lmod .in0 0#64 0x100000000#64, .lmod .in0 0x100000000#64 0#64] : List Instr).all
      (fun i => !i.wellFormed .binary32 && i.wellFormed .binary64) = true := by decide

theorem test_wellFormed_refuses_mode_3 : Instr.wellFormed .binary32 (.lmode .in0 3#32) = false := by decide

theorem test_wellFormed_refuses_enable_2 : Instr.wellFormed .binary32 (.lmoden .in0 2#32) = false := by decide

/-! ## Decoding: words written out from 30_encoding.md R81 to R85; most stand in 95_test_vectors.md section 2.8 -/

/-- The items decode to the command, with none left. -/
def reads (items : List Item) (i : Instr) : Bool := decode .binary32 items == .command i []

theorem test_decode_control :
    (reads [0x00000000#64] .nop && reads [0x00000001#64, 0x0000AC44#64] (.init 44100#32) && reads [0x00000002#64] .deinit &&
      reads [0x00000003#64] (.rdreg .status) && reads [0x00000D03#64] (.rdreg .lpb) &&
      reads [0x00010004#64] (.lrd .in0 .n) && reads [0x00050404#64] (.lrd .moda .phase) &&
      reads [0x00030C04#64] (.lrd .pre .w) && reads [0x00000005#64, 0x00000400#64] (.lrdbuf .in0 1024#32)) = true := by decide

theorem test_decode_setp :
    (reads [0x00000010#64, 0x3C23D70A#64] (.setpPredelay 0x3C23D70A#64) &&
      reads [0x00000110#64, 0x46E88200#64] (.setpBandwidth 0x46E88200#64) &&
      reads [0x00000210#64, 1#64] (.setpDamping 1#64) && reads [0x00000310#64, 0x3F000000#64] (.setpDecay 0x3F000000#64) &&
      reads [0x00000410#64, 1#64] (.setpDiffusion1 1#64) && reads [0x00000510#64, 1#64] (.setpDiffusion2 1#64) &&
      reads [0x00000610#64, 1#64] (.setpIndiff1 1#64) && reads [0x00000710#64, 1#64] (.setpIndiff2 1#64) &&
      reads [0x00000810#64, 1#64] (.setpModulation 1#64) && reads [0x00000910#64, 0x42A00000#64] (.setpSize 0x42A00000#64) &&
      reads [0x00000A10#64, 0xFF800000#64] (.setpWet 0xFF800000#64) && reads [0x00000B10#64, 0#64] (.setpDry 0#64)) =
      true := by decide

theorem test_decode_network :
    (reads [0x00000020#64, 0x3F800000#64, 0x40000000#64] (.frame 0x3F800000#64 0x40000000#64) &&
      reads [0x00000021#64, 0x3E800000#64] (.pmono 0x3E800000#64) &&
      reads [0x00000022#64, 0x3F000000#64, 0xBE800000#64] (.pstereo 0x3F000000#64 0xBE800000#64)) = true := by decide

theorem test_decode_line :
    (reads [0x00000030#64, 0x40400000#64] (.lsetlen .in0 0x40400000#64) &&
      reads [0x00000131#64, 0x3F800000#64] (.lpush .in1 0x3F800000#64) && reads [0x00000032#64] (.lout .in0) &&
      reads [0x00000033#64, 0xFFFFFFFF#64] (.ltap .in0 0xFFFFFFFF#32) &&
      reads [0x00000633#64, 0x0000010A#64] (.ltap .dla 266#32) &&
      reads [0x00000234#64, 0x3F800000#64, 0x3F000000#64] (.ldiff .in2 0x3F800000#64 0x3F000000#64) &&
      reads [0x00000035#64, 2#64] (.lmode .in0 2#32) && reads [0x00000136#64, 0x3F000000#64] (.lfb .in1 0x3F000000#64) &&
      reads [0x00000137#64, 0x3E800000#64, 0x40000000#64] (.lmod .in1 0x3E800000#64 0x40000000#64) &&
      reads [0x00000138#64, 1#64] (.lmoden .in1 1#32)) = true := by decide

/-- 30_encoding.md R86, 95_test_vectors.md DL-24, CT-10 to CT-13, PA-16, MX-4. -/
theorem test_decode_refuses :
    ([[0x00000D31#64, 0#64], [0x000E0004#64], [0x00000E03#64], [0x00000006#64], [0x01000000#64], [0x00000C10#64, 0#64],
      [0x00000121#64, 0#64], [0x00000D04#64], [0x00010031#64, 0#64]] : List (List Item)).all
      (fun items => match decode .binary32 items with
        | .illegal _ rest => rest.isEmpty
        | .waiting => false
        | .command _ _ => false) = true := by decide

/-! ## Small states -/

/-- A line of length 3 with nothing in it. -/
def plain : Line where
  cap := 16
  n := 6
  off := 3
  w := 0
  frac := 0#64
  phase := 0#64
  freq := 0#64
  ext := 0#64
  exc := 0
  mode := .none
  fb := 0#64
  aps := 0#64
  moden := false
  lsr := 44100#32
  buf := []

/-- The line of 95_test_vectors.md DL-2: length 3, after pushes of 1.0, 2.0 and 3.0. -/
def pushed : Line := { plain with w := 3, buf := [(0, 0x3F800000#64), (1, 0x40000000#64), (2, 0x40400000#64)] }

/-- Thirteen plain lines, lines 4 and 5 modulated with extent 0. -/
def plainLines : Lines where
  in0 := plain
  in1 := plain
  in2 := plain
  in3 := plain
  moda := { plain with moden := true, mode := .linear }
  modb := { plain with moden := true, mode := .linear }
  dla := plain
  dlb := plain
  rca := plain
  rcb := plain
  difa := plain
  difb := plain
  pre := plain

/-- A network at 44100 Hz whose line IN0 is `ln`. -/
def netWith (ln : Line) : State :=
  { State.reset with sr := 44100#32, dry := 0x3F800000#64, lines := some { plainLines with in0 := ln } }

/-- A network of plain lines. -/
def net : State := netWith plain

/-- A network with the ECAP fault recorded. -/
def faulted : State := { net with fault := some .ecap }

/-- The command answers a next state with this property. -/
def after (i : Instr) (s : State) (p : State → Bool) : Bool :=
  match exec i s with
  | .next t => p t
  | .fault _ => false
  | .refused _ => false

/-- The latest response of a state. -/
def answers (status : Word) (results : List Item) (t : State) : Bool := t.out.head? == some ⟨status, results⟩

/-- A property of a line of a state. -/
def line (l : LineName) (p : Line → Bool) (t : State) : Bool := t.lines.elim false fun ls => p (ls.get l)

/-! ## One step each, from 95_test_vectors.md section 2 and the examples of the rules -/

theorem test_nop : after .nop State.reset (answers 0#32 []) = true := by decide +kernel

/-- 10_state.md R23 and section 4, at 44100 Hz. -/
theorem test_init : after (.init 44100#32) State.reset (fun t => answers 1#32 [] t && t.bw == 0x3F000000#64 &&
    t.damp == 0x3D4CCCCD#64 && t.decay == 0x3F333333#64 && t.id1 == 0x3F0CCCCD#64 && t.wet == 0x3F004DCE#64 &&
    t.dry == 0x3F800000#64 && line .dla (fun ln => ln.cap == 13199 && ln.n == 13196) t &&
    line .moda (fun ln => ln.freq == 0x37EDC5B8#64 && ln.ext == 0x42700000#64 && ln.mode == .linear && ln.moden) t &&
    line .pre (fun ln => ln.n == 88 && ln.off == 44) t) = true := by decide +kernel

/-- CT-6. -/
theorem test_init_too_fast : after (.init 3503999#32) net (fun t => answers 0x502#32 [] t && t.lines.isNone) = true := by
  decide +kernel

/-- CT-8. -/
theorem test_deinit : after .deinit faulted (fun t => answers 0#32 [] t && t.lines.isNone && t.sr == 0#32) = true := by
  decide +kernel

/-- CT-2. -/
theorem test_rdreg_needs_network : after (.rdreg .sr) State.reset (answers 0x202#32 []) = true := by decide +kernel

theorem test_lrd_excursion : after (.lrd .in0 .exc) (netWith { plain with exc := -1 }) (answers 1#32 [0xFFFFFFFF#64]) = true := by
  decide +kernel

/-- CT-9. -/
theorem test_lrdbuf_capacity : (after (.lrdbuf .in0 15#32) net (answers 1#32 [0#64]) &&
    after (.lrdbuf .in0 16#32) net (answers 0x103#32 [])) = true := by decide +kernel

/-- PA-1. -/
theorem test_setpPredelay : after (.setpPredelay 0x3D4CCCCD#64) net
    (line .pre fun ln => ln.n == 4410 && ln.off == 2205 && ln.cap == 4411 && ln.frac == 0#64) = true := by decide +kernel

/-- PA-3. -/
theorem test_setpBandwidth : after (.setpBandwidth 0x461C4000#64) net (fun t => t.bw == 0x3E683315#64) = true := by
  decide +kernel

/-- PA-8, with the constants of 10_state.md section 4. -/
theorem test_setpModulation : after (.setpModulation 0x3F000000#64) net (fun t =>
    line .moda (fun ln => ln.ext == 0x41F00000#64 && ln.freq == 0x37EDC5B8#64) t &&
      line .modb (fun ln => ln.ext == 0x41A00000#64 && ln.freq == 0x38E7971B#64) t) = true := by decide +kernel

/-- PA-9. -/
theorem test_setpSize : after (.setpSize 0x3F000000#64) net (fun t =>
    line .in0 (fun ln => ln.n == 210 && ln.frac == 0x3E552800#64) t &&
      line .dla (fun ln => ln.n == 6598 && ln.off == 3299 && ln.frac == 0x3E74C000#64) t) = true := by decide +kernel

/-- PA-13. -/
theorem test_setpSize_too_large : after (.setpSize 0x42A00000#64) net (fun t =>
    answers 0x503#32 [] t && line .in0 (fun ln => ln.n == 6) t) = true := by decide +kernel

/-- PA-14, PA-15. -/
theorem test_setpWet : after (.setpWet 0x40C00000#64) net (fun t => t.wet == 0x3FFF64C2#64) = true := by decide +kernel

theorem test_setpDry : after (.setpDry 0xC1A00000#64) net (fun t => t.dry == 0x3DCCCCCD#64) = true := by decide +kernel

/-- DL-6. -/
theorem test_lsetlen : after (.lsetlen .in0 0x40200000#64) (netWith pushed) (line .in0 fun ln =>
    ln.n == 4 && ln.off == 2 && ln.frac == 0x3F000000#64 && ln.w == 3 && ln.buf == pushed.buf) = true := by decide +kernel

/-- DL-15. -/
theorem test_lsetlen_grows : after (.lsetlen .in0 0x447A0000#64) (netWith pushed)
    (line .in0 fun ln => ln.n == 2000 && ln.cap == 2001 && ln.w == 3) = true := by decide +kernel

/-- DL-11, the second push: SIN(fl(pi)) × 2 has floor -1. -/
theorem test_lpush_modulates : after (.lpush .in0 0#64)
    (netWith { plain with moden := true, freq := 0x3E800000#64, ext := 0x40000000#64, phase := 0x3FC90FDB#64 })
    (line .in0 fun ln => ln.phase == 0x40490FDB#64 && ln.exc == -1 && ln.frac == 0x3F7FFFFD#64 && ln.w == 1) = true := by
  decide +kernel

/-- DL-13, the third push: 3.0 and half of slot 0. -/
theorem test_lpush_feeds_back : after (.lpush .in0 0x40400000#64)
    (netWith { plain with fb := 0x3F000000#64, w := 2, buf := [(0, 0x3F800000#64), (1, 0x40000000#64)] })
    (line .in0 fun ln => Slots.read ln.buf 2 == 0x40600000#64 && ln.w == 3) = true := by decide +kernel

/-- DL-8, DL-9: a fraction of one half, linear and all-pass. -/
theorem test_lout_linear : after (.lout .in0) (netWith { pushed with frac := 0x3F000000#64, mode := .linear })
    (answers 1#32 [0x3FC00000#64]) = true := by decide +kernel

theorem test_lout_allpass : after (.lout .in0) (netWith { pushed with frac := 0x3F000000#64, mode := .allpass })
    (fun t => answers 1#32 [0x40155555#64] t && line .in0 (fun ln => ln.aps == 0x40155555#64) t) = true := by decide +kernel

/-- DL-4. -/
theorem test_ltap : (after (.ltap .in0 1#32) (netWith pushed) (answers 1#32 [0x40400000#64]) &&
    after (.ltap .in0 0xFFFFFFFF#32) (netWith pushed) (answers 1#32 [0x3F800000#64])) = true := by decide +kernel

/-- DF-1 and DF-7, the fourth LDIFF. -/
theorem test_ldiff : after (.ldiff .in0 0#64 0x3F000000#64) (netWith { plain with w := 3, buf := [(0, 0x3F800000#64)] })
    (fun t => answers 1#32 [0x3F400000#64] t && line .in0 (fun ln => Slots.read ln.buf 3 == 0xBF000000#64) t) = true := by
  decide +kernel

theorem test_lmode : after (.lmode .in1 1#32) net (line .in1 fun ln => ln.mode == .linear) = true := by decide +kernel

theorem test_lfb : after (.lfb .in1 0x3F000000#64) net (line .in1 fun ln => ln.fb == 0x3F000000#64) = true := by decide +kernel

theorem test_lmod : after (.lmod .in1 0x3E800000#64 0x40000000#64) net
    (line .in1 fun ln => ln.freq == 0x3E800000#64 && ln.ext == 0x40000000#64) = true := by decide +kernel

theorem test_lmoden : after (.lmoden .in1 1#32) net (line .in1 fun ln => ln.moden) = true := by decide +kernel

/-- N8. -/
theorem test_frame_downmix : after (.frame 0x3E800000#64 0x3F400000#64) net (fun t =>
    line .pre (fun ln => Slots.read ln.buf 0 == 0x3F000000#64 && ln.w == 1) t && answers 1#32 [0#64, 0#64] t) = true := by
  decide +kernel

/-- 42_network.md R162, row 1: DLB at k = 266, that is slot (0 - 266) mod 6 = 4; row 2 reads slot 2. -/
theorem test_frame_taps :
    tapSum ⟨defaultParams .binary32, 0, 0⟩ 0#64 { plainLines with dlb := { plain with buf := [(4, 0x3F800000#64)] } }
      defaultTapsLeft 0#64 = .ok 0x3F19999A#64 := by decide +kernel

/-- 44_buffer_mix.md R200, R201: DRY = 1 and WET = +0 return the input. -/
theorem test_pmono : after (.pmono 0x3F800000#64) net (answers 1#32 [0x3F800000#64]) = true := by decide +kernel

theorem test_pstereo : after (.pstereo 0x3F000000#64 0xBE800000#64) net
    (answers 1#32 [0x3F000000#64, 0xBE800000#64]) = true := by decide +kernel

/-- FT-1 and FT-2. -/
theorem test_fault_state : (after (.lpush .in0 0x3F800000#64) faulted (answers 0x507#32 []) &&
    after (.rdreg .status) faulted (answers 0x503#32 [0x503#64]) &&
    after (.lrdbuf .in0 1024#32) faulted (answers 0x503#32 [])) = true := by decide +kernel

/-- FT-3. -/
theorem test_priority : after (.lmode .in0 3#32) State.reset (answers 0x102#32 []) = true := by decide +kernel

/-- The step from reset, through the fetch: CT-2, and FT-3 for an illegal word. -/
theorem test_step_fetches : ([(0x00000103, 0x202#32), (0x00000120, 0x102#32), (0x00000000, 0#32)].all fun e =>
    match step (State.reset.withFetchWord 32 e.1) with
    | .next t => answers e.2 [] t
    | .fault _ => false
    | .refused _ => false) = true := by decide +kernel

/-- 92_eei_decisions.md D4: POW10 of a whole number and of -inf. -/
theorem test_pow10 : Fp.pow10 ⟨defaultParams .binary32, 0, 0⟩ 0x40000000#64 = 0x42C80000#64 ∧
    Fp.pow10 ⟨defaultParams .binary32, 0, 0⟩ 0xFF800000#64 = 0#64 := by decide +kernel

/-! ## Witnesses: for each statement with hypotheses, states and operands that meet them together -/

/-- A command that answers has a next state. -/
theorem exists_of_after {i : Instr} {s : State} {p : State → Bool} (h : after i s p = true) :
    ∃ t, exec i s = .next t ∧ p t = true := by
  unfold after at h
  split at h
  · exact ⟨_, by assumption, h⟩
  · cases h
  · cases h

/-- The commands and a state on which one sets FAULT with a cause. -/
theorem faults_of_after {i : Instr} {s : State} {cause : Cause} (h : after i s (fun t => t.fault == some cause) = true) :
    ∃ t, exec i s = .next t ∧ t.fault = some cause := by
  obtain ⟨t, h1, h2⟩ := exists_of_after h
  exact ⟨t, h1, by simpa using h2⟩

theorem net_running : net.running { plainLines with in0 := plain } := ⟨rfl, rfl⟩

theorem net_inv : net.inv = true := by decide +kernel

/-- Every operand at the largest value of its width, and the u32 operands at their bounds. -/
theorem witness_DecodeOfEncodeIsTheCommand :
    Instr.wellFormed .binary32 (.ldiff .pre 0xFFFFFFFF#64 0xFFFFFFFF#64) = true ∧
      Instr.wellFormed .binary64 (.frame 0xFFFFFFFFFFFFFFFF#64 0#64) = true ∧
      Instr.wellFormed .binary32 (.lmode .pre 2#32) = true ∧ Instr.wellFormed .binary32 (.lmoden .pre 1#32) = true := by
  decide

theorem witness_DecodedRequestHasTheCommandsWord :
    decodeRequest .binary32 ⟨0x00000C35#32, 2#64, 0#64⟩ = .ok (.lmode .pre 2#32) ∧
      decodeRequest .binary32 ⟨0x00000C35#32, 3#64, 0#64⟩ = .ok (.lmode .pre 3#32) ∧
      ∀ x ∈ [3#64, (0#64 : Item)], x.toNat < 2 ^ 32 :=
  ⟨by decide, by decide, by simp⟩

theorem witness_RequestLengthIsFixedByOpc :
    decode .binary32 [0x00000031#64] = .waiting ∧ decode .binary32 [0x00000D31#64, 7#64, 8#64] =
      .illegal (.selOutOfRange .lpush) [8#64] := by decide

theorem witness_StepPerformsTheDecodedCommand :
    (State.reset.withFetchWord 32 0x00000103).resetIn = false ∧
      decode .binary32 (State.reset.withFetchWord 32 0x00000103).inq = .command (.rdreg .sr) [] := by decide

theorem witness_StepHoldsTheStateBetweenRequests :
    State.reset.resetIn = false ∧ decode State.reset.cfg.numFmt State.reset.inq = .waiting ∧
      decode State.reset.cfg.numFmt ({ State.reset with inq := [0x00000020#64, 0#64] } : State).inq = .waiting := by decide

/-- With FAULT = 0, and with FAULT = 1 for an opcode just below and just above the accepted ones. -/
theorem witness_IllegalWordFaultsOrIsRejected :
    net.fault = none ∧ faulted.fault = some .ecap ∧ net.resetIn = false ∧
      decode .binary32 [0x01000005#64, 0#64] = .illegal (.reservedNotZero .lrdbuf) [] ∧
      decode .binary32 [0x00000006#64] = .illegal (.undefinedOpcode 6) [] := by decide +kernel

theorem witness_HardwareResetClearsEveryRegister : ({ faulted with resetIn := true } : State).resetIn = true := rfl

theorem witness_EveryCommandReturnsOneResponse :
    (∃ t, exec (.rdreg .sr) net = .next t ∧ t.fault = none) ∧
      (∃ t, exec (.lmode .in0 3#32) net = .next t ∧ t.fault = some .eillcmd) ∧
      ∃ t, exec (.lout .in0) faulted = .next t ∧ faulted.fault.isSome = true := by
  refine ⟨?_, faults_of_after (by decide +kernel), ?_⟩
  · obtain ⟨t, h1, h2⟩ := exists_of_after (i := .rdreg .sr) (s := net) (p := fun t => t.fault.isNone) (by decide +kernel)
    exact ⟨t, h1, by simpa using h2⟩
  · obtain ⟨t, h1, -⟩ := exists_of_after (i := .lout .in0) (s := faulted) (p := fun _ => true) (by decide +kernel)
    exact ⟨t, h1, rfl⟩

theorem witness_FirstFaultIsRecordedLaterOnesAreNot : net.fault = none ∧ faulted.fault = some .ecap := ⟨rfl, rfl⟩

theorem witness_FaultingCommandChangesStatusOnly :
    net.fault = none ∧ ∃ t, exec (.lmode .in0 3#32) net = .next t ∧ t.fault = some .eillcmd :=
  ⟨rfl, faults_of_after (by decide +kernel)⟩

theorem witness_FaultStateRejectsOtherCommands :
    faulted.fault = some .ecap ∧ Instr.opcode (.lout .in0) ∉ [.nop, .init, .deinit, .rdreg, .lrd, .lrdbuf] :=
  ⟨rfl, by decide⟩

theorem witness_FaultIsStickyUntilInitOrDeinit :
    faulted.fault = some .ecap ∧ ∃ t, exec (.lrdbuf .in0 16#32) faulted = .next t := by
  obtain ⟨t, h, -⟩ := exists_of_after (i := .lrdbuf .in0 16#32) (s := faulted) (p := fun _ => true) (by decide +kernel)
  exact ⟨rfl, t, h⟩

theorem witness_CommandsNeedANetwork :
    State.reset.fault = none ∧ State.reset.lines = none ∧ Instr.rdreg .sr ≠ .nop ∧ (∀ sr, Instr.rdreg .sr ≠ .init sr) ∧
      Instr.rdreg .sr ≠ .deinit ∧ Instr.rdreg .sr ≠ .rdreg .status := by
  refine ⟨rfl, rfl, ?_, ?_, ?_, ?_⟩ <;> simp

theorem witness_OutOfRangeOperandIsIllegal : State.reset.fault = none ∧ 2 < (3#32).toNat ∧ 1 < (2#32).toNat :=
  ⟨rfl, by decide, by decide⟩

/-- Each of the six causes is raised by some command. -/
theorem witness_EachCauseComesFromItsCommands :
    (∃ t, exec (.lrdbuf .in0 16#32) net = .next t ∧ t.fault = some .eillcmd) ∧
      (∃ t, exec (.lout .in0) State.reset = .next t ∧ t.fault = some .enotinit) ∧
      (∃ t, exec (.init 0#32) State.reset = .next t ∧ t.fault = some .ebadrate) ∧
      (∃ t, exec (.lout .in0) (netWith { plain with n := 0, off := 0 }) = .next t ∧ t.fault = some .elineunset) ∧
      (∃ t, exec (.lsetlen .in0 0x7F800000#64) net = .next t ∧ t.fault = some .ecap) ∧
      ∃ t, exec (.lpush .in0 0#64) (netWith { plain with moden := true, freq := 0x3E800000#64, ext := 0x7F800000#64 }) =
        .next t ∧ t.fault = some .emodrange :=
  ⟨faults_of_after (by decide +kernel), faults_of_after (by decide +kernel), faults_of_after (by decide +kernel),
    faults_of_after (by decide +kernel), faults_of_after (by decide +kernel), faults_of_after (by decide +kernel)⟩

theorem witness_StatusFieldsAreAsListed : net.fault = none ∧ faulted.fault = some .ecap := ⟨rfl, rfl⟩

theorem witness_RdregReturnsTheRegister : net.lines ≠ none := by simp [net, netWith]

theorem witness_LrdReturnsTheField : net.lines = some { plainLines with in0 := plain } := rfl

/-- The last slot, and the first index that is none. -/
theorem witness_LrdbufReturnsTheSlot :
    net.lines = some { plainLines with in0 := plain } ∧ (15#32).toNat < (plainLines.get .in0).cap ∧
      (plainLines.get .in0).cap ≤ (16#32).toNat := ⟨rfl, by decide, by decide⟩

/-- A running network: the hypothesis of SetpStoresTheCoefficient, SetpStoresTheComputedGain,
SetpModulationSetsTheTwoLines and LineSettingsStoreTheirOperands. -/
theorem witness_SetpStoresTheCoefficient : ∃ ls, net.running ls := ⟨_, net_running⟩

theorem witness_SetpStoresTheComputedGain : ∃ ls, net.running ls := ⟨_, net_running⟩

theorem witness_SetpModulationSetsTheTwoLines : ∃ ls, net.running ls := ⟨_, net_running⟩

theorem witness_LineSettingsStoreTheirOperands : ∃ ls, net.running ls := ⟨_, net_running⟩

/-! Lengths: products of finite values, the same at every place of a free value. -/

/-- The default configuration, at a place. -/
def here : Ctx := ⟨defaultParams .binary32, 0, 0⟩

theorem fmt_of_cfg {c : Ctx} (h : c.cfg = here.cfg) : c.fmt = here.fmt := by simp [Ctx.fmt, h]

theorem tooLong_place {c : Ctx} (h : c.cfg = here.cfg) (len : F) : tooLong c len = tooLong here len := by
  unfold tooLong
  rw [fmt_of_cfg h, h]

/-- A value of 0.05 s fits; a value of 1000 s, and an infinite one, do not. -/
theorem witness_SetpPredelaySetsTheLine :
    (∃ ls, net.running ls) ∧ net.inv = true ∧
      (∀ c : Ctx, c.cfg = net.cfg → tooLong c (Fp.mul c 0x3D4CCCCD#64 (Fp.ofInt net.cfg.numFmt net.sr.toNat)) = false) ∧
      ∀ c : Ctx, c.cfg = net.cfg → tooLong c (Fp.mul c 0x447A0000#64 (Fp.ofInt net.cfg.numFmt net.sr.toNat)) = true := by
  refine ⟨⟨_, net_running⟩, net_inv, fun c h => ?_, fun c h => ?_⟩
  · rw [tooLong_place h, Fp.mul_place (d := here) h (by decide +kernel) (by decide +kernel)]
    decide +kernel
  · rw [tooLong_place h, Fp.mul_place (d := here) h (by decide +kernel) (by decide +kernel)]
    decide +kernel

/-- The ratio of a finite size at a finite rate, the same at every place. -/
theorem ratio_place {c d : Ctx} (hc : c.cfg = here.cfg) (hd : d.cfg = here.cfg) {v rate r : F}
    (hv : Fp.isFinite .binary32 v = true) (hs : Fp.isFinite .binary32 rate = true)
    (hm : Fp.isFinite .binary32 (Fp.mul here v rate) = true)
    (hr : Fp.div here (Fp.mul here v rate) (Fp.lit .binary32 29761 1) = r) :
    Fp.div c (Fp.mul d v rate) (Fp.lit .binary32 29761 1) = r := by
  rw [Fp.mul_place (d := here) hd hv hs,
    Fp.div_place (d := here) hc hm (by decide +kernel) (by decide +kernel), hr]

/-- No canonical length times the ratio of SIZE 1 at 44100 Hz is too long. -/
theorem unit_lengths_fit {c : Ctx} (h : c.cfg = here.cfg) :
    ∀ e ∈ canonicalLengths, ∀ d : Ctx, d.cfg = here.cfg →
      tooLong c (Fp.mul d (Fp.ofInt .binary32 e.2) 0x3FBDABCA#64) = false := by
  intro e he d hd
  have hall : canonicalLengths.all (fun e => Fp.isFinite .binary32 (Fp.ofInt .binary32 e.2) &&
      !tooLong here (Fp.mul here (Fp.ofInt .binary32 e.2) 0x3FBDABCA#64)) = true := by decide +kernel
  have h1 := List.all_eq_true.1 hall e he
  simp only [Bool.and_eq_true, Bool.not_eq_true'] at h1
  rw [tooLong_place h, Fp.mul_place (d := here) hd h1.1 (by decide +kernel)]
  exact h1.2

/-- SIZE 1 at 44100 Hz. -/
theorem witness_SetpSizeScalesTheTwelveLines :
    (∃ ls, net.running ls) ∧
      ∀ ratio, (∃ c d : Ctx, c.cfg = net.cfg ∧ d.cfg = net.cfg ∧
        ratio = Fp.div c (Fp.mul d 0x3F800000#64 (Fp.ofInt net.cfg.numFmt net.sr.toNat)) (Fp.lit net.cfg.numFmt 29761 1)) →
      ∀ c : Ctx, c.cfg = net.cfg → ∀ e ∈ canonicalLengths,
        tooLong c (Fp.mul c (Fp.ofInt net.cfg.numFmt e.2) ratio) = false := by
  refine ⟨⟨_, net_running⟩, ?_⟩
  rintro ratio ⟨c, d, hc, hd, rfl⟩ e he x hx
  have hr : Fp.div c (Fp.mul d 0x3F800000#64 (Fp.ofInt net.cfg.numFmt net.sr.toNat)) (Fp.lit net.cfg.numFmt 29761 1) =
      0x3FBDABCA#64 :=
    ratio_place hc hd (by decide +kernel) (by decide +kernel) (by decide +kernel) (by decide +kernel)
  rw [hr]
  exact unit_lengths_fit he x hx e he

/-- INIT 44100: the predelay and every scaled length fit. -/
theorem witness_InitCreatesTheDefaultNetwork :
    (44100#32 : Word) ≠ 0#32 ∧
      (∀ c : Ctx, c.cfg = net.cfg → ∀ len, (∃ d : Ctx, d.cfg = net.cfg ∧
        len = Fp.mul d (Fp.lit net.cfg.numFmt 1 1000) (Fp.ofInt net.cfg.numFmt (44100#32 : Word).toNat)) →
          tooLong c len = false) ∧
      ∀ c : Ctx, c.cfg = net.cfg → ∀ e ∈ canonicalLengths, ∀ len,
        (∃ d f g : Ctx, d.cfg = net.cfg ∧ f.cfg = net.cfg ∧ g.cfg = net.cfg ∧
          len = Fp.mul d (Fp.ofInt net.cfg.numFmt e.2)
            (Fp.div f (Fp.mul g (Fp.lit net.cfg.numFmt 1 1) (Fp.ofInt net.cfg.numFmt (44100#32 : Word).toNat))
              (Fp.lit net.cfg.numFmt 29761 1))) → tooLong c len = false := by
  refine ⟨by decide, ?_, ?_⟩
  · rintro c hc len ⟨d, hd, rfl⟩
    rw [tooLong_place hc, Fp.mul_place (d := here) hd (by decide +kernel) (by decide +kernel)]
    decide +kernel
  · rintro c hc e he len ⟨d, f, g, hd, hf, hg, rfl⟩
    have hr : Fp.div f (Fp.mul g (Fp.lit net.cfg.numFmt 1 1) (Fp.ofInt net.cfg.numFmt (44100#32 : Word).toNat))
        (Fp.lit net.cfg.numFmt 29761 1) = 0x3FBDABCA#64 :=
      ratio_place hf hg (by decide +kernel) (by decide +kernel) (by decide +kernel) (by decide +kernel)
    rw [hr]
    exact unit_lengths_fit hc e he d hd

/-- SIZE 80 at 44100 Hz: DLA does not fit. -/
theorem witness_SetpSizeBeyondCapacityChangesNothing :
    (∃ ls, net.running ls) ∧ ∃ e ∈ canonicalLengths, ∀ c d f : Ctx, c.cfg = net.cfg → d.cfg = net.cfg → f.cfg = net.cfg →
      tooLong c (Fp.mul c (Fp.ofInt net.cfg.numFmt e.2)
        (Fp.div d (Fp.mul f 0x42A00000#64 (Fp.ofInt net.cfg.numFmt net.sr.toNat)) (Fp.lit net.cfg.numFmt 29761 1))) = true := by
  refine ⟨⟨_, net_running⟩, (.dla, 4453), by decide, fun c d f hc hd hf => ?_⟩
  have hr : Fp.div d (Fp.mul f 0x42A00000#64 (Fp.ofInt net.cfg.numFmt net.sr.toNat)) (Fp.lit net.cfg.numFmt 29761 1) =
      0x42ED16BC#64 :=
    ratio_place hd hf (by decide +kernel) (by decide +kernel) (by decide +kernel) (by decide +kernel)
  rw [hr, tooLong_place hc, Fp.mul_place (d := here) hc (by decide +kernel) (by decide +kernel)]
  decide +kernel

/-- 45_control.md R214: 3503999 is the least rate whose DLA does not fit; at 600 MHz the predelay does not fit either. -/
theorem witness_FaultingInitLeavesTheResetState :
    net.cfg.sane = true ∧ (∃ t, exec (.init 0#32) net = .next t ∧ t.fault = some .ebadrate) ∧
      (∃ t, exec (.init 3503999#32) net = .next t ∧ t.fault = some .ecap) ∧
      (∀ c d : Ctx, c.cfg = net.cfg → d.cfg = net.cfg →
        tooLong c (Fp.mul d (Fp.lit net.cfg.numFmt 1 1000) (Fp.ofInt net.cfg.numFmt (600000000#32 : Word).toNat)) = true) ∧
      ∃ e ∈ canonicalLengths, ∀ c d f g : Ctx, c.cfg = net.cfg → d.cfg = net.cfg → f.cfg = net.cfg → g.cfg = net.cfg →
        tooLong c (Fp.mul d (Fp.ofInt net.cfg.numFmt e.2)
          (Fp.div f (Fp.mul g (Fp.lit net.cfg.numFmt 1 1) (Fp.ofInt net.cfg.numFmt (3503999#32 : Word).toNat))
            (Fp.lit net.cfg.numFmt 29761 1))) = true := by
  refine ⟨by decide, faults_of_after (by decide +kernel), faults_of_after (by decide +kernel), fun c d hc hd => ?_,
    (.dla, 4453), by decide, fun c d f g hc hd hf hg => ?_⟩
  · rw [tooLong_place hc, Fp.mul_place (d := here) hd (by decide +kernel) (by decide +kernel)]
    decide +kernel
  · have hr := ratio_place hf hg (v := Fp.lit net.cfg.numFmt 1 1)
      (rate := Fp.ofInt net.cfg.numFmt (3503999#32 : Word).toNat) (by decide +kernel) (by decide +kernel)
      (by decide +kernel) rfl
    rw [show Fp.lit net.cfg.numFmt 29761 1 = Fp.lit .binary32 29761 1 from rfl, hr, tooLong_place hc,
      Fp.mul_place (d := here) hd (by decide +kernel) (by decide +kernel)]
    decide +kernel

/-- A NaN, -infinity, -3, and the largest length that is refused, 2. -/
theorem witness_LsetlenIgnoresDegenerateLengths :
    (∃ ls, net.running ls) ∧ Fp.unpack .binary32 0x7FC00000#64 = .nan ∧ Fp.unpack .binary32 0xFF800000#64 = .inf true ∧
      (∃ m, Fp.unpack .binary32 0xC0400000#64 = .fin true m) ∧
      Fp.unpack .binary32 0x40000000#64 = .fin false (2 * Fp.one .binary32) :=
  ⟨⟨_, net_running⟩, by decide +kernel, by decide +kernel, ⟨3 * Fp.one .binary32, by decide +kernel⟩, by decide +kernel⟩

/-- The least length above 2, and 524287, whose need is the largest below MAXCAP. -/
theorem witness_LsetlenSetsTheLength :
    (∃ ls, net.running ls) ∧ net.inv = true ∧ ∀ x ∈ [0x40000001#64, (0x48FFFFE0#64 : F)], ∃ m,
      Fp.unpack net.cfg.numFmt x = .fin false m ∧ 2 * Fp.one net.cfg.numFmt < m ∧
        2 * ((m + Fp.one net.cfg.numFmt - 1) / Fp.one net.cfg.numFmt) + 1 ≤ net.cfg.maxcap := by
  refine ⟨⟨_, net_running⟩, net_inv, fun x hx => ?_⟩
  simp only [List.mem_cons, List.not_mem_nil, or_false] at hx
  rcases hx with rfl | rfl
  · exact ⟨0x800001 * 2 ^ 127, by decide +kernel, by decide +kernel, by decide +kernel⟩
  · exact ⟨524287 * Fp.one .binary32, by decide +kernel, by decide +kernel, by decide +kernel⟩

/-- +infinity, and 524287.5, the least half above what MAXCAP takes. -/
theorem witness_LsetlenBeyondCapacityRaisesEcap :
    (∃ ls, net.running ls) ∧ net.inv = true ∧ Fp.unpack net.cfg.numFmt 0x7F800000#64 = .inf false ∧
      ∃ m, Fp.unpack net.cfg.numFmt 0x48FFFFF0#64 = .fin false m ∧ 2 * Fp.one net.cfg.numFmt < m ∧
        net.cfg.maxcap < 2 * ((m + Fp.one net.cfg.numFmt - 1) / Fp.one net.cfg.numFmt) + 1 := by
  refine ⟨⟨_, net_running⟩, net_inv, by decide +kernel, 1048575 * 2 ^ 148, by decide +kernel, by decide +kernel, ?_⟩
  decide +kernel

/-- A line with MODEN = 0 is in range; so is a modulated line of extent 0 and frequency 0. -/
theorem plain_in_range : Line.modulationInRange net.cfg plain := fun _ _ => ⟨_, Line.modulate_off rfl⟩

theorem modulated_in_range {m : Interp} : Line.modulationInRange net.cfg { plain with moden := true, mode := m } := by
  intro c h
  have hc : c.cfg = here.cfg := h
  have hp : Line.nextPhase c { plain with moden := true, mode := m } = 0#64 := by
    show Fp.add (c.at 2) 0#64 (Fp.mul (c.at 1) c.cfg.twoPi 0#64) = 0#64
    have hm : Fp.mul (c.at 1) here.cfg.twoPi 0#64 = 0#64 :=
      (Fp.mul_place (c := c.at 1) (d := here) hc (by decide +kernel) (by decide +kernel)).trans (by decide +kernel)
    have ha : Fp.add (c.at 2) 0#64 0#64 = 0#64 :=
      (Fp.add_place (c := c.at 2) (d := here) hc (by decide +kernel) (by decide +kernel)).trans (by decide +kernel)
    rw [hc, hm, ha]
  have hs : ∀ d : Ctx, d.cfg = here.cfg → Fp.sin d 0#64 = 0#64 := by
    intro d hd
    have hu : Fp.unpack here.fmt 0#64 = .fin false 0 := by decide +kernel
    have hk : here.cfg.sin = .standard := rfl
    simp [Fp.sin, hd, hk, Fp.sinRounded, fmt_of_cfg hd, hu, Fp.zero]
  have ho : Line.modOffset c { plain with moden := true, mode := m } = 0#64 := by
    show Fp.mul (c.at 4) (Fp.sin (c.at 3) (Line.nextPhase c _)) 0#64 = 0#64
    have hm : Fp.mul (c.at 4) 0#64 0#64 = 0#64 :=
      (Fp.mul_place (c := c.at 4) (d := here) hc (by decide +kernel) (by decide +kernel)).trans (by decide +kernel)
    rw [hp, hs (c.at 3) hc, hm]
  have he : excursionOf c 0#64 = some 0 := by
    unfold excursionOf
    rw [hc, fmt_of_cfg hc]
    decide +kernel
  exact ⟨_, by
    unfold Line.modulate
    rw [ho, he]
    rfl⟩

/-- Every line of the network is in range and has a length. -/
theorem net_ready : (∀ l, (({ plainLines with in0 := plain } : Lines).get l).n ≠ 0) ∧
    ∀ l, (({ plainLines with in0 := plain } : Lines).get l).modulationInRange net.cfg := by
  refine ⟨fun l => by cases l <;> decide, fun l => ?_⟩
  cases l <;> first | exact plain_in_range | exact modulated_in_range

theorem witness_LpushStoresModulatesAndFeedsBack :
    ∃ ls, net.running ls ∧ net.inv = true ∧ (∀ l, (ls.get l).n ≠ 0) ∧ (∀ l, (ls.get l).modulationInRange net.cfg) ∧
      (ls.get .moda).moden = true ∧ (ls.get .in0).moden = false :=
  ⟨_, net_running, net_inv, net_ready.1, net_ready.2, rfl, rfl⟩

/-- A line with feedback: the other clause of the feedback step. -/
theorem witness_feedback_line :
    (netWith { plain with fb := 0x3F000000#64 }).inv = true ∧ Fp.eq .binary32 0x3F000000#64 Fp.zero = false ∧
      Line.modulationInRange net.cfg { plain with fb := 0x3F000000#64 } :=
  ⟨by decide +kernel, by decide +kernel, fun _ _ => ⟨_, Line.modulate_off rfl⟩⟩

theorem witness_UnsetLineRaisesElineunset :
    (netWith { plain with n := 0, off := 0 }).running { plainLines with in0 := { plain with n := 0, off := 0 } } :=
  ⟨rfl, rfl⟩

/-- A modulated line whose extent is a NaN: its offset is a NaN at every place of a free value. -/
theorem witness_LpushOutOfRangeRaisesEmodrange :
    let ln : Line := { plain with moden := true, ext := 0x7FC00000#64 }
    (netWith ln).running { plainLines with in0 := ln } ∧ (netWith ln).inv = true ∧ ln.n ≠ 0 ∧
      ∀ c d e f : Ctx, c.cfg = net.cfg → d.cfg = net.cfg → e.cfg = net.cfg → f.cfg = net.cfg →
        ∀ exc, Fp.floor? net.cfg.numFmt (Fp.mul e (Fp.sin f (Fp.add c ln.phase (Fp.mul d net.cfg.twoPi ln.freq))) ln.ext) =
          some exc → exc < -(2 ^ 31 : Int) ∨ (2 ^ 31 : Int) ≤ exc := by
  refine ⟨⟨rfl, rfl⟩, by decide +kernel, by decide, fun c d e f hc hd he hf exc h => ?_⟩
  have hn : Fp.unpack e.fmt 0x7FC00000#64 = .nan := by
    rw [fmt_of_cfg he]
    decide +kernel
  have h0 := Fp.floor_mul_nan (a := Fp.sin f (Fp.add c 0#64 (Fp.mul d net.cfg.twoPi 0#64))) hn
  rw [fmt_of_cfg he] at h0
  exact absurd (h0.symm.trans h) (by simp)

/-- The line of the witness above, in a network in which every line has a length. -/
theorem witness_OutOfRangeModulationFaultsDiffusionAndFrames :
    let ln : Line := { plain with moden := true, ext := 0x7FC00000#64 }
    let ls : Lines := { plainLines with in0 := ln }
    (netWith ln).running ls ∧ (netWith ln).inv = true ∧ (∀ l, (ls.get l).n ≠ 0) ∧ (ls.get .in0).moden = true ∧
      (netWith ln).cfg.excSplit = .floor ∧
      ∀ c d e f : Ctx, c.cfg = net.cfg → d.cfg = net.cfg → e.cfg = net.cfg → f.cfg = net.cfg →
        ∀ exc, Fp.floor? net.cfg.numFmt (Fp.mul e (Fp.sin f (Fp.add c ln.phase (Fp.mul d net.cfg.twoPi ln.freq))) ln.ext) =
          some exc → exc < -(2 ^ 31 : Int) ∨ (2 ^ 31 : Int) ≤ exc :=
  ⟨⟨rfl, rfl⟩, by decide +kernel, fun l => by cases l <;> decide, rfl, rfl,
    witness_LpushOutOfRangeRaisesEmodrange.2.2.2⟩

/-- The three modes: a fraction of one half read uninterpolated, linear and all-pass, and linear with a fraction of -0. -/
theorem witness_LoutReadsByMode :
    (netWith { pushed with frac := 0x3F000000#64, mode := .linear }).inv = true ∧
      (netWith { pushed with frac := 0x3F000000#64, mode := .allpass }).inv = true ∧ (netWith pushed).inv = true ∧
      pushed.n ≠ 0 ∧ Fp.eq .binary32 0x3F000000#64 Fp.zero = false ∧ Fp.eq .binary32 0x80000000#64 Fp.zero = true := by
  decide +kernel

theorem witness_TapAtReadsTheHistoricalSlot :
    ({ plain with n := 0, off := 0 } : Line).n = 0 ∧ (netWith pushed).running { plainLines with in0 := pushed } ∧
      (netWith pushed).inv = true ∧ pushed.n ≠ 0 := ⟨rfl, ⟨rfl, rfl⟩, by decide +kernel, by decide⟩

/-- Seven samples on a line of six slots: the first tap, the oldest, and the output at OFF = 3. One sample: the taps 2 and
6 are older. A linear line whose FRAC is -0, for the output. -/
theorem witness_TapsAndOutputReturnPastSamples :
    (∃ ls, net.running ls) ∧ net.inv = true ∧ plain.n ≠ 0 ∧ plain.moden = false ∧ Fp.eq .binary32 plain.fb Fp.zero = true ∧
      plain.mode = .none ∧ plain.exc = 0 ∧
      [(1#32 : Word), 6#32, 3#32].all (fun k => decide (1 ≤ k.toNat ∧ k.toNat ≤ plain.n) &&
        ([1#64, 2#64, 3#64, 4#64, 5#64, 6#64, (7#64 : F)][7 - k.toNat]?).isSome) = true ∧
      [(2#32 : Word), 6#32].all (fun k => decide ([(1#64 : F)].length < k.toNat ∧ k.toNat ≤ plain.n)) = true ∧
      (netWith { plain with mode := .linear, frac := 0x80000000#64 }).inv = true ∧
      Fp.eq .binary32 0x80000000#64 Fp.zero = true :=
  ⟨⟨_, net_running⟩, net_inv, by decide, rfl, by decide +kernel, rfl, rfl, by decide +kernel, by decide, by decide +kernel,
    by decide +kernel⟩

theorem witness_LdiffReadsThenPushes :
    ∃ ls, net.running ls ∧ net.inv = true ∧ (∀ l, (ls.get l).n ≠ 0) ∧ ∀ l, (ls.get l).modulationInRange net.cfg :=
  ⟨_, net_running, net_inv, net_ready.1, net_ready.2⟩

theorem witness_LineCommandsTouchOneLine :
    net.lines = some { plainLines with in0 := plain } ∧ Slots.wf plain.buf = true ∧
      (∃ t, exec (.lpush .in0 0x3F800000#64) net = .next t) ∧ (∃ t, exec (.lout .in0) net = .next t) ∧
      ∃ t, exec (.lsetlen .in0 0x7F800000#64) net = .next t := by
  refine ⟨rfl, rfl, ?_, ?_, ?_⟩
  · obtain ⟨t, h, -⟩ := exists_of_after (i := .lpush .in0 0x3F800000#64) (s := net) (p := fun _ => true) (by decide +kernel)
    exact ⟨t, h⟩
  · obtain ⟨t, h, -⟩ := exists_of_after (i := .lout .in0) (s := net) (p := fun _ => true) (by decide +kernel)
    exact ⟨t, h⟩
  · obtain ⟨t, h, -⟩ := exists_of_after (i := .lsetlen .in0 0x7F800000#64) (s := net) (p := fun _ => true) (by decide +kernel)
    exact ⟨t, h⟩

theorem witness_FrameNeedsEveryLength :
    (netWith { plain with n := 0, off := 0 }).running { plainLines with in0 := { plain with n := 0, off := 0 } } ∧
      ∃ l, (({ plainLines with in0 := { plain with n := 0, off := 0 } } : Lines).get l).n = 0 := ⟨⟨rfl, rfl⟩, .in0, rfl⟩

theorem witness_FramePerformsItsStepsInOrder :
    ∃ ls, net.running ls ∧ net.inv = true ∧ (∀ l, (ls.get l).n ≠ 0) ∧ ∀ l, (ls.get l).modulationInRange net.cfg :=
  ⟨_, net_running, net_inv, net_ready.1, net_ready.2⟩

theorem witness_MixCommandsPerformAFrameAndMix :
    ∃ ls, net.running ls ∧ net.inv = true ∧ (∀ l, (ls.get l).n ≠ 0) ∧ ∀ l, (ls.get l).modulationInRange net.cfg :=
  ⟨_, net_running, net_inv, net_ready.1, net_ready.2⟩

/-- Fixed offsets; scaled ones, with the offset floor(266 × 1.5) = 399 (42_network.md R162). -/
theorem witness_TapSumAddsWeightedTapsInOrder :
    here.cfg.tapScale = .fixed ∧ plainLines.wf here.cfg = true ∧ (∀ l, (plainLines.get l).n ≠ 0) ∧
      plainLines.wf { here.cfg with tapScale := .scaled } = true ∧
      tapOffset { here with cfg := { here.cfg with tapScale := .scaled } } 0x3FC00000#64 266 = 399 :=
  ⟨rfl, by decide +kernel, fun l => by cases l <;> decide, by decide +kernel, by decide +kernel⟩

theorem witness_FramePushesEveryLineOnce :
    (∃ ls, net.running ls) ∧ net.inv = true ∧ (∃ t, exec (.frame 0x3F800000#64 0#64) net = .next t ∧ t.fault = none) ∧
      (∃ t, exec (.pmono 0x3F800000#64) net = .next t ∧ t.fault = none) ∧
      ∃ t, exec (.pstereo 0x3F800000#64 0#64) net = .next t ∧ t.fault = none := by
  refine ⟨⟨_, net_running⟩, net_inv, ?_, ?_, ?_⟩
  · obtain ⟨t, h1, h2⟩ := exists_of_after (i := .frame 0x3F800000#64 0#64) (s := net) (p := fun t => t.fault.isNone)
      (by decide +kernel)
    exact ⟨t, h1, by simpa using h2⟩
  · obtain ⟨t, h1, h2⟩ := exists_of_after (i := .pmono 0x3F800000#64) (s := net) (p := fun t => t.fault.isNone)
      (by decide +kernel)
    exact ⟨t, h1, by simpa using h2⟩
  · obtain ⟨t, h1, h2⟩ := exists_of_after (i := .pstereo 0x3F800000#64 0#64) (s := net) (p := fun t => t.fault.isNone)
      (by decide +kernel)
    exact ⟨t, h1, by simpa using h2⟩

/-- N6: the extent of MODA is infinite, and the frame faults after the predelay was pushed. -/
theorem witness_FrameFaultUndoesEveryStep :
    let ls : Lines := { plainLines with moda := { plain with moden := true, freq := 0x3E800000#64, ext := 0x7F800000#64 } }
    let s : State := { net with lines := some ls }
    s.running ls ∧ s.inv = true ∧ (∀ l, (ls.get l).n ≠ 0) ∧
      ∃ t, exec (.frame 0x3F800000#64 0x3F800000#64) s = .next t ∧ t.fault = some .emodrange :=
  ⟨⟨rfl, rfl⟩, by decide +kernel, fun l => by cases l <;> decide, faults_of_after (by decide +kernel)⟩

/-- A step that performs a command from a state that meets every invariant. -/
theorem witness_EveryStepKeepsTheLineInvariants :
    net.inv = true ∧ net.ratesAgree = true ∧ ∃ t, step net = .next t := ⟨net_inv, by decide +kernel, _, rfl⟩

theorem witness_EveryStepCompletes : net.inv = true := net_inv

theorem witness_EveryStepKeepsTheRatesInAgreement :
    net.ratesAgree = true ∧ State.reset.ratesAgree = true ∧ ∃ t, step net = .next t := by
  exact ⟨by decide +kernel, by decide +kernel, _, rfl⟩

theorem witness_CapacityNeverDecreases :
    net.lines = some { plainLines with in0 := plain } ∧ ∃ t, exec (.lsetlen .in0 0x447A0000#64) net = .next t ∧
      line .in0 (fun ln => ln.cap == 2001) t = true := ⟨rfl, exists_of_after (by decide +kernel)⟩

theorem witness_RegistersAreWrittenByTheirCommands :
    ∃ t, exec (.setpBandwidth 0x461C4000#64) net = .next t ∧ (t.bw == 0x3E683315#64) = true :=
  exists_of_after (by decide +kernel)

theorem witness_ObservationChangesNoState :
    (Instr.lrdbuf .in0 16#32).opcode ∈ [.nop, .rdreg, .lrd, .lrdbuf] ∧
      ∃ t, exec (.lrdbuf .in0 16#32) net = .next t ∧ t.fault = some .eillcmd :=
  ⟨by decide, faults_of_after (by decide +kernel)⟩

/-- The largest magnitude that rounds to a finite value, and the least that rounds to infinity. -/
theorem witness_RoundingIsToNearestEven :
    Fp.unpack .binary32 (Fp.round .binary32 false ((2 ^ 25 - 1) * 2 ^ 253 - 1) 2) = .fin false ((2 ^ 24 - 1) * 2 ^ 253) ∧
      Fp.unpack .binary32 (Fp.round .binary32 true ((2 ^ 25 - 1) * 2 ^ 253) 2) = .inf true ∧
      Fp.unpack .binary32 (Fp.round .binary32 true 1 2) = .fin true 0 := by decide +kernel

theorem witness_ArithmeticRoundsTheExactResult :
    Fp.unpack here.fmt 0x3F800000#64 = .fin false (Fp.one .binary32) ∧ Fp.unpack here.fmt 0x80000001#64 = .fin true 1 ∧
      Fp.unpack here.fmt 0#64 = .fin false 0 ∧ Fp.unpack here.fmt 0xFF800000#64 = .inf true ∧
      Fp.unpack here.fmt 0x7F800000#64 = .inf false := by
  decide +kernel

/-- A quiet NaN, the last NaN of the format with its sign set, and the two zeros. -/
theorem witness_NanPropagatesAndComparesFalse :
    Fp.unpack here.fmt 0x7FC00000#64 = .nan ∧ NumFmt.fits .binary32 0xFFFFFFFF#64 = true ∧
      Fp.unpack .binary32 0xFFFFFFFF#64 = .nan ∧ Fp.unpack .binary32 0#64 = .fin false 0 ∧
      Fp.unpack .binary32 0x80000000#64 = .fin true 0 := by decide +kernel

end Sys2Proof.Tests
end

section
/-! PROOFS. No command stops the model from a state that meets the line invariants (00_scope.md R4, R14): a logic of
procedures that do not halt, then one lemma per procedure from the memory primitives up to the step. -/

namespace Sys2Proof.Machine

/-- The procedure does not stop the model: it answers, or it raises a device fault. -/
def NoHalt {α : Type} (x : Except Stop α) : Prop := ∀ f, x ≠ .error (.halt f)

section
variable {α β : Type} {x : Except Stop α}

theorem NoHalt.ok (a : α) : NoHalt (.ok a : Except Stop α) := fun _ h => by cases h

theorem NoHalt.raise (cause : Cause) : NoHalt (.error (.raise cause) : Except Stop α) := fun _ h => by cases h

theorem NoHalt.map (h : NoHalt x) (g : α → β) : NoHalt (x.map g) := fun f hf => h f (map_error hf)

/-- Steps in a row do not halt if the first does not, and the second does not on any answer of the first. -/
theorem NoHalt.bind {g : α → Except Stop β} (h : NoHalt x) (hg : ∀ a, x = .ok a → NoHalt (g a)) :
    NoHalt (x >>= g) := fun f hf => by
  rcases bind_error hf with hx | ⟨a, ha, hga⟩
  · exact h f hx
  · exact hg a ha f hga

theorem NoHalt.of_answers (h : ∃ a, x = .ok a) : NoHalt x := by
  obtain ⟨a, rfl⟩ := h
  exact .ok a

end

/-! ## One line (40_delay_line.md, 41_diffusion.md) -/

section
variable {c : Ctx} {p : Params} {ln : Line}

theorem Line.currentOutput_noHalt (hw : ln.wf p = true) : NoHalt (ln.currentOutput c) := by
  by_cases hn : ln.n = 0
  · simpa [Line.currentOutput, hn] using NoHalt.raise .elineunset
  · exact .of_answers ⟨_, Line.currentOutput_total hw hn⟩

theorem Line.push_noHalt (hw : ln.wf p = true) (s : F) : NoHalt (ln.push c s) := fun f hf => by
  rcases Line.push_error hw hf with ⟨-, h⟩ | ⟨-, h⟩ <;> cases h

theorem Line.tapAt_noHalt (hw : ln.wf p = true) (k : Int) : NoHalt (ln.tapAt k) := by
  by_cases hn : ln.n = 0
  · simpa [Line.tapAt, hn] using NoHalt.raise .elineunset
  · exact .of_answers ⟨_, Line.tapAt_total hw hn k⟩

theorem Line.diffuse_noHalt (hw : ln.wf p = true) (x k : F) : NoHalt (ln.diffuse c x k) :=
  (Line.currentOutput_noHalt hw).bind fun ⟨_, _⟩ ho =>
    (Line.push_noHalt (Line.currentOutput_wf hw ho) _).bind fun _ _ => .ok _

end

/-! ## The thirteen lines and the steps of Frame (42_network.md R150 to R159) -/

section
variable {c : Ctx} {p : Params} {ls ls' : Lines}

theorem Lines.push_noHalt (hw : ls.wf p = true) (l : LineName) (s : F) : NoHalt (ls.push c l s) :=
  (Line.push_noHalt (Lines.wf_iff.1 hw l) s).map _

theorem Lines.currentOutput_noHalt (hw : ls.wf p = true) (l : LineName) : NoHalt (ls.currentOutput c l) :=
  (Line.currentOutput_noHalt (Lines.wf_iff.1 hw l)).map _

theorem Lines.diffuse_noHalt (hw : ls.wf p = true) (l : LineName) (x k : F) : NoHalt (ls.diffuse c l x k) :=
  (Line.diffuse_noHalt (Lines.wf_iff.1 hw l) x k).map _

theorem Lines.pass_noHalt (hw : ls.wf p = true) (l : LineName) (s : F) : NoHalt (ls.pass c l s) :=
  (Lines.push_noHalt hw l s).bind fun _ h1 => Lines.currentOutput_noHalt (Lines.push_wf hw h1) l

theorem inputDiffusion_wf {id1 id2 x y : F} (hw : ls.wf p = true)
    (h : inputDiffusion c id1 id2 ls x = .ok (y, ls')) : ls'.wf p = true := by
  obtain ⟨_, _, _, _, _, _, h0, h1, h2, h3⟩ := inputDiffusion_ok h
  exact Lines.diffuse_wf (Lines.diffuse_wf (Lines.diffuse_wf (Lines.diffuse_wf hw h0) h1) h2) h3

theorem inputDiffusion_noHalt (hw : ls.wf p = true) (id1 id2 x : F) : NoHalt (inputDiffusion c id1 id2 ls x) :=
  (Lines.diffuse_noHalt hw _ _ _).bind fun ⟨_, _⟩ h0 =>
    have w0 := Lines.diffuse_wf hw h0
    (Lines.diffuse_noHalt w0 _ _ _).bind fun ⟨_, _⟩ h1 =>
      have w1 := Lines.diffuse_wf w0 h1
      (Lines.diffuse_noHalt w1 _ _ _).bind fun ⟨_, _⟩ h2 =>
        Lines.diffuse_noHalt (Lines.diffuse_wf w1 h2) _ _ _

theorem tankStep_wf {t : Tank} {s : State} {seed lp lp' : F} (hw : ls.wf p = true)
    (h : tankStep c t s ls seed lp = .ok (lp', ls')) : ls'.wf p = true := by
  obtain ⟨_, _, _, _, _, _, h1, h2, -, h3, h4⟩ := tankStep_ok h
  exact Lines.push_wf (Lines.diffuse_wf (Lines.pass_wf (Lines.diffuse_wf hw h1) h2) h3) h4

theorem tankStep_noHalt (hw : ls.wf p = true) (t : Tank) (s : State) (seed lp : F) :
    NoHalt (tankStep c t s ls seed lp) :=
  (Lines.diffuse_noHalt hw _ _ _).bind fun ⟨_, _⟩ h1 =>
    have w1 := Lines.diffuse_wf hw h1
    (Lines.pass_noHalt w1 _ _).bind fun ⟨_, _⟩ h2 =>
      have w2 := Lines.pass_wf w1 h2
      (Lines.diffuse_noHalt w2 _ _ _).bind fun ⟨_, _⟩ h3 =>
        (Lines.push_noHalt (Lines.diffuse_wf w2 h3) _ _).bind fun _ _ => .ok _

theorem tapSum_noHalt (hw : ls.wf p = true) (ratio : F) :
    ∀ (c : Ctx) (rows : List TapRow) (acc : F), NoHalt (tapSum c ratio ls rows acc)
  | _, [], acc => .ok acc
  | c, row :: rest, acc => by
    unfold tapSum
    split
    · rename_i stop h
      rintro f ⟨⟩
      exact Line.tapAt_noHalt (Lines.wf_iff.1 hw row.line) _ f h
    · exact tapSum_noHalt hw ratio _ rest _

theorem frameOn_noHalt (hw : ls.wf p = true) (s : State) (left right : F) : NoHalt (frameOn c s ls left right) := by
  unfold frameOn
  split
  · exact .raise _
  · exact (Lines.pass_noHalt hw _ _).bind fun ⟨_, _⟩ h1 =>
      have w1 := Lines.pass_wf hw h1
      (inputDiffusion_noHalt w1 _ _ _).bind fun ⟨_, _⟩ h2 =>
      have w2 := inputDiffusion_wf w1 h2
      (Lines.currentOutput_noHalt w2 _).bind fun ⟨_, _⟩ h3 =>
      have w3 := Lines.currentOutput_wf w2 h3
      (Lines.currentOutput_noHalt w3 _).bind fun ⟨_, _⟩ h4 =>
      have w4 := Lines.currentOutput_wf w3 h4
      (tankStep_noHalt w4 _ _ _ _).bind fun ⟨_, _⟩ h5 =>
      have w5 := tankStep_wf w4 h5
      (tankStep_noHalt w5 _ _ _ _).bind fun ⟨_, _⟩ h6 =>
      have w6 := tankStep_wf w5 h6
      (tapSum_noHalt w6 _ _ _ _).bind fun _ _ =>
      (tapSum_noHalt w6 _ _ _ _).bind fun _ _ => .ok _

end

/-! ## The parameters and INIT, which touch no slot (43_parameters.md R180 to R192, 45_control.md R211 to R213) -/

section
variable {c : Ctx} {s : State}

theorem Lines.setLength_noHalt (ls : Lines) (l : LineName) (len : F) : NoHalt (ls.setLength c l len) :=
  NoHalt.map (fun _ => Line.setLength_noHalt) _

theorem Lines.setLengths_noHalt (ratio : F) :
    ∀ (table : List (LineName × Nat)) (ls : Lines), NoHalt (Lines.setLengths c ratio table ls)
  | [], ls => .ok ls
  | (l, canon) :: rest, ls => by
    unfold Lines.setLengths
    split
    · rename_i stop h
      rintro f ⟨⟩
      exact Lines.setLength_noHalt ls l _ f h
    · exact Lines.setLengths_noHalt ratio rest _

theorem State.onLines_noHalt {body : Lines → Except Stop Lines} (h : ∀ ls, NoHalt (body ls)) :
    NoHalt (s.onLines body) := by
  unfold State.onLines
  split
  · exact .raise _
  · exact (h _).map _

theorem applyPredelay_noHalt (v : F) : NoHalt (applyPredelay c v s) :=
  State.onLines_noHalt fun ls => Lines.setLength_noHalt ls _ _

theorem applyModulation_noHalt (v : F) : NoHalt (applyModulation c v s) := State.onLines_noHalt fun _ => .ok _

theorem applySize_noHalt (v : F) : NoHalt (applySize c v s) := by
  unfold applySize
  simp only
  split
  · exact .raise _
  · exact (State.onLines_noHalt fun ls => Lines.setLengths_noHalt _ _ ls).map _

theorem applyDefaults_noHalt : NoHalt (applyDefaults c s) :=
  (applyPredelay_noHalt _).bind fun _ _ =>
    (NoHalt.ok _).bind fun _ _ => (NoHalt.ok _).bind fun _ _ => (NoHalt.ok _).bind fun _ _ =>
    (NoHalt.ok _).bind fun _ _ => (NoHalt.ok _).bind fun _ _ => (NoHalt.ok _).bind fun _ _ =>
    (NoHalt.ok _).bind fun _ _ =>
    (applyModulation_noHalt _).bind fun _ _ =>
    (applySize_noHalt _).bind fun _ _ =>
    (NoHalt.ok _).bind fun _ _ => .ok _

theorem createNetwork_noHalt (sr : Word) : NoHalt (createNetwork c sr s) := by
  unfold createNetwork
  split
  · exact .raise _
  · exact applyDefaults_noHalt

end

/-! ## The ends of a command (60_exceptions.md R235) -/

section
variable {s : State}

theorem State.inv_iff : s.inv = true ↔ s.cfg.sane = true ∧ ∀ ls, s.lines = some ls → ls.wf s.cfg = true := by
  unfold State.inv
  cases s.lines <;> simp

theorem State.finish_answers {body : Except Stop (State × List Item)} (h : NoHalt body) :
    ∃ t, s.finish body = .next t := by
  match body, h with
  | .ok (u, results), _ => exact ⟨_, rfl⟩
  | .error (.raise cause), _ => exact ⟨_, rfl⟩
  | .error (.halt f), h => exact absurd rfl (h f)

theorem State.needNetwork_noHalt {body : Lines → Except Stop (State × List Item)}
    (h : ∀ ls, s.lines = some ls → NoHalt (body ls)) : NoHalt (s.needNetwork body) := by
  cases hl : s.lines with
  | none => rw [State.needNetwork_none hl]; exact .raise _
  | some ls => rw [State.needNetwork_some hl]; exact h ls hl

theorem State.gated_answers {legal : Bool} {body : Lines → Except Stop (State × List Item)}
    (h : ∀ ls, s.lines = some ls → NoHalt (body ls)) : ∃ t, s.gated legal body = .next t := by
  cases hf : s.fault with
  | some c => exact ⟨_, State.gated_fault hf legal body⟩
  | none =>
    cases legal with
    | false => exact ⟨_, State.gated_illegal hf body⟩
    | true =>
      simp only [State.gated, hf]
      exact State.finish_answers (State.needNetwork_noHalt h)

theorem State.onLine_noHalt {ls : Lines} {l : LineName} {body : Line → Except Stop (Line × List Item)}
    (h : NoHalt (body (ls.get l))) : NoHalt (s.onLine ls l body) := by
  cases hb : body (ls.get l) with
  | error stop => rw [State.onLine_error hb]; exact fun f hf => h f (by rw [hb]; cases hf; rfl)
  | ok r => rw [State.onLine_ok (ln := r.1) (results := r.2) hb]; exact .ok _

/-- A command on one line answers when its procedure does not halt on a line that meets its invariants. -/
theorem State.gated_onLine_answers (hs : s.inv = true) {legal : Bool} {l : LineName}
    {body : Line → Except Stop (Line × List Item)} (h : ∀ ln, ln.wf s.cfg = true → NoHalt (body ln)) :
    ∃ t, s.gated legal (fun ls => s.onLine ls l body) = .next t :=
  State.gated_answers fun ls hl => State.onLine_noHalt (h _ (Lines.wf_iff.1 ((State.inv_iff.1 hs).2 ls hl) l))

/-- A command that performs a frame answers, whatever it makes of the outputs. -/
theorem State.gated_frameOn_answers (hs : s.inv = true) {c : Ctx} {left right : F}
    {g : State × F × F → State × List Item} :
    ∃ t, s.gated true (fun ls => (frameOn c s ls left right).map g) = .next t :=
  State.gated_answers fun ls hl => (frameOn_noHalt ((State.inv_iff.1 hs).2 ls hl) s left right).map g

theorem State.setp_answers {apply : State → Except Stop State} (h : NoHalt (apply s)) :
    ∃ t, s.setp apply = .next t := State.gated_answers fun _ _ => h.map _

theorem execRdreg_answers (reg : RegName) : ∃ t, execRdreg reg s = .next t := by
  refine State.finish_answers ?_
  split
  · exact .ok _
  · exact State.needNetwork_noHalt fun _ _ => .ok _

/-- LRDBUF reads a slot only after the check of its index against CAP (45_control.md R218). -/
theorem execLrdbuf_answers (line : LineName) (index : Word) : ∃ t, execLrdbuf line index s = .next t := by
  refine State.finish_answers (State.needNetwork_noHalt fun ls _ => ?_)
  split
  · exact .raise _
  · rename_i h
    exact (NoHalt.of_answers ⟨_, Line.bufRead_lt (Nat.lt_of_not_le h)⟩).map _

/-- From a state that meets the invariants, every command answers a next state. -/
theorem exec_answers (i : Instr) (hs : s.inv = true) : ∃ t, exec i s = .next t := by
  cases i with
  | nop => exact ⟨_, rfl⟩
  | init sr => exact State.finish_answers ((createNetwork_noHalt sr).map _)
  | deinit => exact ⟨_, rfl⟩
  | rdreg reg => exact execRdreg_answers reg
  | lrd line field => exact State.finish_answers (State.needNetwork_noHalt fun _ _ => .ok _)
  | lrdbuf line index => exact execLrdbuf_answers line index
  | setpPredelay v => exact State.setp_answers (applyPredelay_noHalt v)
  | setpModulation v => exact State.setp_answers (applyModulation_noHalt v)
  | setpSize v => exact State.setp_answers (applySize_noHalt v)
  | setpBandwidth | setpDamping | setpDecay | setpDiffusion1 | setpDiffusion2 | setpIndiff1 | setpIndiff2 | setpWet
  | setpDry => exact State.setp_answers (.ok _)
  | frame | pmono | pstereo => exact State.gated_frameOn_answers hs
  | lsetlen line length => exact State.gated_onLine_answers hs fun _ _ => NoHalt.map (fun _ => Line.setLength_noHalt) _
  | lpush line sample => exact State.gated_onLine_answers hs fun _ hw => (Line.push_noHalt hw sample).map _
  | lout line => exact State.gated_onLine_answers hs fun _ hw => (Line.currentOutput_noHalt hw).map _
  | ltap line k => exact State.gated_onLine_answers hs fun _ hw => (Line.tapAt_noHalt hw _).map _
  | ldiff line x k => exact State.gated_onLine_answers hs fun _ hw => (Line.diffuse_noHalt hw x k).map _
  | lmode | lfb | lmod | lmoden => exact State.gated_onLine_answers hs fun _ _ => .ok _

end

/-- Settles O52: a step is a hardware reset, a wait, an illegal word, or a command, and a command does not halt. -/
theorem everyStepCompletes : Obligations.EveryStepCompletes := by
  unfold Obligations.EveryStepCompletes
  intro s hs
  unfold step
  split
  · exact ⟨_, rfl⟩
  · split
    · exact ⟨_, rfl⟩
    · exact exec_answers _ hs
    · exact ⟨_, rfl⟩

end Sys2Proof.Machine
end

section
/-! PROOFS. F encodings (00_scope.md R11, R15): an encoding is a sign and magnitude bits, magnitude bits below those of
infinity stand for a whole number of units that rises with them, and rounding picks between two neighbours. -/

namespace Sys2Proof.Machine

/-! ## An encoding as a sign and magnitude bits -/

/-- The bits of an encoding below its sign bit. -/
def Fp.magnitude (fmt : NumFmt) (x : F) : Nat := x.toNat % Fp.signBit fmt

/-- The sign bit of an encoding. -/
def Fp.negative (fmt : NumFmt) (x : F) : Bool := decide (Fp.signBit fmt ≤ x.toNat % 2 ^ fmt.width)

/-- The units that magnitude bits stand for, with the exponent field left unbounded. -/
def Fp.units (fmt : NumFmt) (k : Nat) : Nat :=
  if k / 2 ^ Fp.fracBits fmt = 0 then k % 2 ^ Fp.fracBits fmt
  else (2 ^ Fp.fracBits fmt + k % 2 ^ Fp.fracBits fmt) * 2 ^ (k / 2 ^ Fp.fracBits fmt - 1)

section
variable {fmt : NumFmt} {negative : Bool} {k : Nat}

theorem Fp.signBit_eq (fmt : NumFmt) : Fp.signBit fmt = 2 ^ Fp.fracBits fmt * 2 ^ Fp.expBits fmt := by
  cases fmt <;> rfl

theorem Fp.two_pow_width (fmt : NumFmt) : 2 ^ fmt.width = 2 * Fp.signBit fmt := by
  cases fmt <;> rfl

/-- An encoding fits the 64 bits of its carrier. -/
theorem Fp.two_signBit_le (fmt : NumFmt) : 2 * Fp.signBit fmt ≤ 2 ^ 64 := by
  cases fmt <;> decide

theorem Fp.signBit_even (fmt : NumFmt) : Fp.signBit fmt % 2 = 0 := by
  cases fmt <;> decide

theorem Fp.infBits_add (fmt : NumFmt) : Fp.infBits fmt + 2 ^ Fp.fracBits fmt = Fp.signBit fmt := by
  cases fmt <;> rfl

theorem Fp.infBits_lt (fmt : NumFmt) : Fp.infBits fmt < Fp.signBit fmt := by
  cases fmt <;> decide

theorem Fp.magnitude_lt (fmt : NumFmt) (x : F) : Fp.magnitude fmt x < Fp.signBit fmt :=
  Nat.mod_lt _ (Nat.two_pow_pos _)

theorem Fp.toNat_withSign (h : k < Fp.signBit fmt) :
    (Fp.withSign fmt negative k).toNat = (if negative then Fp.signBit fmt else 0) + k := by
  have hcarrier := Fp.two_signBit_le fmt
  unfold Fp.withSign
  rw [BitVec.toNat_ofNat]
  cases negative
  · simpa using Nat.mod_eq_of_lt (show k < 2 ^ 64 by omega)
  · simpa using Nat.mod_eq_of_lt (show Fp.signBit fmt + k < 2 ^ 64 by omega)

theorem Fp.magnitude_withSign (h : k < Fp.signBit fmt) : Fp.magnitude fmt (Fp.withSign fmt negative k) = k := by
  rw [Fp.magnitude, Fp.toNat_withSign h]
  cases negative <;> simp [Nat.mod_eq_of_lt h]

theorem Fp.negative_withSign (h : k < Fp.signBit fmt) : Fp.negative fmt (Fp.withSign fmt negative k) = negative := by
  rw [Fp.negative, Fp.toNat_withSign h, Fp.two_pow_width, Nat.mod_eq_of_lt (by split <;> omega)]
  cases negative <;> simp [h]

/-- An encoding without stray bits above its width is its sign and its magnitude bits. -/
theorem Fp.withSign_negative_magnitude {x : F} (h : fmt.fits x = true) :
    Fp.withSign fmt (Fp.negative fmt x) (Fp.magnitude fmt x) = x := by
  have hfits : x.toNat < 2 * Fp.signBit fmt := by simpa [NumFmt.fits, Fp.two_pow_width] using h
  apply BitVec.eq_of_toNat_eq
  rw [Fp.toNat_withSign (Fp.magnitude_lt fmt x), Fp.magnitude, Fp.negative, Fp.two_pow_width, Nat.mod_eq_of_lt hfits]
  by_cases hx : Fp.signBit fmt ≤ x.toNat
  · rw [Nat.mod_eq_sub_mod hx, Nat.mod_eq_of_lt (by omega)]
    simp [hx]
  · rw [Nat.mod_eq_of_lt (by omega)]
    simp [hx]

/-- The sign bit does not decide whether an encoding is even. -/
theorem Fp.withSign_mod_two (h : k < Fp.signBit fmt) : (Fp.withSign fmt negative k).toNat % 2 = k % 2 := by
  have heven := Fp.signBit_even fmt
  rw [Fp.toNat_withSign h]
  split <;> omega

/-! ## What an encoding stands for -/

/-- The exponent and fraction fields, as `unpack` cuts them out, are those of the magnitude bits. -/
theorem Fp.fields_eq (fmt : NumFmt) (x : F) :
    x.toNat % 2 ^ fmt.width / 2 ^ Fp.fracBits fmt % 2 ^ Fp.expBits fmt = Fp.magnitude fmt x / 2 ^ Fp.fracBits fmt ∧
      x.toNat % 2 ^ fmt.width % 2 ^ Fp.fracBits fmt = Fp.magnitude fmt x % 2 ^ Fp.fracBits fmt := by
  have hfrac : 2 ^ Fp.fracBits fmt ∣ Fp.signBit fmt := ⟨_, Fp.signBit_eq fmt⟩
  have hsign : Fp.signBit fmt ∣ 2 ^ fmt.width := ⟨2, by rw [Fp.two_pow_width, Nat.mul_comm]⟩
  constructor
  · rw [← Nat.mod_mul_right_div_self, ← Fp.signBit_eq, Fp.magnitude, Nat.mod_mod_of_dvd _ hsign]
  · rw [Fp.magnitude, Nat.mod_mod_of_dvd _ hfrac, Nat.mod_mod_of_dvd _ (hfrac.trans hsign)]

/-- The exponent field is all ones from the magnitude bits of infinity on. -/
theorem Fp.exponent_eq_max_iff (h : k < Fp.signBit fmt) :
    k / 2 ^ Fp.fracBits fmt = Fp.expMax fmt ↔ Fp.infBits fmt ≤ k := by
  have hpos : 0 < 2 ^ Fp.fracBits fmt := Nat.two_pow_pos _
  have hle : Fp.expMax fmt ≤ k / 2 ^ Fp.fracBits fmt ↔ Fp.infBits fmt ≤ k := Nat.le_div_iff_mul_le hpos
  have hlt : k / 2 ^ Fp.fracBits fmt < Fp.expMax fmt + 1 := by
    rw [Nat.div_lt_iff_lt_mul hpos, Nat.add_mul, Nat.one_mul]
    exact h.trans_eq (Fp.infBits_add fmt).symm
  rw [← hle]
  omega

/-- What an encoding stands for, by its magnitude bits: finite below those of infinity, a NaN above them. -/
theorem Fp.unpack_eq (fmt : NumFmt) (x : F) :
    Fp.unpack fmt x =
      if Fp.magnitude fmt x < Fp.infBits fmt then .fin (Fp.negative fmt x) (Fp.units fmt (Fp.magnitude fmt x))
      else if Fp.magnitude fmt x = Fp.infBits fmt then .inf (Fp.negative fmt x) else .nan := by
  obtain ⟨hexp, hfrac⟩ := Fp.fields_eq fmt x
  have hmax := Fp.exponent_eq_max_iff (Fp.magnitude_lt fmt x)
  unfold Fp.unpack
  simp only [hexp, hfrac]
  by_cases hfin : Fp.magnitude fmt x < Fp.infBits fmt
  · rw [if_neg (by rw [hmax]; omega), if_pos hfin]
    unfold Fp.units Fp.negative
    split <;> rfl
  · have he := hmax.2 (by omega)
    have hinf : Fp.magnitude fmt x % 2 ^ Fp.fracBits fmt = 0 ↔ Fp.magnitude fmt x = Fp.infBits fmt := by
      have hdiv := Nat.div_add_mod' (Fp.magnitude fmt x) (2 ^ Fp.fracBits fmt)
      rw [he] at hdiv
      change Fp.infBits fmt + _ = _ at hdiv
      omega
    rw [if_pos he, if_neg hfin]
    simp only [hinf, Fp.negative]

/-- The finite values are those of the magnitude bits below infinity's. -/
theorem Fp.unpack_fin {x : F} {m : Nat} (h : Fp.unpack fmt x = .fin negative m) :
    ∃ k, k < Fp.infBits fmt ∧ m = Fp.units fmt k := by
  rw [Fp.unpack_eq] at h
  split at h
  · rename_i hk
    cases h
    exact ⟨_, hk, rfl⟩
  · split at h <;> cases h

theorem Fp.unpack_nan_iff {x : F} : Fp.unpack fmt x = .nan ↔ Fp.infBits fmt < Fp.magnitude fmt x := by
  rw [Fp.unpack_eq]
  split_ifs <;> simp <;> omega

theorem Fp.unpack_withSign_fin (h : k < Fp.infBits fmt) :
    Fp.unpack fmt (Fp.withSign fmt negative k) = .fin negative (Fp.units fmt k) := by
  have hk : k < Fp.signBit fmt := h.trans (Fp.infBits_lt fmt)
  rw [Fp.unpack_eq, Fp.magnitude_withSign hk, Fp.negative_withSign hk, if_pos h]

end

/-! ## NaN (60_exceptions.md R240) -/

section
variable {c : Ctx} {a b : F}

/-- Any sign and any fraction can be picked by 64 bits. -/
theorem Fp.exists_bits (fmt : NumFmt) (negative : Bool) {f : Nat} (h : f < 2 ^ Fp.fracBits fmt) :
    ∃ bits : BitVec 64, bits.toNat.testBit 63 = negative ∧ bits.toNat % 2 ^ Fp.fracBits fmt = f := by
  refine ⟨BitVec.ofNat 64 ((if negative then 2 ^ 63 else 0) + f), ?_, ?_⟩ <;>
    cases fmt <;> cases negative <;>
    simp only [Fp.fracBits, BitVec.toNat_ofNat, Nat.testBit_eq_decide_div_mod_eq] at h ⊢ <;> simp <;> omega

/-- The picks of a NaN are exactly the NaN encodings of the format (93 I10). -/
theorem Fp.unpack_nan_iff_nanOf {fmt : NumFmt} {y : F} (hy : fmt.fits y = true) :
    Fp.unpack fmt y = .nan ↔ ∃ bits, y = Fp.nanOf fmt bits := by
  constructor
  · intro h
    have hlo := Fp.unpack_nan_iff.1 h
    have hhi := Fp.magnitude_lt fmt y
    have hsum := Fp.infBits_add fmt
    obtain ⟨bits, hsign, hfrac⟩ := Fp.exists_bits fmt (Fp.negative fmt y)
      (f := Fp.magnitude fmt y - Fp.infBits fmt) (by omega)
    refine ⟨bits, ?_⟩
    have hne : Fp.magnitude fmt y - Fp.infBits fmt ≠ 0 := by omega
    have hadd : Fp.infBits fmt + (Fp.magnitude fmt y - Fp.infBits fmt) = Fp.magnitude fmt y := by omega
    simp only [Fp.nanOf, hsign, hfrac, if_neg hne, hadd]
    exact (Fp.withSign_negative_magnitude hy).symm
  · rintro ⟨bits, rfl⟩
    exact Fp.unpack_nanOf fmt bits

theorem Fp.add_nan (h : Fp.unpack c.fmt a = .nan ∨ Fp.unpack c.fmt b = .nan) : Fp.add c a b = Fp.nanOut c := by
  unfold Fp.add
  rcases h with h | h
  · simp [h]
  · cases ha : Fp.unpack c.fmt a <;> simp [h]

theorem Fp.sub_nan (h : Fp.unpack c.fmt a = .nan ∨ Fp.unpack c.fmt b = .nan) : Fp.sub c a b = Fp.nanOut c := by
  unfold Fp.sub
  rcases h with h | h
  · simp [h]
  · cases ha : Fp.unpack c.fmt a <;> simp [h]

theorem Fp.mul_nan (h : Fp.unpack c.fmt a = .nan ∨ Fp.unpack c.fmt b = .nan) : Fp.mul c a b = Fp.nanOut c := by
  unfold Fp.mul
  rcases h with h | h
  · simp [h]
  · cases ha : Fp.unpack c.fmt a <;> simp [h]

theorem Fp.div_nan (h : Fp.unpack c.fmt a = .nan ∨ Fp.unpack c.fmt b = .nan) : Fp.div c a b = Fp.nanOut c := by
  unfold Fp.div
  rcases h with h | h
  · simp [h]
  · cases ha : Fp.unpack c.fmt a <;> simp [h]

theorem Fp.orderKey_nan {fmt : NumFmt} (h : Fp.unpack fmt a = .nan) : Fp.orderKey fmt a = none := by
  simp [Fp.orderKey, h]

theorem Fp.orderKey_zero {fmt : NumFmt} {negative : Bool} (h : Fp.unpack fmt a = .fin negative 0) :
    Fp.orderKey fmt a = some 0 := by
  simp [Fp.orderKey, h]

theorem Fp.compare_nan {fmt : NumFmt} (h : Fp.unpack fmt a = .nan ∨ Fp.unpack fmt b = .nan) :
    Fp.lt fmt a b = false ∧ Fp.eq fmt a b = false := by
  unfold Fp.lt Fp.eq
  rcases h with h | h
  · simp [Fp.orderKey_nan h]
  · cases ha : Fp.orderKey fmt a <;> simp [Fp.orderKey_nan h]

end

/-- Settles O59: each operation on a NaN is the NaN of its place, and no NaN has a place in the order. -/
theorem nanPropagatesAndComparesFalse : Obligations.NanPropagatesAndComparesFalse := by
  unfold Obligations.NanPropagatesAndComparesFalse
  refine ⟨fun c a b h => ⟨fun v hv => ?_, Fp.compare_nan h⟩, fun fmt y hy => Fp.unpack_nan_iff_nanOf hy, ?_⟩
  · rw [Fp.add_nan h, Fp.sub_nan h, Fp.mul_nan h, Fp.div_nan h] at hv
    obtain rfl : v = Fp.nanOut c := by simpa using hv
    exact ⟨Fp.unpack_nanOut c, rfl⟩
  · intro fmt a b sa sb ha hb
    simp [Fp.eq, Fp.lt, Fp.orderKey_zero ha, Fp.orderKey_zero hb]

end Sys2Proof.Machine
end

section
/-! PROOFS. Rounding and the four operations (00_scope.md R11): consecutive magnitude bits stand for rising values, the
quotient lies between two of them, and the nearer one is taken. -/

namespace Sys2Proof.Machine

section
variable {fmt : NumFmt} {n d k : Nat}

/-! ## The values of consecutive magnitude bits -/

/-- Magnitude bits as an exponent step and a significand: with `s` exponent steps above the subnormals, the significand
`m` counts in steps of `2 ^ s` units, up to and including the carry into the next exponent. -/
theorem Fp.units_step {s m : Nat} (hlo : s = 0 ∨ 2 ^ Fp.fracBits fmt ≤ m) (hhi : m ≤ 2 * 2 ^ Fp.fracBits fmt) :
    Fp.units fmt (s * 2 ^ Fp.fracBits fmt + m) = m * 2 ^ s := by
  unfold Fp.units
  have hpos : 0 < 2 ^ Fp.fracBits fmt := Nat.two_pow_pos _
  generalize 2 ^ Fp.fracBits fmt = p at *
  have hdiv : (s * p + m) / p = s + m / p := by rw [Nat.mul_comm, Nat.mul_add_div hpos]
  have hmod : (s * p + m) % p = m % p := Nat.mul_add_mod_self_right ..
  rw [hdiv, hmod]
  rcases Nat.lt_trichotomy m p with h | rfl | h
  · obtain rfl : s = 0 := hlo.resolve_right (by omega)
    simp [Nat.div_eq_of_lt h, Nat.mod_eq_of_lt h]
  · simp [Nat.div_self hpos]
  · rcases Nat.lt_or_eq_of_le hhi with h2 | rfl
    · have h1 : m / p = 1 := Nat.div_eq_of_lt_le (by omega) (by omega)
      have h3 : m % p = m - p := by rw [Nat.mod_eq_sub_mod h.le, Nat.mod_eq_of_lt (by omega)]
      simp [h1, h3, Nat.add_sub_cancel' h.le]
    · have h1 : 2 * p / p = 2 := Nat.mul_div_cancel _ hpos
      simp [h1, Nat.pow_succ]
      ring

/-- Every magnitude has an exponent step and a significand that `units_step` speaks of, below the carry. -/
theorem Fp.exists_step (fmt : NumFmt) (k : Nat) :
    ∃ s m, k = s * 2 ^ Fp.fracBits fmt + m ∧ (s = 0 ∨ 2 ^ Fp.fracBits fmt ≤ m) ∧ m < 2 * 2 ^ Fp.fracBits fmt := by
  have hdiv := Nat.div_add_mod' k (2 ^ Fp.fracBits fmt)
  have hmod := Nat.mod_lt k (Nat.two_pow_pos (Fp.fracBits fmt))
  generalize 2 ^ Fp.fracBits fmt = p at *
  cases hq : k / p with
  | zero =>
    rw [hq, Nat.zero_mul] at hdiv
    exact ⟨0, k, by omega, .inl rfl, by omega⟩
  | succ s =>
    rw [hq, Nat.add_mul, Nat.one_mul] at hdiv
    exact ⟨s, p + k % p, by omega, .inr (by omega), by omega⟩

theorem Fp.units_lt_succ (fmt : NumFmt) (k : Nat) : Fp.units fmt k < Fp.units fmt (k + 1) := by
  obtain ⟨s, m, rfl, hlo, hhi⟩ := Fp.exists_step fmt k
  rw [Fp.units_step hlo hhi.le, Nat.add_assoc, Fp.units_step (by omega) hhi]
  exact Nat.mul_lt_mul_of_pos_right (Nat.lt_succ_self m) (Nat.two_pow_pos s)

theorem Fp.units_strictMono (fmt : NumFmt) : StrictMono (Fp.units fmt) := strictMono_nat_of_lt_succ (Fp.units_lt_succ fmt)

theorem Fp.fracBits_pos (fmt : NumFmt) : 0 < Fp.fracBits fmt := by cases fmt <;> decide

theorem Fp.infBits_even (fmt : NumFmt) : Fp.infBits fmt % 2 = 0 := by cases fmt <;> decide

/-- Halfway between the largest finite magnitude and the value one step above it, twice (00_scope.md R11). -/
theorem Fp.units_overflow (fmt : NumFmt) :
    Fp.units fmt (Fp.infBits fmt - 1) + Fp.units fmt (Fp.infBits fmt) =
      (2 ^ (Fp.fracBits fmt + 2) - 1) * 2 ^ (Fp.expMax fmt - 2) := by
  obtain ⟨e, he⟩ : ∃ e, Fp.expMax fmt = e + 2 := ⟨Fp.expMax fmt - 2, by cases fmt <;> decide⟩
  have hpos : 0 < 2 ^ Fp.fracBits fmt := Nat.two_pow_pos _
  have hinf : Fp.infBits fmt = e * 2 ^ Fp.fracBits fmt + 2 * 2 ^ Fp.fracBits fmt := by
    rw [Fp.infBits, he, Nat.add_mul]
  have hlast : Fp.infBits fmt - 1 = e * 2 ^ Fp.fracBits fmt + (2 * 2 ^ Fp.fracBits fmt - 1) := by omega
  rw [hlast, hinf, Fp.units_step (by omega) (by omega), Fp.units_step (by omega) le_rfl, he, Nat.add_sub_cancel,
    ← Nat.add_mul, Nat.pow_add]
  congr 1
  omega

/-! ## The nearer of two neighbours -/

/-- The encoding chosen between the neighbours `k` and `k + 1` of `n / d`: the nearer one, the even one on a tie. -/
def Fp.nearest (fmt : NumFmt) (n d k : Nat) : Nat :=
  if d * (Fp.units fmt k + Fp.units fmt (k + 1)) < 2 * n ∨
      (2 * n = d * (Fp.units fmt k + Fp.units fmt (k + 1)) ∧ k % 2 = 1) then k + 1 else k

/-- The magnitudes `k` and `k + 1` are the neighbours of `n / d`. -/
def Fp.between (fmt : NumFmt) (n d k : Nat) : Prop :=
  d * Fp.units fmt k ≤ n ∧ n < d * Fp.units fmt (k + 1)

/-- The exponent step of a quotient, as `roundUnits` takes it, leaves a significand that `units_step` speaks of. -/
theorem Fp.shift_spec (p q : Nat) :
    let shift := if q < 2 ^ (p + 1) then 0 else Nat.log2 q - p
    (shift = 0 ∨ 2 ^ p ≤ q / 2 ^ shift) ∧ q / 2 ^ shift < 2 * 2 ^ p := by
  have hp : 2 ^ (p + 1) = 2 * 2 ^ p := by rw [Nat.pow_succ, Nat.mul_comm]
  intro shift
  by_cases hq : q < 2 ^ (p + 1)
  · have h0 : shift = 0 := if_pos hq
    rw [h0]
    exact ⟨.inl rfl, by simpa [← hp] using hq⟩
  · have hs : shift = Nat.log2 q - p := if_neg hq
    have hq0 : q ≠ 0 := fun h => hq (by rw [h]; exact Nat.two_pow_pos _)
    have hlog : p + 1 ≤ Nat.log2 q := (Nat.le_log2 hq0).2 (by omega)
    have hpow : 2 ^ Nat.log2 q = 2 ^ p * 2 ^ shift := by rw [← Nat.pow_add, hs]; congr 1; omega
    refine ⟨.inr ((Nat.le_div_iff_mul_le (Nat.two_pow_pos _)).2 (hpow ▸ Nat.log2_self_le hq0)), ?_⟩
    refine (Nat.div_lt_iff_lt_mul (Nat.two_pow_pos _)).2 ?_
    calc q < 2 ^ (Nat.log2 q + 1) := Nat.lt_log2_self
      _ = 2 * 2 ^ p * 2 ^ shift := by rw [Nat.pow_succ, hpow]; ring

/-- Rounding finds the neighbours of the quotient and takes the nearest, cut off at infinity. -/
theorem Fp.roundUnits_eq (fmt : NumFmt) (n : Nat) (hd : 0 < d) :
    ∃ k, Fp.between fmt n d k ∧ Fp.roundUnits fmt n d = min (Fp.nearest fmt n d k) (Fp.infBits fmt) := by
  obtain ⟨hlo, hhi⟩ := Fp.shift_spec (Fp.fracBits fmt) (n / d)
  unfold Fp.roundUnits
  simp only
  generalize (if n / d < 2 ^ (Fp.fracBits fmt + 1) then 0 else Nat.log2 (n / d) - Fp.fracBits fmt) = s at *
  rw [Nat.div_div_eq_div_mul] at hlo hhi
  have hstep : 0 < d * 2 ^ s := Nat.mul_pos hd (Nat.two_pow_pos s)
  have hdm := Nat.div_add_mod n (d * 2 ^ s)
  have hr := Nat.mod_lt n hstep
  generalize n / (d * 2 ^ s) = m at *
  generalize n % (d * 2 ^ s) = r at *
  have hk : d * Fp.units fmt (s * 2 ^ Fp.fracBits fmt + m) = d * 2 ^ s * m := by
    rw [Fp.units_step hlo hhi.le]; ring
  have hk1 : d * Fp.units fmt (s * 2 ^ Fp.fracBits fmt + m + 1) = d * 2 ^ s * m + d * 2 ^ s := by
    rw [Nat.add_assoc, Fp.units_step (by omega) hhi, Nat.succ_eq_add_one]; ring
  have hodd : (s * 2 ^ Fp.fracBits fmt + m) % 2 = m % 2 := by
    obtain ⟨j, hj⟩ := Nat.exists_eq_succ_of_ne_zero (Fp.fracBits_pos fmt).ne'
    rw [hj, Nat.pow_succ, ← Nat.mul_assoc, Nat.mul_add_mod_self_right]
  refine ⟨s * 2 ^ Fp.fracBits fmt + m, ⟨by omega, by omega⟩, ?_⟩
  unfold Fp.nearest
  rw [Nat.mul_add, hk, hk1, hodd]
  have hiff : (d * 2 ^ s < 2 * r ∨ 2 * r = d * 2 ^ s ∧ m % 2 = 1) ↔
      (d * 2 ^ s * m + (d * 2 ^ s * m + d * 2 ^ s) < 2 * n ∨
        2 * n = d * 2 ^ s * m + (d * 2 ^ s * m + d * 2 ^ s) ∧ m % 2 = 1) := by omega
  simp only [hiff]
  split <;> rfl

/-- The nearest encoding reaches an even one exactly from halfway between it and the one before on. -/
theorem Fp.le_nearest_iff (hk : Fp.between fmt n d k) {j : Nat} (hj : j % 2 = 1) :
    j + 1 ≤ Fp.nearest fmt n d k ↔ d * (Fp.units fmt j + Fp.units fmt (j + 1)) ≤ 2 * n := by
  have hmono := (Fp.units_strictMono fmt).monotone
  obtain ⟨hlo, hhi⟩ := hk
  unfold Fp.nearest
  rcases Nat.lt_trichotomy k j with h | rfl | h
  · have h1 : d * Fp.units fmt (k + 1) ≤ d * Fp.units fmt j := Nat.mul_le_mul_left d (hmono h)
    have h2 : d * Fp.units fmt j ≤ d * Fp.units fmt (j + 1) := Nat.mul_le_mul_left d (hmono (Nat.le_succ j))
    simp only [Nat.mul_add]
    split <;> omega
  · split <;> omega
  · have h1 : d * Fp.units fmt (j + 1) ≤ d * Fp.units fmt k := Nat.mul_le_mul_left d (hmono h)
    have h2 : d * Fp.units fmt j ≤ d * Fp.units fmt (j + 1) := Nat.mul_le_mul_left d (hmono (Nat.le_succ j))
    simp only [Nat.mul_add]
    split <;> omega

/-- How far `m` units lie from `n / d`, in units over `d`. -/
def Fp.distance (n d m : Nat) : Nat := ((m * d : Int) - n).natAbs

/-- No encoding is nearer to the quotient than the one chosen, and where another value is as near, the chosen one is
even. -/
theorem Fp.nearest_spec (hd : 0 < d) (hk : Fp.between fmt n d k) (k' : Nat) :
    let chosen := Fp.nearest fmt n d k
    Fp.distance n d (Fp.units fmt chosen) ≤ Fp.distance n d (Fp.units fmt k') ∧
      (Fp.distance n d (Fp.units fmt chosen) = Fp.distance n d (Fp.units fmt k') →
        Fp.units fmt chosen ≠ Fp.units fmt k' → chosen % 2 = 0) := by
  obtain ⟨hlo, hhi⟩ := hk
  have hmono := (Fp.units_strictMono fmt).monotone
  have hdist : ∀ u : Nat, Fp.distance n d u = ((d * u : Nat) - (n : Int)).natAbs := fun u => by
    rw [Fp.distance, Nat.mul_comm, Nat.cast_mul]
  have hside : d * Fp.units fmt k' ≤ d * Fp.units fmt k ∨ d * Fp.units fmt (k + 1) ≤ d * Fp.units fmt k' := by
    rcases Nat.lt_or_ge k k' with h | h
    · exact .inr (Nat.mul_le_mul_left d (hmono h))
    · exact .inl (Nat.mul_le_mul_left d (hmono h))
  have hinj : ∀ i, Fp.units fmt i ≠ Fp.units fmt k' → d * Fp.units fmt i ≠ d * Fp.units fmt k' :=
    fun i h e => h (Nat.eq_of_mul_eq_mul_left hd e)
  simp only [hdist]
  unfold Fp.nearest
  rw [Nat.mul_add]
  split
  · refine ⟨by omega, fun he hne => ?_⟩
    have := hinj _ hne
    omega
  · refine ⟨by omega, fun he hne => ?_⟩
    have := hinj _ hne
    omega

end

/-- Settles O57: rounding takes the nearest magnitude, and the cut at infinity agrees with the half step above the largest
finite magnitude because the encoding of infinity is even. -/
theorem roundingIsToNearestEven : Obligations.RoundingIsToNearestEven := by
  unfold Obligations.RoundingIsToNearestEven
  intro fmt negative n d hd
  obtain ⟨k, hk, hround⟩ := Fp.roundUnits_eq fmt n hd
  have heven := Fp.infBits_even fmt
  have hpos : 0 < Fp.infBits fmt := by cases fmt <;> decide
  have hover := Fp.le_nearest_iff hk (j := Fp.infBits fmt - 1) (by omega)
  rw [Nat.sub_add_cancel hpos, Fp.units_overflow] at hover
  simp only [Fp.round, hround]
  by_cases hinf : Fp.infBits fmt ≤ Fp.nearest fmt n d k
  · have hunpack : Fp.unpack fmt (Fp.withSign fmt negative (Fp.infBits fmt)) = .inf negative :=
      Fp.unpack_infinity fmt negative
    rw [Nat.min_eq_right hinf, hunpack]
    exact ⟨iff_of_true rfl (hover.1 hinf), .inl rfl⟩
  · have hlt : Fp.nearest fmt n d k < Fp.infBits fmt := Nat.lt_of_not_le hinf
    rw [Nat.min_eq_left hlt.le, Fp.unpack_withSign_fin hlt,
      Fp.withSign_mod_two (hlt.trans (Fp.infBits_lt fmt))]
    refine ⟨iff_of_false (by simp) fun h => hinf (hover.2 h), .inr ⟨_, rfl, fun y m' hy => ?_⟩⟩
    obtain ⟨k', -, rfl⟩ := Fp.unpack_fin hy
    exact Fp.nearest_spec hd hk k'

/-! ## The four operations -/

/-- A sign and a magnitude as a whole number of units. -/
def Fp.signed (negative : Bool) (m : Nat) : Int := if negative then -(m : Int) else m

/-- A whole number of units rounded once; a zero takes the sign given for it. -/
def Fp.roundInt (fmt : NumFmt) (zeroSign : Bool) (z : Int) : F :=
  Fp.round fmt (if z = 0 then zeroSign else decide (z < 0)) z.natAbs 1

section
variable {fmt : NumFmt} {c : Ctx} {a b : F} {s t z : Bool} {m n : Nat}

theorem Fp.roundInt_signed (h : m ≠ 0 ∨ z = s) : Fp.roundInt fmt z (Fp.signed s m) = Fp.round fmt s m 1 := by
  by_cases h0 : m = 0
  · obtain rfl := h.resolve_left (absurd h0)
    simp [Fp.roundInt, Fp.signed, h0]
  · have hneg : ¬ (m : Int) < 0 := by omega
    cases s <;> simp [Fp.roundInt, Fp.signed, h0, hneg, Nat.pos_of_ne_zero h0]

theorem Fp.roundInt_zero (fmt : NumFmt) : Fp.roundInt fmt false 0 = Fp.zero := by
  cases fmt <;> decide

/-- A sum of terms of one sign adds the magnitudes. -/
theorem Fp.signed_add_same (s : Bool) (m n : Nat) : Fp.signed s m + Fp.signed s n = Fp.signed s (m + n) := by
  cases s <;> simp [Fp.signed]; omega

/-- A sum of terms of two signs takes the lesser magnitude from the greater, whose sign it has. -/
theorem Fp.signed_add_not (s : Bool) (h : n ≤ m) : Fp.signed s m + Fp.signed (!s) n = Fp.signed s (m - n) := by
  cases s <;> simp [Fp.signed] <;> omega

/-- Addition of finite values is the exact sum rounded once; an exact zero is -0 only when both terms have a minus
sign. -/
theorem Fp.addFinite_eq (fmt : NumFmt) (s : Bool) (m : Nat) (t : Bool) (n : Nat) :
    Fp.addFinite fmt s m t n = Fp.roundInt fmt (s && t) (Fp.signed s m + Fp.signed t n) := by
  unfold Fp.addFinite
  by_cases hst : s = t
  · subst hst
    rw [if_pos rfl, Fp.signed_add_same, Fp.roundInt_signed (by simp)]
  · obtain rfl : t = !s := by cases s <;> cases t <;> simp at hst ⊢
    rw [if_neg hst, Bool.and_not_self]
    rcases Nat.lt_trichotomy m n with h | rfl | h
    · have hsum := Fp.signed_add_not (!s) h.le
      rw [Bool.not_not] at hsum
      rw [if_neg (by omega), if_neg (by omega), Int.add_comm, hsum, Fp.roundInt_signed (by omega)]
    · rw [if_pos rfl, Fp.signed_add_not s le_rfl, Nat.sub_self, show Fp.signed s 0 = 0 by cases s <;> rfl,
        Fp.roundInt_zero]
    · rw [if_neg (by omega), if_pos h, Fp.signed_add_not s h.le, Fp.roundInt_signed (by omega)]

theorem Fp.add_finite (ha : Fp.unpack c.fmt a = .fin s m) (hb : Fp.unpack c.fmt b = .fin t n) :
    Fp.add c a b = Fp.roundInt c.fmt (s && t) (Fp.signed s m + Fp.signed t n) := by
  simp [Fp.add, ha, hb, Fp.addFinite_eq]

theorem Fp.sub_finite (ha : Fp.unpack c.fmt a = .fin s m) (hb : Fp.unpack c.fmt b = .fin t n) :
    Fp.sub c a b = Fp.roundInt c.fmt (s && !t) (Fp.signed s m + Fp.signed (!t) n) := by
  simp [Fp.sub, ha, hb, Fp.addFinite_eq]

theorem Fp.mul_finite (ha : Fp.unpack c.fmt a = .fin s m) (hb : Fp.unpack c.fmt b = .fin t n) :
    Fp.mul c a b = Fp.round c.fmt (s != t) (m * n) (Fp.one c.fmt) := by
  simp [Fp.mul, ha, hb]

theorem Fp.div_finite (ha : Fp.unpack c.fmt a = .fin s m) (hb : Fp.unpack c.fmt b = .fin t n) :
    Fp.div c a b =
      if n = 0 then if m = 0 then Fp.nanOut c else Fp.infinity c.fmt (s != t)
      else Fp.round c.fmt (s != t) (m * Fp.one c.fmt) n := by
  simp [Fp.div, ha, hb]

theorem Fp.ops_inf_fin (ha : Fp.unpack c.fmt a = .inf s) (hb : Fp.unpack c.fmt b = .fin t n) :
    Fp.add c a b = Fp.infinity c.fmt s ∧ Fp.sub c a b = Fp.infinity c.fmt s ∧
      Fp.mul c a b = (if n = 0 then Fp.nanOut c else Fp.infinity c.fmt (s != t)) ∧
      Fp.div c a b = Fp.infinity c.fmt (s != t) := by
  simp [Fp.add, Fp.sub, Fp.mul, Fp.div, ha, hb]

theorem Fp.ops_fin_inf (ha : Fp.unpack c.fmt a = .fin s m) (hb : Fp.unpack c.fmt b = .inf t) :
    Fp.add c a b = Fp.infinity c.fmt t ∧ Fp.sub c a b = Fp.infinity c.fmt (!t) ∧
      Fp.mul c a b = (if m = 0 then Fp.nanOut c else Fp.infinity c.fmt (s != t)) ∧
      Fp.div c a b = Fp.withSign c.fmt (s != t) 0 := by
  simp [Fp.add, Fp.sub, Fp.mul, Fp.div, ha, hb]

theorem Fp.ops_inf_inf (ha : Fp.unpack c.fmt a = .inf s) (hb : Fp.unpack c.fmt b = .inf t) :
    Fp.add c a b = (if s = t then Fp.infinity c.fmt s else Fp.nanOut c) ∧
      Fp.sub c a b = (if s = t then Fp.nanOut c else Fp.infinity c.fmt s) ∧
      Fp.mul c a b = Fp.infinity c.fmt (s != t) ∧ Fp.div c a b = Fp.nanOut c := by
  simp [Fp.add, Fp.sub, Fp.mul, Fp.div, ha, hb]

end

/-- Settles O58: by the kinds of the two operands; only two finite ones need the law of signed sums. -/
theorem arithmeticRoundsTheExactResult : Obligations.ArithmeticRoundsTheExactResult := by
  unfold Obligations.ArithmeticRoundsTheExactResult
  intro c a b sa sb signed isSum finite infinite nan
  refine ⟨fun m n ha hb => ?_, fun n ha hb => ?_, fun m ha hb => ?_, fun ha hb => ?_⟩
  · refine ⟨Fp.add_finite ha hb, Fp.sub_finite ha hb, Fp.mul_finite ha hb, ?_⟩
    simp +contextual [infinite, nan, Fp.div_finite ha hb, Fp.unpack_nanOut]
  · obtain ⟨hadd, hsub, hmul, hdiv⟩ := Fp.ops_inf_fin ha hb
    simp +contextual [infinite, nan, hadd, hsub, hmul, hdiv, Fp.unpack_nanOut]
  · obtain ⟨hadd, hsub, hmul, hdiv⟩ := Fp.ops_fin_inf ha hb
    simp +contextual [finite, infinite, nan, hadd, hsub, hmul, hdiv, Fp.unpack_nanOut]
  · obtain ⟨hadd, hsub, hmul, hdiv⟩ := Fp.ops_inf_inf ha hb
    simp +contextual [infinite, nan, hadd, hsub, hmul, hdiv, Fp.unpack_nanOut]

end Sys2Proof.Machine
end

section
/-! PROOFS. What a command can do to the state of 10_state.md: how a line can evolve (R26 to R28), which registers a
command can write (R24), and the invariants of a network packaged once for every step. -/

namespace Sys2Proof.Machine

/-! ## How a line evolves under the procedures of 40_delay_line.md and 41_diffusion.md -/

/-- What every line procedure keeps: CAP never decreases (10_state.md R28 (c)), LSR stays (R26), and the line invariants
under `p` are kept (R28). -/
structure Line.Evolves (p : Params) (a b : Line) : Prop where
  cap : a.cap ≤ b.cap
  lsr : b.lsr = a.lsr
  wf : a.wf p = true → b.wf p = true

section
variable {c : Ctx} {p : Params} {a b d ln ln' : Line}

theorem Line.Evolves.refl (p : Params) (a : Line) : a.Evolves p a := ⟨le_rfl, rfl, id⟩

theorem Line.Evolves.trans (h : a.Evolves p b) (h' : b.Evolves p d) : a.Evolves p d :=
  ⟨h.cap.trans h'.cap, h'.lsr.trans h.lsr, h'.wf ∘ h.wf⟩

theorem Line.currentOutput_evolves {y : F} (h : ln.currentOutput c = .ok (y, ln')) : ln.Evolves p ln' := by
  obtain ⟨aps, rfl⟩ := Line.currentOutput_line h
  exact ⟨le_rfl, rfl, id⟩

theorem Line.push_evolves {s : F} (h : ln.push c s = .ok ln') : ln.Evolves p ln' := by
  have hwf : ln.wf p = true → ln'.wf p = true := fun hw => Line.push_wf hw h
  obtain ⟨-, -, _, _, _, _, _, rfl, -⟩ := Line.push_ok h
  exact ⟨le_rfl, rfl, hwf⟩

theorem Line.diffuse_evolves {x k y : F} (h : ln.diffuse c x k = .ok (y, ln')) : ln.Evolves p ln' := by
  obtain ⟨_, _, hout, hpush, -⟩ := Line.diffuse_ok h
  exact (Line.currentOutput_evolves hout).trans (Line.push_evolves hpush)

theorem Line.cap_le_grow (ln : Line) (need : Nat) : ln.cap ≤ (ln.grow need).cap := by
  unfold Line.grow
  split
  · exact Nat.le_of_lt ‹_›
  · exact le_rfl

theorem Line.grow_lsr (ln : Line) (need : Nat) : (ln.grow need).lsr = ln.lsr := by
  unfold Line.grow
  split <;> rfl

theorem Line.setLength_evolves {len : F} (h : ln.setLength c len = .ok ln') : ln.Evolves c.cfg ln' := by
  have hwf : ln.wf c.cfg = true → ln'.wf c.cfg = true := fun hw => Line.setLength_wf hw h
  rcases Line.setLength_ok h with ⟨-, rfl⟩ | ⟨-, need, _, -, -, -, -, -, rfl⟩
  · exact .refl _ _
  · exact ⟨ln.cap_le_grow need, ln.grow_lsr need, hwf⟩

end

/-! ## How the thirteen lines evolve -/

/-- Every one of the thirteen lines evolves. -/
def Lines.Evolves (p : Params) (ls ls' : Lines) : Prop := ∀ l, (ls.get l).Evolves p (ls'.get l)

section
variable {c : Ctx} {p : Params} {ls ls' ls'' : Lines}

theorem Lines.Evolves.refl (p : Params) (ls : Lines) : ls.Evolves p ls := fun _ => .refl _ _

theorem Lines.Evolves.trans (h : ls.Evolves p ls') (h' : ls'.Evolves p ls'') : ls.Evolves p ls'' :=
  fun l => (h l).trans (h' l)

theorem Lines.Evolves.wf (h : ls.Evolves p ls') (hw : ls.wf p = true) : ls'.wf p = true :=
  Lines.wf_iff.2 fun l => (h l).wf (Lines.wf_iff.1 hw l)

theorem Lines.evolves_set {l : LineName} {ln : Line} (h : (ls.get l).Evolves p ln) : ls.Evolves p (ls.set l ln) := by
  intro l'
  rw [Lines.get_set]
  split
  · subst l'; exact h
  · exact .refl _ _

theorem Lines.push_evolves {l : LineName} {s : F} (h : ls.push c l s = .ok ls') : ls.Evolves p ls' := by
  obtain ⟨_, hln, rfl⟩ := Lines.push_ok h
  exact Lines.evolves_set (Line.push_evolves hln)

theorem Lines.currentOutput_evolves {l : LineName} {y : F} (h : ls.currentOutput c l = .ok (y, ls')) :
    ls.Evolves p ls' := by
  obtain ⟨_, hln, rfl⟩ := Lines.currentOutput_ok h
  exact Lines.evolves_set (Line.currentOutput_evolves hln)

theorem Lines.diffuse_evolves {l : LineName} {x k y : F} (h : ls.diffuse c l x k = .ok (y, ls')) :
    ls.Evolves p ls' := by
  obtain ⟨_, hln, rfl⟩ := Lines.diffuse_ok h
  exact Lines.evolves_set (Line.diffuse_evolves hln)

theorem Lines.pass_evolves {l : LineName} {s y : F} (h : ls.pass c l s = .ok (y, ls')) : ls.Evolves p ls' := by
  obtain ⟨_, hpush, hout⟩ := Lines.pass_ok h
  exact (Lines.push_evolves hpush).trans (Lines.currentOutput_evolves hout)

theorem inputDiffusion_evolves {id1 id2 x y : F} (h : inputDiffusion c id1 id2 ls x = .ok (y, ls')) :
    ls.Evolves p ls' := by
  obtain ⟨_, _, _, _, _, _, h0, h1, h2, h3⟩ := inputDiffusion_ok h
  exact (Lines.diffuse_evolves h0).trans <| (Lines.diffuse_evolves h1).trans <|
    (Lines.diffuse_evolves h2).trans (Lines.diffuse_evolves h3)

theorem tankStep_evolves {t : Tank} {s : State} {seed lp lp' : F} (h : tankStep c t s ls seed lp = .ok (lp', ls')) :
    ls.Evolves p ls' := by
  obtain ⟨_, _, _, _, _, _, h1, h2, -, h3, h4⟩ := tankStep_ok h
  exact (Lines.diffuse_evolves h1).trans <| (Lines.pass_evolves h2).trans <|
    (Lines.diffuse_evolves h3).trans (Lines.push_evolves h4)

theorem Lines.setLength_evolves {l : LineName} {len : F} (h : ls.setLength c l len = .ok ls') :
    ls.Evolves c.cfg ls' := by
  obtain ⟨_, hln, rfl⟩ := Lines.setLength_ok h
  exact Lines.evolves_set (Line.setLength_evolves hln)

theorem Lines.setLengths_evolves {ratio : F} :
    ∀ {table : List (LineName × Nat)} {ls : Lines}, Lines.setLengths c ratio table ls = .ok ls' →
      ls.Evolves c.cfg ls'
  | [], _, h => by cases h; exact .refl _ _
  | (l, canon) :: rest, ls, h => by
    unfold Lines.setLengths at h
    split at h
    · cases h
    · rename_i ls1 h1
      exact (Lines.setLength_evolves (c := (c.at 14).at (l.number + 1)) h1).trans (Lines.setLengths_evolves h)

end

/-! ## What a command writes (10_state.md R24) -/

/-- What a command but INIT and DEINIT can write on a network with lines `ls`, and which command writes it: one
coefficient or gain by its own SETP; lines; lines and RATIO by SIZE; lines and the low-pass states by the frame
commands. -/
inductive State.Update (p : Params) (s : State) (ls : Lines) : Instr → State → Prop where
  | bandwidth (v x : F) : Update p s ls (.setpBandwidth v) { s with bw := x }
  | damping (v x : F) : Update p s ls (.setpDamping v) { s with damp := x }
  | decay (v x : F) : Update p s ls (.setpDecay v) { s with decay := x }
  | diffusion1 (v x : F) : Update p s ls (.setpDiffusion1 v) { s with dd1 := x }
  | diffusion2 (v x : F) : Update p s ls (.setpDiffusion2 v) { s with dd2 := x }
  | indiff1 (v x : F) : Update p s ls (.setpIndiff1 v) { s with id1 := x }
  | indiff2 (v x : F) : Update p s ls (.setpIndiff2 v) { s with id2 := x }
  | wet (v x : F) : Update p s ls (.setpWet v) { s with wet := x }
  | dry (v x : F) : Update p s ls (.setpDry v) { s with dry := x }
  | lines (i : Instr) {ls' : Lines} (h : ls.Evolves p ls') : Update p s ls i { s with lines := some ls' }
  | size (v ratio : F) {ls' : Lines} (h : ls.Evolves p ls') :
      Update p s ls (.setpSize v) { s with lines := some ls', ratio := ratio }
  | frame {i : Instr} (hi : i.opcode ∈ [.frame, .pmono, .pstereo]) (lpbw lpa lpb : F) {ls' : Lines}
      (h : ls.Evolves p ls') :
      Update p s ls i { s with lpbw := lpbw, lpa := lpa, lpb := lpb, lines := some ls' }

/-- A state with a network becomes one with a network: its lines evolve, SR and the parameters stay. -/
structure State.Evolves (p : Params) (s t : State) : Prop where
  cfg : t.cfg = s.cfg
  sr : t.sr = s.sr
  network : ∃ ls ls', s.lines = some ls ∧ t.lines = some ls' ∧ ls.Evolves p ls'

section
variable {c : Ctx} {p : Params} {i : Instr} {ls : Lines} {s t u : State} {v : F}

theorem State.Evolves.trans (h : s.Evolves p t) (h' : t.Evolves p u) : s.Evolves p u := by
  obtain ⟨ls, ls', hs, ht, hls⟩ := h.network
  obtain ⟨_, ls'', ht', hu, hls'⟩ := h'.network
  obtain rfl := Option.some.inj (ht.symm.trans ht')
  exact ⟨h'.cfg.trans h.cfg, h'.sr.trans h.sr, ls, ls'', hs, hu, hls.trans hls'⟩

theorem State.Update.evolves (h : s.Update p ls i u) (hl : s.lines = some ls) : s.Evolves p u := by
  cases h with
  | bandwidth | damping | decay | diffusion1 | diffusion2 | indiff1 | indiff2 | wet | dry =>
    exact ⟨rfl, rfl, ls, ls, hl, hl, .refl _ _⟩
  | lines _ h | size _ _ h | frame _ _ _ _ h => exact ⟨rfl, rfl, ls, _, hl, rfl, h⟩

/-! ### One rule per parameter (43_parameters.md R181 to R192) -/

theorem State.onLines_update (i : Instr) {body : Lines → Except Stop Lines} (hl : s.lines = some ls)
    (hbody : ∀ ls', body ls = .ok ls' → ls.Evolves p ls') (h : s.onLines body = .ok t) : s.Update p ls i t := by
  obtain ⟨_, ls', hl', hb, rfl⟩ := State.onLines_ok h
  obtain rfl := Option.some.inj (hl.symm.trans hl')
  exact .lines i (hbody ls' hb)

theorem applyPredelay_update (hl : s.lines = some ls) (h : applyPredelay c v s = .ok t) :
    s.Update c.cfg ls (.setpPredelay v) t :=
  State.onLines_update _ hl (fun _ hb => Lines.setLength_evolves (c := c.at 2) hb) h

theorem applyBandwidth_update (h : applyBandwidth c v s = .ok t) : s.Update p ls (.setpBandwidth v) t := by
  cases h; exact .bandwidth v _

theorem applyDamping_update (h : applyDamping v s = .ok t) : s.Update p ls (.setpDamping v) t := by
  cases h; exact .damping v _

theorem applyDecay_update (h : applyDecay v s = .ok t) : s.Update p ls (.setpDecay v) t := by
  cases h; exact .decay v _

theorem applyDiffusion1_update (h : applyDiffusion1 v s = .ok t) : s.Update p ls (.setpDiffusion1 v) t := by
  cases h; exact .diffusion1 v _

theorem applyDiffusion2_update (h : applyDiffusion2 v s = .ok t) : s.Update p ls (.setpDiffusion2 v) t := by
  cases h; exact .diffusion2 v _

theorem applyIndiff1_update (h : applyIndiff1 v s = .ok t) : s.Update p ls (.setpIndiff1 v) t := by
  cases h; exact .indiff1 v _

theorem applyIndiff2_update (h : applyIndiff2 v s = .ok t) : s.Update p ls (.setpIndiff2 v) t := by
  cases h; exact .indiff2 v _

/-- MODULATION writes EXT and FREQ of lines 4 and 5, of which the line invariants do not speak (R189). -/
theorem applyModulation_update (hl : s.lines = some ls) (h : applyModulation c v s = .ok t) :
    s.Update p ls (.setpModulation v) t := by
  refine State.onLines_update _ hl (fun ls' hb => ?_) h
  cases hb
  intro l
  cases l <;> exact ⟨le_rfl, rfl, id⟩

theorem State.keepRatio_eq (s : State) (ratio : F) :
    s.keepRatio ratio = { s with ratio := (s.keepRatio ratio).ratio } := by
  unfold State.keepRatio
  split <;> rfl

theorem applySize_update (hl : s.lines = some ls) (h : applySize c v s = .ok t) :
    s.Update c.cfg ls (.setpSize v) t := by
  obtain ⟨-, _, ls', hl', hset, rfl⟩ := applySize_ok h
  obtain rfl := Option.some.inj (hl.symm.trans hl')
  rw [State.keepRatio_eq]
  exact .size v _ (Lines.setLengths_evolves (c := c.at 2) hset)

theorem applyWet_update (h : applyWet c v s = .ok t) : s.Update p ls (.setpWet v) t := by
  cases h; exact .wet v _

theorem applyDry_update (h : applyDry c v s = .ok t) : s.Update p ls (.setpDry v) t := by
  cases h; exact .dry v _

/-- A frame writes the lines and the low-pass states (42_network.md R160). -/
theorem frameOn_update {left right wl wr : F} (hi : i.opcode ∈ [.frame, .pmono, .pstereo])
    (h : frameOn c s ls left right = .ok (u, wl, wr)) : s.Update p ls i u := by
  obtain ⟨-, _, _, _, _, _, _, _, _, _, _, _, _, h1, h2, h3, h4, h5, h6, -, -, rfl⟩ := frameOn_ok h
  exact .frame hi _ _ _ <| (Lines.pass_evolves h1).trans <| (inputDiffusion_evolves h2).trans <|
    (Lines.currentOutput_evolves h3).trans <| (Lines.currentOutput_evolves h4).trans <|
    (tankStep_evolves h5).trans (tankStep_evolves h6)

end

/-! ## What a command leaves (60_exceptions.md R232 to R236) -/

/-- The states agree on the parameters, the registers and the lines: they differ on the port, in the reset input, the
draws and the recorded fault at most. -/
def State.SameNetwork (s t : State) : Prop :=
  ∃ inq out resetIn draws fault,
    t = { s with inq := inq, out := out, resetIn := resetIn, draws := draws, fault := fault }

/-- What a command but INIT and DEINIT leaves: the network as it was (an observation, a fault or a rejection), or one of
its own updates of it. -/
def State.Performed (i : Instr) (s t : State) : Prop :=
  s.SameNetwork t ∨ ∃ ls u, s.lines = some ls ∧ s.Update s.cfg ls i u ∧ u.SameNetwork t

section
variable {i : Instr} {s t u : State}

theorem State.SameNetwork.trans (h : s.SameNetwork t) (h' : t.SameNetwork u) : s.SameNetwork u := by
  obtain ⟨_, _, _, _, _, rfl⟩ := h
  obtain ⟨_, _, _, _, _, rfl⟩ := h'
  exact ⟨_, _, _, _, _, rfl⟩

theorem State.sameNetwork_inq (s : State) (rest : List Item) : s.SameNetwork { s with inq := rest } :=
  ⟨_, _, _, _, _, rfl⟩

theorem State.sameNetwork_respond (s : State) (status : Word) (results : List Item) :
    s.SameNetwork (s.respond status results) := ⟨_, _, _, _, _, rfl⟩

theorem State.sameNetwork_recordFault (s : State) (cause : Cause) : s.SameNetwork (s.recordFault cause) := by
  unfold State.recordFault
  split <;> exact ⟨_, _, _, _, _, rfl⟩

theorem State.sameNetwork_takeFault (s : State) (cause : Cause) : s.SameNetwork (s.takeFault cause) :=
  (s.sameNetwork_recordFault cause).trans (State.sameNetwork_respond _ _ _)

theorem State.sameNetwork_reject (s : State) : s.SameNetwork s.reject := s.sameNetwork_respond _ _

theorem State.sameNetwork_illegalCommand (s : State) (e : DecodeError) : s.SameNetwork (s.illegalCommand e) := by
  unfold State.illegalCommand
  split
  · exact s.sameNetwork_reject
  · exact s.sameNetwork_takeFault _

theorem State.sameNetwork_hardwareResetEvent (s : State) : s.hardwareResetState.SameNetwork s.hardwareResetEvent :=
  ⟨_, _, _, _, _, rfl⟩

/-- A command whose body answers the state it found leaves the network as it was. -/
theorem State.finish_observed {body : Except Stop (State × List Item)}
    (hbody : ∀ u results, body = .ok (u, results) → u = s) (h : s.finish body = .next t) : s.Performed i t := by
  rcases State.finish_next h with ⟨u, results, hb, rfl⟩ | ⟨cause, -, rfl⟩
  · obtain rfl := hbody u results hb
    exact .inl (State.sameNetwork_respond _ _ _)
  · exact .inl (s.sameNetwork_takeFault cause)

theorem State.needNetwork_observed {body : Lines → Except Stop (State × List Item)}
    (hbody : ∀ ls u results, body ls = .ok (u, results) → u = s) (u : State) (results : List Item)
    (h : s.needNetwork body = .ok (u, results)) : u = s := by
  cases hl : s.lines with
  | none => rw [State.needNetwork_none hl] at h; cases h
  | some ls => rw [State.needNetwork_some hl] at h; exact hbody ls u results h

/-- A gated command is rejected, takes a fault, or makes the update its body makes on a network. -/
theorem State.gated_performed {legal : Bool} {body : Lines → Except Stop (State × List Item)}
    (hbody : ∀ ls u results, s.lines = some ls → body ls = .ok (u, results) → s.Update s.cfg ls i u)
    (h : s.gated legal body = .next t) : s.Performed i t := by
  rcases State.gated_next h with ⟨-, rfl⟩ | ⟨-, cause, rfl⟩ | ⟨-, ls, u, results, hl, hb, rfl⟩
  · exact .inl s.sameNetwork_reject
  · exact .inl (s.sameNetwork_takeFault cause)
  · exact .inr ⟨ls, u, hl, hbody ls u results hl hb, u.sameNetwork_respond _ _⟩

theorem State.setp_performed {apply : State → Except Stop State}
    (happly : ∀ ls u, s.lines = some ls → apply s = .ok u → s.Update s.cfg ls i u) (h : s.setp apply = .next t) :
    s.Performed i t :=
  State.gated_performed (fun ls u results hl hb => by
    obtain ⟨u', hu, he⟩ := map_ok hb
    cases he
    exact happly ls u hl hu) h

/-- A command on one line, when its procedure lets that line evolve. -/
theorem State.gated_onLine_performed {legal : Bool} {l : LineName} {body : Line → Except Stop (Line × List Item)}
    (hbody : ∀ ln ln' results, body ln = .ok (ln', results) → ln.Evolves s.cfg ln')
    (h : s.gated legal (fun ls => s.onLine ls l body) = .next t) : s.Performed i t :=
  State.gated_performed (fun ls u results _ hb => by
    obtain ⟨ln, hln, rfl⟩ := State.onLine_inv hb
    exact .lines i (Lines.evolves_set (hbody _ _ _ hln))) h

/-- A command that answers what a procedure on one line gives, when the procedure lets that line evolve. -/
theorem State.gated_onLine_map_performed {α : Type} {l : LineName} {f : Line → Except Stop α}
    {g : Line → α → Line × List Item} (hf : ∀ ln a, f ln = .ok a → ln.Evolves s.cfg (g ln a).1)
    (h : s.gated true (fun ls => s.onLine ls l fun ln => (f ln).map (g ln)) = .next t) : s.Performed i t :=
  State.gated_onLine_performed (fun ln ln' results hb => by
    obtain ⟨a, ha, he⟩ := map_ok hb
    simpa [← he] using hf ln a ha) h

/-- A command that performs a frame, whatever it makes of the outputs. -/
theorem State.gated_frameOn_performed (hi : i.opcode ∈ [.frame, .pmono, .pstereo]) {c : Ctx} {left right : F}
    {g : State × F × F → List Item}
    (h : s.gated true (fun ls => (frameOn c s ls left right).map fun r => (r.1, g r)) = .next t) : s.Performed i t :=
  State.gated_performed (fun ls u results _ hb => by
    obtain ⟨⟨u', wl, wr⟩, hf, he⟩ := map_ok hb
    cases he
    exact frameOn_update hi hf) h

theorem execRdreg_performed {reg : RegName} (h : execRdreg reg s = .next t) : s.Performed i t := by
  refine State.finish_observed (fun u results hb => ?_) h
  split at hb
  · cases hb; rfl
  · exact State.needNetwork_observed (fun _ _ _ hb => by cases hb; rfl) u results hb

theorem execLrdbuf_performed {line : LineName} {index : Word} (h : execLrdbuf line index s = .next t) :
    s.Performed i t := by
  refine State.finish_observed (State.needNetwork_observed fun ls u results hb => ?_) h
  split at hb
  · cases hb
  · obtain ⟨v, -, he⟩ := map_ok hb
    cases he
    rfl

/-- Every command but INIT and DEINIT leaves the network as it was, or makes one of its own updates. -/
theorem exec_performed (hinit : ∀ sr, i ≠ .init sr) (hdeinit : i ≠ .deinit) (h : exec i s = .next t) :
    s.Performed i t := by
  cases i with
  | init sr => exact absurd rfl (hinit sr)
  | deinit => exact absurd rfl hdeinit
  | nop => exact State.finish_observed (body := .ok (s, [])) (fun _ _ hb => by cases hb; rfl) h
  | rdreg reg => exact execRdreg_performed h
  | lrd line field => exact State.finish_observed (State.needNetwork_observed fun _ _ _ hb => by cases hb; rfl) h
  | lrdbuf line index => exact execLrdbuf_performed h
  | setpPredelay v => exact State.setp_performed (fun _ _ => applyPredelay_update (c := s.ctx)) h
  | setpBandwidth v => exact State.setp_performed (fun _ _ _ => applyBandwidth_update) h
  | setpDamping v => exact State.setp_performed (fun _ _ _ => applyDamping_update) h
  | setpDecay v => exact State.setp_performed (fun _ _ _ => applyDecay_update) h
  | setpDiffusion1 v => exact State.setp_performed (fun _ _ _ => applyDiffusion1_update) h
  | setpDiffusion2 v => exact State.setp_performed (fun _ _ _ => applyDiffusion2_update) h
  | setpIndiff1 v => exact State.setp_performed (fun _ _ _ => applyIndiff1_update) h
  | setpIndiff2 v => exact State.setp_performed (fun _ _ _ => applyIndiff2_update) h
  | setpModulation v => exact State.setp_performed (fun _ _ => applyModulation_update) h
  | setpSize v => exact State.setp_performed (fun _ _ => applySize_update (c := s.ctx)) h
  | setpWet v => exact State.setp_performed (fun _ _ _ => applyWet_update) h
  | setpDry v => exact State.setp_performed (fun _ _ _ => applyDry_update) h
  | frame left right | pmono x | pstereo left right =>
    exact State.gated_frameOn_performed (by simp [Instr.opcode]) h
  | lsetlen line length =>
    exact State.gated_onLine_map_performed (fun _ _ => Line.setLength_evolves (c := s.ctx)) h
  | lpush line sample => exact State.gated_onLine_map_performed (fun _ _ => Line.push_evolves) h
  | lout line => exact State.gated_onLine_map_performed (fun _ _ => Line.currentOutput_evolves) h
  | ltap line k => exact State.gated_onLine_map_performed (fun _ _ _ => .refl _ _) h
  | ldiff line x k => exact State.gated_onLine_map_performed (fun _ _ => Line.diffuse_evolves) h
  | lmode | lfb | lmod | lmoden =>
    exact State.gated_onLine_performed (fun _ _ _ hb => by cases hb; exact ⟨le_rfl, rfl, id⟩) h

end

/-! ## INIT (45_control.md R211 to R214) -/

/-- The network INIT creates, before the defaults are applied (R212). -/
def State.newNetwork (s : State) (sr : Word) : State :=
  { s.hardwareResetState with sr := sr, lines := some (newLines s.cfg sr) }

/-- A procedure over the state that lets a network evolve. -/
def Evolving (p : Params) (f : State → Except Stop State) : Prop :=
  ∀ s t ls, s.lines = some ls → f s = .ok t → s.Evolves p t

section
variable {c : Ctx} {p : Params} {s t : State} {f g : State → Except Stop State}

theorem Evolving.of_update {i : State → Instr}
    (h : ∀ s t ls, s.lines = some ls → f s = .ok t → s.Update p ls (i s) t) : Evolving p f :=
  fun s t ls hl hf => (h s t ls hl hf).evolves hl

theorem Evolving.comp (hf : Evolving p f) (hg : Evolving p g) : Evolving p fun s => f s >>= g := by
  intro s u ls hl h
  obtain ⟨t, hft, hgu⟩ := bind_ok h
  have ht := hf s t ls hl hft
  obtain ⟨_, ls', -, hl', -⟩ := ht.network
  exact ht.trans (hg t u ls' hl' hgu)

theorem applyDefaults_evolving (c : Ctx) : Evolving c.cfg (applyDefaults c) :=
  (Evolving.of_update fun _ _ _ => applyPredelay_update (c := c.at 1)).comp <|
  (Evolving.of_update fun _ _ _ _ => applyBandwidth_update).comp <|
  (Evolving.of_update fun _ _ _ _ => applyDamping_update).comp <|
  (Evolving.of_update fun _ _ _ _ => applyDecay_update).comp <|
  (Evolving.of_update fun _ _ _ _ => applyDiffusion1_update).comp <|
  (Evolving.of_update fun _ _ _ _ => applyDiffusion2_update).comp <|
  (Evolving.of_update fun _ _ _ _ => applyIndiff1_update).comp <|
  (Evolving.of_update fun _ _ _ _ => applyIndiff2_update).comp <|
  (Evolving.of_update fun _ _ _ => applyModulation_update).comp <|
  (Evolving.of_update fun _ _ _ => applySize_update (c := c.at 10)).comp <|
  (Evolving.of_update fun _ _ _ _ => applyWet_update).comp <|
  Evolving.of_update fun _ _ _ _ => applyDry_update

/-- INIT leaves the hardware reset state with its fault (R214), or a network that evolved from a new one. -/
theorem execInit_next {sr : Word} (h : execInit sr s = .next t) :
    s.hardwareResetState.SameNetwork t ∨
      ∃ u, sr ≠ 0#32 ∧ (s.newNetwork sr).Evolves s.cfg u ∧ u.SameNetwork t := by
  rcases State.finish_next h with ⟨u, results, hb, rfl⟩ | ⟨cause, -, rfl⟩
  · obtain ⟨u', hu, he⟩ := map_ok hb
    cases he
    unfold createNetwork at hu
    split at hu
    · cases hu
    · exact .inr ⟨u, ‹_›, applyDefaults_evolving s.ctx _ u _ rfl hu, u.sameNetwork_respond _ _⟩
  · exact .inl (State.sameNetwork_takeFault _ cause)

theorem execDeinit_next (h : execDeinit s = .next t) : s.hardwareResetState.SameNetwork t := by
  cases h
  exact State.sameNetwork_respond _ _ _

end

/-! ## Invariants of the network -/

/-- What makes a property of the state an invariant of every step: it speaks of the parameters, the registers and the
lines alone, holds after a hardware reset and of a new network, and is kept where the lines evolve and where a command
updates the state. -/
structure NetworkInvariant (P : State → Prop) : Prop where
  same : ∀ {s t : State}, s.SameNetwork t → P s → P t
  reset : ∀ {s : State}, P s → P s.hardwareResetState
  created : ∀ {s : State} {sr : Word}, sr ≠ 0#32 → P s → P (s.newNetwork sr)
  evolves : ∀ {s t : State}, s.Evolves s.cfg t → P s → P t

section
variable {P : State → Prop} {i : Instr} {s t : State}

theorem NetworkInvariant.of_exec (hP : NetworkInvariant P) (hs : P s) (h : exec i s = .next t) : P t := by
  by_cases hinit : ∃ sr, i = .init sr
  · obtain ⟨sr, rfl⟩ := hinit
    rcases execInit_next h with ht | ⟨u, hsr, hu, ht⟩
    · exact hP.same ht (hP.reset hs)
    · exact hP.same ht (hP.evolves hu (hP.created hsr hs))
  · by_cases hdeinit : i = .deinit
    · subst hdeinit
      exact hP.same (execDeinit_next h) (hP.reset hs)
    · rcases exec_performed (fun sr e => hinit ⟨sr, e⟩) hdeinit h with ht | ⟨ls, u, hl, hu, ht⟩
      · exact hP.same ht hs
      · exact hP.same ht (hP.evolves (hu.evolves hl) hs)

/-- An invariant of the network is kept by every step: a hardware reset, a wait, a command or an illegal word. -/
theorem NetworkInvariant.of_step (hP : NetworkInvariant P) (hs : P s) (h : step s = .next t) : P t := by
  unfold step at h
  split at h
  · cases h
    exact hP.same s.sameNetwork_hardwareResetEvent (hP.reset hs)
  · split at h
    · cases h
      exact hs
    · exact hP.of_exec (hP.same (s.sameNetwork_inq _) hs) h
    · cases h
      exact hP.same ((s.sameNetwork_inq _).trans (State.sameNetwork_illegalCommand _ _)) hs

/-! ### The line invariants (10_state.md R28) -/

theorem inv_networkInvariant : NetworkInvariant fun s => s.inv = true where
  same := by
    rintro s _ ⟨_, _, _, _, _, rfl⟩ hs
    exact hs
  reset hs := State.inv_iff.2 ⟨(State.inv_iff.1 hs).1, fun _ hl => by cases hl⟩
  created _ hs := by
    obtain ⟨hsane, -⟩ := State.inv_iff.1 hs
    exact State.inv_iff.2 ⟨hsane, fun _ hl => by cases hl; exact newLines_wf hsane _⟩
  evolves := by
    intro s t h hs
    obtain ⟨hsane, hwf⟩ := State.inv_iff.1 hs
    obtain ⟨ls, ls', hl, hl', hls⟩ := h.network
    rw [State.inv_iff, h.cfg]
    refine ⟨hsane, fun ls'' hl'' => ?_⟩
    obtain rfl := Option.some.inj (hl'.symm.trans hl'')
    exact hls.wf (hwf ls hl)

/-! ### The rates (10_state.md R23, R26) -/

theorem State.ratesAgree_some {ls : Lines} (hl : s.lines = some ls) :
    s.ratesAgree = true ↔ s.sr ≠ 0#32 ∧ ∀ l, (ls.get l).lsr = s.sr := by
  unfold State.ratesAgree
  rw [hl]
  simp [mem_allLines]

theorem newLines_lsr (p : Params) (sr : Word) (l : LineName) : ((newLines p sr).get l).lsr = sr := by
  cases l <;> rfl

theorem ratesAgree_networkInvariant : NetworkInvariant fun s => s.ratesAgree = true where
  same := by
    rintro s _ ⟨_, _, _, _, _, rfl⟩ hs
    exact hs
  reset _ := rfl
  created {s sr} hsr _ := (State.ratesAgree_some (s := s.newNetwork sr) rfl).2 ⟨hsr, newLines_lsr s.cfg sr⟩
  evolves := by
    intro s t h hs
    obtain ⟨ls, ls', hl, hl', hls⟩ := h.network
    obtain ⟨hsr, hlsr⟩ := (State.ratesAgree_some hl).1 hs
    rw [State.ratesAgree_some hl', h.sr]
    exact ⟨hsr, fun l => (hls l).lsr.trans (hlsr l)⟩

end

/-- Settles O51: every line procedure keeps the invariants of its line, and a new line meets them. -/
theorem everyStepKeepsTheLineInvariants : Obligations.EveryStepKeepsTheLineInvariants := by
  unfold Obligations.EveryStepKeepsTheLineInvariants
  intro s t hs h
  exact inv_networkInvariant.of_step hs h

/-- Settles O53: without a network only INIT writes a register, and it gives every line its rate; with one, no command
writes SR or an LSR. -/
theorem everyStepKeepsTheRatesInAgreement : Obligations.EveryStepKeepsTheRatesInAgreement := by
  unfold Obligations.EveryStepKeepsTheRatesInAgreement
  intro s t hs h
  exact ratesAgree_networkInvariant.of_step hs h

/-- Settles O54: the lines evolve under every command but INIT and DEINIT, and DEINIT leaves no network. -/
theorem capacityNeverDecreases : Obligations.CapacityNeverDecreases := by
  unfold Obligations.CapacityNeverDecreases
  intro i s t ls ls' hinit hl h hl' l
  by_cases hdeinit : i = .deinit
  · subst hdeinit
    obtain ⟨_, _, _, _, _, rfl⟩ := execDeinit_next h
    cases hl'
  · rcases exec_performed hinit hdeinit h with ⟨_, _, _, _, _, rfl⟩ | ⟨ls1, u, hl1, hu, _, _, _, _, _, rfl⟩
    · obtain rfl := Option.some.inj (hl.symm.trans hl')
      exact le_rfl
    · obtain ⟨ls2, ls3, hl2, hl3, hls⟩ := (hu.evolves hl1).network
      obtain rfl := Option.some.inj (hl.symm.trans hl2)
      obtain rfl := Option.some.inj (hl3.symm.trans hl')
      exact (hls l).cap

/-- Settles O55: each update of the network names the command that makes it. -/
theorem registersAreWrittenByTheirCommands : Obligations.RegistersAreWrittenByTheirCommands := by
  unfold Obligations.RegistersAreWrittenByTheirCommands
  intro i s t hinit hdeinit h
  rcases exec_performed hinit hdeinit h with ⟨_, _, _, _, _, rfl⟩ | ⟨ls, u, -, hu, _, _, _, _, _, rfl⟩
  · simp
  · cases hu with
    | bandwidth | damping | decay | diffusion1 | diffusion2 | indiff1 | indiff2 | wet | dry | lines | size => simp
    | frame hi => exact ⟨rfl, fun hne => absurd hi hne, by simp⟩

/-! ## STATUS (10_state.md R22) -/

theorem statusOf_none (initd : Bool) :
    let status := statusOf initd none
    status.getLsbD 0 = initd ∧ status.getLsbD 1 = false ∧ status.extractLsb' 2 6 = 0#6 ∧
      status.extractLsb' 16 16 = 0#16 ∧ status.extractLsb' 8 8 = 0#8 := by
  cases initd <;> decide

theorem statusOf_some (initd : Bool) (cause : Cause) :
    let status := statusOf initd (some cause)
    status.getLsbD 0 = initd ∧ status.getLsbD 1 = true ∧ status.extractLsb' 2 6 = 0#6 ∧
      status.extractLsb' 16 16 = 0#16 ∧ status.extractLsb' 8 8 = BitVec.ofNat 8 cause.code := by
  cases initd <;> cases cause <;> decide

/-- Settles O19: by whether a fault is recorded, and which cause. -/
theorem statusFieldsAreAsListed : Obligations.StatusFieldsAreAsListed := by
  unfold Obligations.StatusFieldsAreAsListed
  intro s
  unfold State.status
  cases s.fault with
  | none =>
    obtain ⟨h0, h1, h2, h16, h8⟩ := statusOf_none s.lines.isSome
    exact ⟨h0, h1, h2, h16, fun _ => h8, fun _ h => by cases h⟩
  | some cause =>
    obtain ⟨h0, h1, h2, h16, h8⟩ := statusOf_some s.lines.isSome cause
    refine ⟨h0, h1, h2, h16, (fun h => by cases h), fun _ h => ?_⟩
    cases h
    rw [h8]
    cases cause <;> rfl

end Sys2Proof.Machine
end

section
/-! PROOFS. The frame of the line access commands (20_memory.md R61, R67; 40_delay_line.md section 3): each performs a
procedure on one line, and a procedure writes no slot but that at the write cursor. -/

namespace Sys2Proof.Machine

/-! ## The slots a line procedure leaves -/

section
variable {c : Ctx} {ln ln' : Line} {y : F}

theorem Line.currentOutput_buf (h : ln.currentOutput c = .ok (y, ln')) : ln'.buf = ln.buf := by
  obtain ⟨_, rfl⟩ := Line.currentOutput_line h
  rfl

/-- A diffusion reads the line, which writes APS at most, and then pushes (41_diffusion.md R140). -/
theorem Line.diffuse_read_other {x k : F} (hb : Slots.wf ln.buf = true) (h : ln.diffuse c x k = .ok (y, ln'))
    {a : Nat} (ha : a ≠ ln.w) : Slots.read ln'.buf a = Slots.read ln.buf a := by
  obtain ⟨_, _, hout, hpush, -⟩ := Line.diffuse_ok h
  obtain ⟨aps, rfl⟩ := Line.currentOutput_line hout
  exact Line.push_read_other (ln := { ln with aps := aps }) hb hpush ha

end

/-- What the command of an opcode leaves of the slots of its line: a setting or a read every one, LPUSH and LDIFF every
one but that at the write cursor. -/
structure Line.SlotFrame (op : Opcode) (a b : Line) : Prop where
  kept : op ∈ [.lout, .ltap, .lmode, .lfb, .lmod, .lmoden] → b.buf = a.buf
  other : op ∈ [.lpush, .ldiff] → Slots.wf a.buf = true → ∀ j, j ≠ a.w → Slots.read b.buf j = Slots.read a.buf j

section
variable {op : Opcode} {a b : Line}

theorem Line.SlotFrame.of_buf (h : b.buf = a.buf) : Line.SlotFrame op a b :=
  ⟨fun _ => h, fun _ _ _ _ => by rw [h]⟩

theorem Line.SlotFrame.of_read_other (hop : op = .lpush ∨ op = .ldiff)
    (h : Slots.wf a.buf = true → ∀ j, j ≠ a.w → Slots.read b.buf j = Slots.read a.buf j) : Line.SlotFrame op a b :=
  ⟨by rcases hop with rfl | rfl <;> simp, fun _ => h⟩

/-- LSETLEN may grow the storage, so nothing is said of its slots here. -/
theorem Line.SlotFrame.lsetlen : Line.SlotFrame .lsetlen a b := ⟨by simp, by simp⟩

end

/-! ## A command on one line -/

/-- From `s` with lines `ls` to `t`, at most line `l` differs in the network, and it keeps the slots that the command of
`op` leaves. -/
def State.TouchesLine (op : Opcode) (s : State) (ls : Lines) (l : LineName) (t : State) : Prop :=
  ∃ ln, Line.SlotFrame op (ls.get l) ln ∧ State.SameNetwork { s with lines := some (ls.set l ln) } t

section
variable {op : Opcode} {s t : State} {ls : Lines} {l : LineName}

theorem State.SameNetwork.touchesLine (hl : s.lines = some ls) (h : s.SameNetwork t) : s.TouchesLine op ls l t :=
  ⟨ls.get l, .of_buf rfl, by rwa [Lines.set_get, ← hl]⟩

/-- A gated command on one line is rejected, takes a fault, or stores the line its procedure leaves. -/
theorem State.gated_onLine_touchesLine (hl : s.lines = some ls) {legal : Bool}
    {body : Line → Except Stop (Line × List Item)}
    (hbody : ∀ ln results, body (ls.get l) = .ok (ln, results) → Line.SlotFrame op (ls.get l) ln)
    (h : s.gated legal (fun ls => s.onLine ls l body) = .next t) : s.TouchesLine op ls l t := by
  rcases State.gated_next h with ⟨-, rfl⟩ | ⟨-, cause, rfl⟩ | ⟨-, ls', u, results, hl', hb, rfl⟩
  · exact s.sameNetwork_reject.touchesLine hl
  · exact (s.sameNetwork_takeFault cause).touchesLine hl
  · obtain rfl := Option.some.inj (hl.symm.trans hl')
    obtain ⟨ln, hln, rfl⟩ := State.onLine_inv hb
    exact ⟨ln, hbody ln results hln, State.sameNetwork_respond _ _ _⟩

/-- A command that answers what a procedure on one line gives. -/
theorem State.gated_onLine_map_touchesLine (hl : s.lines = some ls) {α : Type} {f : Line → Except Stop α}
    {g : Line → α → Line × List Item}
    (hf : ∀ r, f (ls.get l) = .ok r → Line.SlotFrame op (ls.get l) (g (ls.get l) r).1)
    (h : s.gated true (fun ls => s.onLine ls l fun ln => (f ln).map (g ln)) = .next t) : s.TouchesLine op ls l t :=
  State.gated_onLine_touchesLine hl (fun ln results hb => by
    obtain ⟨r, hr, he⟩ := map_ok hb
    simpa [← he] using hf r hr) h

/-- Each line access command touches its line alone. -/
theorem exec_touchesLine {i : Instr} {x y : F} {k : Word} (hl : s.lines = some ls)
    (hi : i ∈ [Instr.lsetlen l x, .lpush l x, .lout l, .ltap l k, .ldiff l x y, .lmode l k, .lfb l x, .lmod l x y,
      .lmoden l k]) (h : exec i s = .next t) : s.TouchesLine i.opcode ls l t := by
  simp only [List.mem_cons, List.not_mem_nil, or_false] at hi
  rcases hi with rfl | rfl | rfl | rfl | rfl | rfl | rfl | rfl | rfl
  · exact State.gated_onLine_map_touchesLine hl (fun _ _ => .lsetlen) h
  · exact State.gated_onLine_map_touchesLine hl
      (fun _ hpush => .of_read_other (.inl rfl) fun hb _ hj => Line.push_read_other hb hpush hj) h
  · exact State.gated_onLine_map_touchesLine hl (fun _ hout => .of_buf (Line.currentOutput_buf hout)) h
  · exact State.gated_onLine_map_touchesLine hl (fun _ _ => .of_buf rfl) h
  · exact State.gated_onLine_map_touchesLine hl
      (fun _ hdiff => .of_read_other (.inr rfl) fun hb _ hj => Line.diffuse_read_other hb hdiff hj) h
  -- LMODE, LFB, LMOD and LMODEN store fields of the line other than its slots
  all_goals exact State.gated_onLine_touchesLine hl (fun _ _ hset => by cases hset; exact .of_buf rfl) h

end

/-- Settles O44: the command touches its line alone, so what is left is to read the other lines and the registers of the
state it leaves. -/
theorem lineCommandsTouchOneLine : Obligations.LineCommandsTouchOneLine := by
  unfold Obligations.LineCommandsTouchOneLine
  intro s t ls l x y k hl i hi h
  obtain ⟨ln, hslots, _, _, _, _, _, rfl⟩ := exec_touchesLine hl hi h
  refine ⟨ls.set l ln, rfl, fun l' hne => Lines.get_set_other ls hne ln,
    rfl, rfl, rfl, rfl, rfl, rfl, rfl, rfl, rfl, rfl, rfl, rfl, rfl, rfl, ?_⟩
  rw [Lines.get_set_same]
  exact ⟨hslots.kept, hslots.other⟩

end Sys2Proof.Machine
end

section
/-! PROOFS. The command encoding (30_encoding.md R80 to R88): names and numbers, the fields of the command word, what a
decoded request says of its command and back, the opcode map, and how many items a request takes. -/

namespace Sys2Proof

/-! ## Names and numbers (10_state.md R23, R26, R29; 30_encoding.md R83, R85) -/

section
variable {n : Nat}

theorem LineName.ofNumber_eq_some {l : LineName} : LineName.ofNumber n = some l ↔ n = l.number := by
  constructor
  · intro h
    unfold LineName.ofNumber at h
    split at h <;> cases h <;> rfl
  · rintro rfl
    cases l <;> rfl

theorem RegName.ofNumber_eq_some {reg : RegName} : RegName.ofNumber n = some reg ↔ n = reg.number := by
  constructor
  · intro h
    unfold RegName.ofNumber at h
    split at h <;> cases h <;> rfl
  · rintro rfl
    cases reg <;> rfl

theorem FieldName.ofNumber_eq_some {f : FieldName} : FieldName.ofNumber n = some f ↔ n = f.number := by
  constructor
  · intro h
    unfold FieldName.ofNumber at h
    split at h <;> cases h <;> rfl
  · rintro rfl
    cases f <;> rfl

theorem Opcode.ofCode_eq_some {op : Opcode} : Opcode.ofCode n = some op ↔ n = op.code := by
  constructor
  · intro h
    unfold Opcode.ofCode at h
    split at h <;> cases h <;> rfl
  · rintro rfl
    cases op <;> rfl

theorem selZero_eq_some {u : Unit} : selZero n = some u ↔ n = 0 := by
  constructor
  · intro h
    unfold selZero at h
    split at h <;> trivial
  · rintro rfl
    rfl

/-- The SETP command of a SEL value is one with that SEL and that operand (30_encoding.md R84). -/
theorem setpOf_ok {v : F} {i : Instr} (h : setpOf v n = some i) :
    i.opcode = .setp ∧ n = i.sel ∧ i.fld = 0 ∧ i.operands = [v] := by
  unfold setpOf at h
  split at h <;> cases h <;> exact ⟨rfl, rfl, rfl, rfl⟩

theorem LineName.exists_ofNumber_iff : (∃ l, LineName.ofNumber n = some l) ↔ n ≤ 12 := by
  simp only [LineName.ofNumber_eq_some]
  constructor
  · rintro ⟨l, rfl⟩
    cases l <;> decide
  · intro h
    interval_cases n <;> exact ⟨_, LineName.ofNumber_eq_some.1 rfl⟩

theorem RegName.exists_ofNumber_iff : (∃ reg, RegName.ofNumber n = some reg) ↔ n ≤ 13 := by
  simp only [RegName.ofNumber_eq_some]
  constructor
  · rintro ⟨reg, rfl⟩
    cases reg <;> decide
  · intro h
    interval_cases n <;> exact ⟨_, RegName.ofNumber_eq_some.1 rfl⟩

theorem FieldName.exists_ofNumber_iff : (∃ f, FieldName.ofNumber n = some f) ↔ n ≤ 13 := by
  simp only [FieldName.ofNumber_eq_some]
  constructor
  · rintro ⟨f, rfl⟩
    cases f <;> decide
  · intro h
    interval_cases n <;> exact ⟨_, FieldName.ofNumber_eq_some.1 rfl⟩

theorem exists_selZero_iff : (∃ u, selZero n = some u) ↔ n ≤ 0 := by
  simp [selZero_eq_some]

theorem exists_setpOf_iff (v : F) : (∃ i, setpOf v n = some i) ↔ n ≤ 11 := by
  constructor
  · rintro ⟨i, h⟩
    unfold setpOf at h
    split at h <;> trivial
  · intro h
    interval_cases n <;> exact ⟨_, rfl⟩

end

/-! ## The fields of the command word (30_encoding.md R81) -/

theorem Opcode.code_lt (op : Opcode) : op.code < 256 := by cases op <;> decide

theorem LineName.number_lt (l : LineName) : l.number < 256 := by cases l <;> decide

theorem RegName.number_lt (reg : RegName) : reg.number < 256 := by cases reg <;> decide

theorem FieldName.number_lt (f : FieldName) : f.number < 256 := by cases f <;> decide

theorem Instr.sel_lt (i : Instr) : i.sel < 256 := by
  cases i with
  | rdreg reg => exact reg.number_lt
  | lrd l _ | lrdbuf l _ | lsetlen l _ | lpush l _ | lout l | ltap l _ | ldiff l _ _ | lmode l _ | lfb l _ | lmod l _ _
  | lmoden l _ => exact l.number_lt
  | _ => simp [Instr.sel]

theorem Instr.fld_lt (i : Instr) : i.fld < 256 := by
  cases i with
  | lrd _ f => exact f.number_lt
  | _ => simp [Instr.fld]

/-- A word is the command word of these fields exactly when it has them and its RSV is 0. -/
theorem commandWord_eq_iff {op : Opcode} {sel fld : Nat} (hsel : sel < 256) (hfld : fld < 256) (w : Word) :
    commandWord op sel fld = w ↔ rsvOf w = 0 ∧ opcOf w = op.code ∧ selOf w = sel ∧ fldOf w = fld := by
  have hcode := op.code_lt
  have hw : commandWord op sel fld = w ↔ op.code + 256 * sel + 65536 * fld = w.toNat := by
    rw [← BitVec.toNat_inj, commandWord, BitVec.toNat_ofNat, Nat.mod_eq_of_lt (by omega)]
  rw [hw]
  unfold rsvOf opcOf selOf fldOf
  omega

theorem Instr.word_eq_iff (i : Instr) (w : Word) :
    i.word = w ↔ rsvOf w = 0 ∧ opcOf w = i.opcode.code ∧ selOf w = i.sel ∧ fldOf w = i.fld :=
  commandWord_eq_iff i.sel_lt i.fld_lt w

theorem operandItems_of_code {w : Word} {op : Opcode} (h : opcOf w = op.code) :
    operandItems w = op.operandCount := by
  simp [operandItems, Opcode.ofCode_eq_some.2 h]

theorem Instr.operandItems_word (i : Instr) : operandItems i.word = i.opcode.operandCount :=
  operandItems_of_code ((i.word_eq_iff i.word).1 rfl).2.1

/-! ## Operand items (30_encoding.md R82) -/

/-- The operand item an opcode reads: the low 32 bits of a u32 item, the low W_F bits of an F item. -/
def Opcode.readItem (fmt : NumFmt) : Opcode → Item → Item
  | .init, x | .lrdbuf, x | .ltap, x | .lmode, x | .lmoden, x => x.toWord.toItem
  | _, x => fmt.trim x

/-- The items of the request carry the operands of the command. -/
def Request.Carries (fmt : NumFmt) (r : Request) (i : Instr) : Prop :=
  ([r.first, r.second].take i.opcode.operandCount).map (i.opcode.readItem fmt) = i.operands

@[simp] theorem Word.toItem_inj {v w : Word} : v.toItem = w.toItem ↔ v = w :=
  Function.LeftInverse.injective Item.toWord_toItem |>.eq_iff

theorem Item.toItem_toWord {x : Item} (h : x.toNat < 2 ^ 32) : x.toWord.toItem = x := by
  apply BitVec.eq_of_toNat_eq
  simp only [Word.toItem, Item.toWord, BitVec.toNat_setWidth]
  omega

theorem Word.toItem_lt (w : Word) : w.toItem.toNat < 2 ^ 32 := by
  have := w.isLt
  simp only [Word.toItem, BitVec.toNat_setWidth]
  omega

theorem NumFmt.two_pow_32_le (fmt : NumFmt) : 2 ^ 32 ≤ 2 ^ fmt.width := by cases fmt <;> decide

theorem NumFmt.fits_of_lt (fmt : NumFmt) {x : Item} (h : x.toNat < 2 ^ 32) : fmt.fits x = true := by
  simpa [NumFmt.fits] using h.trans_le fmt.two_pow_32_le

theorem NumFmt.trim_of_fits {fmt : NumFmt} {x : Item} (h : fmt.fits x = true) : fmt.trim x = x := by
  have hx : x.toNat < 2 ^ fmt.width := by simpa [NumFmt.fits] using h
  simp [NumFmt.trim, Nat.mod_eq_of_lt hx]

/-- An item of at most 32 bits is read as it stands, whatever the type of the operand. -/
theorem Opcode.readItem_of_lt (fmt : NumFmt) (op : Opcode) {x : Item} (h : x.toNat < 2 ^ 32) : op.readItem fmt x = x := by
  unfold Opcode.readItem
  split
  iterate 5 exact Item.toItem_toWord h
  exact NumFmt.trim_of_fits (fmt.fits_of_lt h)

theorem Instr.operands_length (i : Instr) : i.operands.length = i.opcode.operandCount := by cases i <;> rfl

/-- A command is well-formed exactly when every operand fits its item and the operand of LMODE or LMODEN is in range. -/
theorem Instr.wellFormed_iff (fmt : NumFmt) (i : Instr) :
    i.wellFormed fmt = true ↔ (∀ x ∈ i.operands, fmt.fits x = true) ∧
      (∀ l m, i = .lmode l m → m.toNat ≤ 2) ∧ ∀ l e, i = .lmoden l e → e.toNat ≤ 1 := by
  have hu : ∀ w : Word, fmt.fits w.toItem = true := fun w => fmt.fits_of_lt w.toItem_lt
  cases i <;> simp [Instr.wellFormed, Instr.operands, hu]

/-- The operands of a well-formed command are read back as they were sent. -/
theorem Instr.readItem_operands {fmt : NumFmt} {i : Instr} (h : i.wellFormed fmt = true) :
    i.operands.map (i.opcode.readItem fmt) = i.operands := by
  have hfits := ((i.wellFormed_iff fmt).1 h).1
  cases i <;> simp_all [Instr.operands, Instr.opcode, Opcode.readItem, NumFmt.trim_of_fits]

/-! ## What a decoded request says of its command (30_encoding.md R83 to R86) -/

section
variable {fmt : NumFmt} {op : Opcode} {r : Request} {i : Instr}

theorem decodeSel_ok_iff {α : Type} {w : Word} {choice : Nat → Option α} {build : α → Instr} :
    decodeSel op w choice build = .ok i ↔ ∃ a, choice (selOf w) = some a ∧ fldOf w = 0 ∧ build a = i := by
  unfold decodeSel
  cases choice (selOf w) with
  | none => simp
  | some a => by_cases hfld : fldOf w = 0 <;> simp [hfld]

theorem decodeSel_error {α : Type} {w : Word} {choice : Nat → Option α} {build : α → Instr} {e : DecodeError}
    (h : decodeSel op w choice build = .error e) : e = .selOutOfRange op ∨ e = .fldOutOfRange op := by
  unfold decodeSel at h
  split at h
  · cases h
    exact .inl rfl
  · split at h <;> cases h
    exact .inr rfl

theorem decodeOpcode_lrd_ok_iff : decodeOpcode fmt .lrd r = .ok i ↔
    ∃ l f, LineName.ofNumber (selOf r.word) = some l ∧ FieldName.ofNumber (fldOf r.word) = some f ∧ .lrd l f = i := by
  cases hl : LineName.ofNumber (selOf r.word) <;> cases hf : FieldName.ofNumber (fldOf r.word) <;>
    simp [decodeOpcode, hl, hf]

/-- A decoded command has the opcode it was decoded by, the SEL and FLD of the word, and the operands its items carry. -/
theorem decodeOpcode_ok (h : decodeOpcode fmt op r = .ok i) :
    i.opcode = op ∧ selOf r.word = i.sel ∧ fldOf r.word = i.fld ∧ r.Carries fmt i := by
  cases op with
  | nop | init | deinit | frame | pmono | pstereo =>
    obtain ⟨_, hsel, hfld, rfl⟩ := decodeSel_ok_iff.1 h
    exact ⟨rfl, selZero_eq_some.1 hsel, hfld, rfl⟩
  | rdreg =>
    obtain ⟨reg, hsel, hfld, rfl⟩ := decodeSel_ok_iff.1 h
    exact ⟨rfl, RegName.ofNumber_eq_some.1 hsel, hfld, rfl⟩
  | lrd =>
    obtain ⟨l, f, hline, hfield, rfl⟩ := decodeOpcode_lrd_ok_iff.1 h
    exact ⟨rfl, LineName.ofNumber_eq_some.1 hline, FieldName.ofNumber_eq_some.1 hfield, rfl⟩
  | setp =>
    obtain ⟨j, hsel, hfld, rfl⟩ := decodeSel_ok_iff.1 h
    obtain ⟨hop, hsel, hfld0, hops⟩ := setpOf_ok hsel
    refine ⟨hop, hsel, hfld.trans hfld0.symm, ?_⟩
    rw [Request.Carries, hop, hops]
    rfl
  | lrdbuf | lsetlen | lpush | lout | ltap | ldiff | lmode | lfb | lmod | lmoden =>
    obtain ⟨l, hsel, hfld, rfl⟩ := decodeSel_ok_iff.1 h
    exact ⟨rfl, LineName.ofNumber_eq_some.1 hsel, hfld, rfl⟩

/-- A request with the SEL and FLD of a command, whose items carry its operands, decodes by its opcode to it. -/
theorem decodeOpcode_of_fields (hsel : selOf r.word = i.sel) (hfld : fldOf r.word = i.fld) (hops : r.Carries fmt i) :
    decodeOpcode fmt i.opcode r = .ok i := by
  unfold Request.Carries at hops
  cases i with
  | nop | deinit => exact decodeSel_ok_iff.2 ⟨(), selZero_eq_some.2 hsel, hfld, rfl⟩
  | init | frame | pmono | pstereo =>
    exact decodeSel_ok_iff.2 ⟨(), selZero_eq_some.2 hsel, hfld,
      by simpa [Instr.opcode, Opcode.operandCount, Opcode.readItem, Instr.operands] using hops⟩
  | rdreg reg => exact decodeSel_ok_iff.2 ⟨reg, RegName.ofNumber_eq_some.2 hsel, hfld, rfl⟩
  | lrd l f =>
    exact decodeOpcode_lrd_ok_iff.2 ⟨l, f, LineName.ofNumber_eq_some.2 hsel, FieldName.ofNumber_eq_some.2 hfld, rfl⟩
  | setpPredelay v | setpBandwidth v | setpDamping v | setpDecay v | setpDiffusion1 v | setpDiffusion2 v | setpIndiff1 v
  | setpIndiff2 v | setpModulation v | setpSize v | setpWet v | setpDry v =>
    obtain rfl : fmt.trim r.first = v := List.head_eq_of_cons_eq hops
    exact decodeSel_ok_iff.2 ⟨_, by rw [hsel]; rfl, hfld, rfl⟩
  | lout l => exact decodeSel_ok_iff.2 ⟨l, LineName.ofNumber_eq_some.2 hsel, hfld, rfl⟩
  | lrdbuf l | lsetlen l | lpush l | ltap l | ldiff l | lmode l | lfb l | lmod l | lmoden l =>
    exact decodeSel_ok_iff.2 ⟨l, LineName.ofNumber_eq_some.2 hsel, hfld,
      by simpa [Instr.opcode, Opcode.operandCount, Opcode.readItem, Instr.operands] using hops⟩

theorem decodeRequest_of_code (hcode : opcOf r.word = op.code) (hrsv : rsvOf r.word = 0) :
    decodeRequest fmt r = decodeOpcode fmt op r := by
  simp [decodeRequest, Opcode.ofCode_eq_some.2 hcode, hrsv]

/-- A legal request has RSV = 0 and a defined OPC, by which it is decoded. -/
theorem decodeRequest_ok_iff_opcode : decodeRequest fmt r = .ok i ↔
    rsvOf r.word = 0 ∧ ∃ op : Opcode, opcOf r.word = op.code ∧ decodeOpcode fmt op r = .ok i := by
  constructor
  · intro h
    unfold decodeRequest at h
    split at h
    · cases h
    next op hop =>
      split at h
      next hrsv => exact ⟨hrsv, op, Opcode.ofCode_eq_some.1 hop, h⟩
      · cases h
  · rintro ⟨hrsv, op, hcode, h⟩
    rwa [decodeRequest_of_code hcode hrsv]

/-- Decoding says exactly this of a request and its command: the word is the command's, and the items carry its
operands. -/
theorem decodeRequest_ok_iff : decodeRequest fmt r = .ok i ↔ i.word = r.word ∧ r.Carries fmt i := by
  rw [i.word_eq_iff, decodeRequest_ok_iff_opcode]
  constructor
  · rintro ⟨hrsv, op, hcode, h⟩
    obtain ⟨rfl, hsel, hfld, hops⟩ := decodeOpcode_ok h
    exact ⟨⟨hrsv, hcode, hsel, hfld⟩, hops⟩
  · rintro ⟨⟨hrsv, hcode, hsel, hfld⟩, hops⟩
    exact ⟨hrsv, i.opcode, hcode, decodeOpcode_of_fields hsel hfld hops⟩

/-- What a request of items of at most 32 bits carries is those items as they stand. -/
theorem Request.Carries.operands_eq (h : r.Carries fmt i) (hlt : ∀ x ∈ [r.first, r.second], x.toNat < 2 ^ 32) :
    i.operands = [r.first, r.second].take i.opcode.operandCount := by
  rw [← h]
  exact (List.map_congr_left fun x hx => i.opcode.readItem_of_lt fmt (hlt x (List.mem_of_mem_take hx))).trans
    (List.map_id' _)

end

/-- Settles O3: the word by the law of decoding, and items of at most 32 bits are read as they stand, so every operand
fits and only the ranges of the LMODE and LMODEN operands are left open. -/
theorem decodedRequestHasTheCommandsWord : Obligations.DecodedRequestHasTheCommandsWord := by
  unfold Obligations.DecodedRequestHasTheCommandsWord
  intro fmt r i h
  obtain ⟨hword, hops⟩ := decodeRequest_ok_iff.1 h
  refine ⟨hword, fun hlt => ?_⟩
  have hitems := hops.operands_eq hlt
  refine ⟨by rw [hitems, ← hword, i.operandItems_word], ?_⟩
  have hfits : ∀ x ∈ i.operands, fmt.fits x = true := fun x hx =>
    fmt.fits_of_lt (hlt x (List.mem_of_mem_take (hitems ▸ hx)))
  by_contra! hill
  obtain ⟨hwf, hmode, hen⟩ := hill
  exact hwf ((i.wellFormed_iff fmt).2 ⟨hfits, hmode, hen⟩)

/-! ## Taking a request (30_encoding.md R80, R88) -/

/-- The request of a command word and its operand items. -/
def Request.ofItems (w : Word) (operands : List Item) : Request := ⟨w, operands.getD 0 0#64, operands.getD 1 0#64⟩

theorem operandItems_le (w : Word) : operandItems w ≤ 2 := by
  unfold operandItems
  split
  next op _ => cases op <;> decide
  · decide

/-- A request is taken exactly when its operand items follow its word; it takes those items and no more. -/
theorem takeRequest_cons (head : Item) (rest : List Item) : takeRequest (head :: rest) =
    if operandItems head.toWord ≤ rest.length then
      some (.ofItems head.toWord (rest.take (operandItems head.toWord)), rest.drop (operandItems head.toWord))
    else none := by
  have hle := operandItems_le head.toWord
  simp only [takeRequest]
  generalize operandItems head.toWord = n at hle ⊢
  interval_cases n
  · rfl
  · cases rest <;> simp [Request.ofItems]
  · rcases rest with _ | ⟨a, _ | ⟨b, rest⟩⟩ <;> simp [Request.ofItems]

section
variable {fmt : NumFmt} {head : Item} {rest : List Item}

theorem decode_waiting (h : rest.length < operandItems head.toWord) : decode fmt (head :: rest) = .waiting := by
  simp [decode, takeRequest_cons, Nat.not_le.2 h]

theorem decode_command {i : Instr} (h : operandItems head.toWord ≤ rest.length)
    (hr : decodeRequest fmt (.ofItems head.toWord (rest.take (operandItems head.toWord))) = .ok i) :
    decode fmt (head :: rest) = .command i (rest.drop (operandItems head.toWord)) := by
  simp [decode, takeRequest_cons, h, hr]

theorem decode_illegal {e : DecodeError} (h : operandItems head.toWord ≤ rest.length)
    (hr : decodeRequest fmt (.ofItems head.toWord (rest.take (operandItems head.toWord))) = .error e) :
    decode fmt (head :: rest) = .illegal e (rest.drop (operandItems head.toWord)) := by
  simp [decode, takeRequest_cons, h, hr]

end

theorem Request.ofItems_take (w : Word) {operands : List Item} (h : operands.length ≤ 2) :
    [(ofItems w operands).first, (ofItems w operands).second].take operands.length = operands := by
  rcases operands with _ | ⟨a, _ | ⟨b, _ | ⟨c, l⟩⟩⟩
  iterate 3 rfl
  simp at h

/-- The request of a well-formed command carries its operands. -/
theorem Request.ofItems_carries {fmt : NumFmt} {i : Instr} (h : i.wellFormed fmt = true) :
    (ofItems i.word i.operands).Carries fmt i := by
  have hlen : i.operands.length ≤ 2 := by
    rw [i.operands_length, ← i.operandItems_word]
    exact operandItems_le i.word
  rw [Request.Carries, ← i.operands_length, ofItems_take i.word hlen, Instr.readItem_operands h]

/-- Settles O2: the port holds the word and as many items as its OPC takes, and those items carry the operands of a
well-formed command. -/
theorem decodeOfEncodeIsTheCommand : Obligations.DecodeOfEncodeIsTheCommand := by
  unfold Obligations.DecodeOfEncodeIsTheCommand
  intro fmt i rest h
  have hcount : operandItems i.word.toItem.toWord = i.operands.length := by
    rw [Item.toWord_toItem, i.operandItems_word, i.operands_length]
  have hrequest : decodeRequest fmt (.ofItems i.word i.operands) = .ok i :=
    decodeRequest_ok_iff.2 ⟨rfl, Request.ofItems_carries h⟩
  rw [encode, List.cons_append, decode_command (i := i)]
  · rw [hcount, List.drop_left]
  · rw [hcount, List.length_append]
    omega
  · rwa [hcount, List.take_left, Item.toWord_toItem]

/-- The number of operand items an OPC byte fixes, as 30_encoding.md R88 lists it. -/
theorem operandItems_eq (w : Word) : operandItems w =
    if opcOf w ∈ [0x20, 0x22, 0x34, 0x37] then 2
    else if opcOf w ∈ [0x01, 0x05, 0x10, 0x21, 0x30, 0x31, 0x33, 0x35, 0x36, 0x38] then 1 else 0 := by
  unfold operandItems
  generalize opcOf w = n
  cases hop : Opcode.ofCode n with
  | some op =>
    obtain rfl := Opcode.ofCode_eq_some.1 hop
    cases op <;> rfl
  | none =>
    have hcode : ∀ op : Opcode, n ≠ op.code := fun op hn => by simp [Opcode.ofCode_eq_some.2 hn] at hop
    have h2 : n ∉ [0x20, 0x22, 0x34, 0x37] := by
      simpa using ⟨hcode .frame, hcode .pstereo, hcode .ldiff, hcode .lmod⟩
    have h1 : n ∉ [0x01, 0x05, 0x10, 0x21, 0x30, 0x31, 0x33, 0x35, 0x36, 0x38] := by
      simpa using ⟨hcode .init, hcode .lrdbuf, hcode .setp, hcode .pmono, hcode .lsetlen, hcode .lpush, hcode .ltap,
        hcode .lmode, hcode .lfb, hcode .lmoden⟩
    rw [if_neg h2, if_neg h1]

/-- Settles O5: the OPC byte gives the count, and the request is decoded once that many items follow. -/
theorem requestLengthIsFixedByOpc : Obligations.RequestLengthIsFixedByOpc := by
  unfold Obligations.RequestLengthIsFixedByOpc
  intro fmt head rest opc count
  have hcount : operandItems head.toWord = count := operandItems_eq head.toWord
  rw [← hcount]
  refine ⟨decode_waiting, fun h => ?_⟩
  cases hr : decodeRequest fmt (.ofItems head.toWord (rest.take (operandItems head.toWord))) with
  | ok i => exact .inl ⟨i, decode_command h hr⟩
  | error e => exact .inr ⟨e, decode_illegal h hr⟩

/-! ## The opcode map (30_encoding.md R83) -/

/-- The row of an opcode: its OPC, its largest SEL and its largest FLD. -/
def Opcode.row (op : Opcode) : Nat × Nat × Nat :=
  match op with
  | .nop | .init | .deinit | .frame | .pmono | .pstereo => (op.code, 0, 0)
  | .rdreg => (op.code, 13, 0)
  | .lrd => (op.code, 12, 13)
  | .setp => (op.code, 11, 0)
  | .lrdbuf | .lsetlen | .lpush | .lout | .ltap | .ldiff | .lmode | .lfb | .lmod | .lmoden => (op.code, 12, 0)

theorem Opcode.row_fst (op : Opcode) : op.row.1 = op.code := by cases op <;> rfl

/-- The 19 opcodes, in the order of R83. -/
def Opcode.all : List Opcode :=
  [.nop, .init, .deinit, .rdreg, .lrd, .lrdbuf, .setp, .frame, .pmono, .pstereo, .lsetlen, .lpush, .lout, .ltap, .ldiff,
    .lmode, .lfb, .lmod, .lmoden]

theorem Opcode.mem_all (op : Opcode) : op ∈ all := by cases op <;> decide

theorem Opcode.exists_mem_map_row_iff {P : Nat × Nat × Nat → Prop} :
    (∃ x ∈ all.map row, P x) ↔ ∃ op : Opcode, P op.row := by
  simp [mem_all]

/-- The rows of R83 are those of the 19 opcodes. -/
theorem Opcode.exists_row_iff {P : Nat × Nat × Nat → Prop} :
    (∃ row ∈ [(0x00, 0, 0), (0x01, 0, 0), (0x02, 0, 0), (0x03, 13, 0), (0x04, 12, 13), (0x05, 12, 0), (0x10, 11, 0),
        (0x20, 0, 0), (0x21, 0, 0), (0x22, 0, 0), (0x30, 12, 0), (0x31, 12, 0), (0x32, 12, 0), (0x33, 12, 0),
        (0x34, 12, 0), (0x35, 12, 0), (0x36, 12, 0), (0x37, 12, 0), (0x38, 12, 0)], P row) ↔ ∃ op : Opcode, P op.row :=
  exists_mem_map_row_iff

section
variable {fmt : NumFmt} {op : Opcode} {r : Request}

theorem exists_decodeSel_iff {α : Type} {w : Word} {choice : Nat → Option α} {build : α → Instr} {m : Nat}
    (hchoice : (∃ a, choice (selOf w) = some a) ↔ selOf w ≤ m) :
    (∃ i, decodeSel op w choice build = .ok i) ↔ selOf w ≤ m ∧ fldOf w ≤ 0 := by
  simp only [decodeSel_ok_iff, ← hchoice, Nat.le_zero]
  constructor
  · rintro ⟨_, a, ha, hfld, _⟩
    exact ⟨⟨a, ha⟩, hfld⟩
  · rintro ⟨⟨a, ha⟩, hfld⟩
    exact ⟨_, a, ha, hfld, rfl⟩

/-- An opcode decodes exactly the SEL and FLD values of its row. -/
theorem exists_decodeOpcode_iff :
    (∃ i, decodeOpcode fmt op r = .ok i) ↔ selOf r.word ≤ op.row.2.1 ∧ fldOf r.word ≤ op.row.2.2 := by
  cases op with
  | nop | init | deinit | frame | pmono | pstereo => exact exists_decodeSel_iff exists_selZero_iff
  | rdreg => exact exists_decodeSel_iff RegName.exists_ofNumber_iff
  | lrd =>
    simp only [Opcode.row, ← LineName.exists_ofNumber_iff, ← FieldName.exists_ofNumber_iff, decodeOpcode_lrd_ok_iff]
    constructor
    · rintro ⟨_, l, f, hl, hf, _⟩
      exact ⟨⟨l, hl⟩, f, hf⟩
    · rintro ⟨⟨l, hl⟩, f, hf⟩
      exact ⟨_, l, f, hl, hf, rfl⟩
  | setp => exact exists_decodeSel_iff (exists_setpOf_iff _)
  | lrdbuf | lsetlen | lpush | lout | ltap | ldiff | lmode | lfb | lmod | lmoden =>
    exact exists_decodeSel_iff LineName.exists_ofNumber_iff

end

/-- Settles O4: a legal word has RSV = 0 and the OPC of an opcode, which decodes the SEL and FLD values of its row. -/
theorem illegalWordsAreThoseOutsideTheMap : Obligations.IllegalWordsAreThoseOutsideTheMap := by
  unfold Obligations.IllegalWordsAreThoseOutsideTheMap
  intro fmt r
  rw [Opcode.exists_row_iff]
  simp only [decodeRequest_ok_iff_opcode, Opcode.row_fst, ← exists_decodeOpcode_iff (fmt := fmt)]
  constructor
  · rintro ⟨i, hrsv, op, hcode, h⟩
    exact ⟨hrsv, op, hcode, i, h⟩
  · rintro ⟨hrsv, op, hcode, i, h⟩
    exact ⟨i, hrsv, op, hcode, h⟩

/-- Settles O1: each conjunct decodes one fixed request. -/
theorem specWordsDecodeAsNamed : Obligations.SpecWordsDecodeAsNamed := by
  unfold Obligations.SpecWordsDecodeAsNamed
  decide

/-! ## Why a word is illegal (30_encoding.md R86 (a) to (d)) -/

section
variable {fmt : NumFmt} {op : Opcode} {r : Request} {e : DecodeError}

theorem Opcode.acceptedInFault_eq (op : Opcode) : op.acceptedInFault = decide (op.code ≤ 5) := by cases op <;> rfl

theorem decodeOpcode_error (h : decodeOpcode fmt op r = .error e) : e = .selOutOfRange op ∨ e = .fldOutOfRange op := by
  cases op with
  | lrd =>
    simp only [decodeOpcode] at h
    split at h <;> cases h
    · exact .inl rfl
    · exact .inr rfl
  | _ => exact decodeSel_error h

/-- An illegal word is accepted while FAULT = 1 by its OPC alone: those up to 5 are the accepted ones (entry 18). -/
theorem decodeRequest_error (h : decodeRequest fmt r = .error e) :
    e.acceptedInFault = decide (opcOf r.word ≤ 5) := by
  unfold decodeRequest at h
  split at h
  next hnone =>
    cases h
    have hopc : ¬opcOf r.word ≤ 5 := by
      generalize opcOf r.word = n at hnone ⊢
      intro hn
      interval_cases n <;> cases hnone
    simp [DecodeError.acceptedInFault, hopc]
  next op hop =>
    rw [Opcode.ofCode_eq_some.1 hop, ← op.acceptedInFault_eq]
    split at h
    · rcases decodeOpcode_error h with rfl | rfl <;> rfl
    · cases h
      rfl

/-- An illegal request on the port begins with its word. -/
theorem decode_illegal_request {items rest : List Item} (h : decode fmt items = .illegal e rest) :
    ∃ r : Request, r.word = (items.headD 0#64).toWord ∧ decodeRequest fmt r = .error e := by
  cases items with
  | nil => cases h
  | cons head tail =>
    by_cases hlen : tail.length < operandItems head.toWord
    · rw [decode_waiting hlen] at h
      cases h
    · have hle := Nat.not_lt.1 hlen
      cases hr : decodeRequest fmt (.ofItems head.toWord (tail.take (operandItems head.toWord))) with
      | ok i =>
        rw [decode_command hle hr] at h
        cases h
      | error e' =>
        rw [decode_illegal hle hr] at h
        cases h
        exact ⟨_, rfl, hr⟩

theorem decode_illegal_accepted {items rest : List Item} (h : decode fmt items = .illegal e rest) :
    e.acceptedInFault = decide (opcOf (items.headD 0#64).toWord ≤ 5) := by
  obtain ⟨r, hword, hr⟩ := decode_illegal_request h
  rw [← hword, decodeRequest_error hr]

end
end Sys2Proof
end

section
/-! PROOFS. The step on a command and on an illegal word, and the checks of the u32 operands (30_encoding.md R80, R86;
60_exceptions.md R233 to R235). -/

namespace Sys2Proof.Machine

section
variable {s : State} {rest : List Item}

theorem step_command {i : Instr} (hreset : s.resetIn = false) (h : decode s.cfg.numFmt s.inq = .command i rest) :
    step s = exec i { s with inq := rest } := by
  simp [step, hreset, h]

theorem step_illegal {e : DecodeError} (hreset : s.resetIn = false) (h : decode s.cfg.numFmt s.inq = .illegal e rest) :
    step s = .next (State.illegalCommand { s with inq := rest } e) := by
  simp [step, hreset, h]

/-- The first fault is recorded, and its response carries the new STATUS (60_exceptions.md R233, R236). -/
theorem State.takeFault_first (h : s.fault = none) (cause : Cause) : s.takeFault cause = { s with
    fault := some cause
    out := ⟨statusOf s.lines.isSome (some cause), []⟩ :: s.out
    draws := s.draws + 1 } := by
  simp [State.takeFault, State.recordFault, h, State.respond, State.status]

/-- A later fault changes nothing: the first cause is kept. -/
theorem State.takeFault_later {c : Cause} (h : s.fault = some c) (cause : Cause) :
    s.takeFault cause = s.respond s.status [] := by
  simp [State.takeFault, State.recordFault, h]

theorem State.illegalCommand_first (h : s.fault = none) (e : DecodeError) :
    s.illegalCommand e = s.takeFault .eillcmd := by
  simp [State.illegalCommand, h]

/-- While FAULT = 1 an illegal word is answered with STATUS, with REJ added if its opcode is not accepted. -/
theorem State.illegalCommand_later {c : Cause} (h : s.fault = some c) (e : DecodeError) :
    s.illegalCommand e = s.respond (if e.acceptedInFault then s.status else s.rejectedStatus) [] := by
  cases ha : e.acceptedInFault with
  | false => simp [State.illegalCommand, h, ha, State.reject]
  | true => simp [State.illegalCommand, h, ha, State.takeFault_later h]

theorem modeOf_eq_none {m : Word} (h : 2 < m.toNat) : modeOf m = none := by
  unfold modeOf
  split
  iterate 3 omega
  rfl

theorem enableOf_eq_none {en : Word} (h : 1 < en.toNat) : enableOf en = none := by
  unfold enableOf
  split
  iterate 2 omega
  rfl

end

/-- Settles O6: by the definition of the step. -/
theorem stepPerformsTheDecodedCommand : Obligations.StepPerformsTheDecodedCommand := by
  unfold Obligations.StepPerformsTheDecodedCommand
  exact fun _ _ _ => step_command

/-- Settles O8: the first fault is taken; after it, the OPC of the word says whether REJ is added to STATUS. -/
theorem illegalWordFaultsOrIsRejected : Obligations.IllegalWordFaultsOrIsRejected := by
  unfold Obligations.IllegalWordFaultsOrIsRejected
  intro s e rest hreset h
  rw [step_illegal hreset h]
  constructor
  · intro hf
    rw [State.illegalCommand_first (s := { s with inq := rest }) hf, State.takeFault_first (s := { s with inq := rest }) hf]
  · intro c hf
    rw [State.illegalCommand_later (s := { s with inq := rest }) hf, decode_illegal_accepted h]
    simp only [decide_eq_true_eq]
    rfl

/-- Settles O17: an operand out of range names no mode and no flag, and the check stands before that for a network. -/
theorem outOfRangeOperandIsIllegal : Obligations.OutOfRangeOperandIsIllegal := by
  unfold Obligations.OutOfRangeOperandIsIllegal
  intro s l v hf
  constructor
  · intro hv
    show State.gated s (modeOf v).isSome _ = _
    rw [modeOf_eq_none hv]
    exact State.gated_illegal hf _
  · intro hv
    show State.gated s (enableOf v).isSome _ = _
    rw [enableOf_eq_none hv]
    exact State.gated_illegal hf _

end Sys2Proof.Machine
end

section
/-! PROOFS. The line access commands from a running state (40_delay_line.md R113 to R120): a command on one line stores
what its procedure leaves, or takes the fault its procedure raises; then the settings, the reads and the lengths. -/

namespace Sys2Proof.Machine

/-! ## A command on one line from a running state -/

section
variable {s : State} {ls : Lines} {l : LineName}

theorem State.withLine_get (h : s.running ls) : s.withLine ls l (ls.get l) = s := by
  simp [State.withLine, ← h.2]

theorem State.withLine_status (h : s.running ls) (ln : Line) : (s.withLine ls l ln).status = s.status := by
  simp [State.status, State.withLine, h.2]

theorem State.running_withLine (h : s.running ls) (ln : Line) (status : Word) (results : List Item) :
    ((s.withLine ls l ln).respond status results).running (ls.set l ln) := ⟨h.1, rfl⟩

theorem State.running_wf (h : s.running ls) (hs : s.inv = true) (l : LineName) : (ls.get l).wf s.cfg = true :=
  Lines.wf_iff.1 ((State.inv_iff.1 hs).2 ls h.2) l

/-- The command completes with the line and the results of its procedure. -/
theorem State.gated_onLine_completes (h : s.running ls) {body : Line → Except Stop (Line × List Item)} {ln : Line}
    {results : List Item} (hb : body (ls.get l) = .ok (ln, results)) :
    s.gated true (fun ls => s.onLine ls l body) = .next ((s.withLine ls l ln).respond s.status results) := by
  rw [State.gated_ready h.1 h.2, State.onLine_ok hb, State.finish_ok, ← State.withLine_status h ln]
  rfl

/-- The command takes the fault that its procedure raises. -/
theorem State.gated_onLine_raises (h : s.running ls) {body : Line → Except Stop (Line × List Item)} {cause : Cause}
    (hb : body (ls.get l) = .error (.raise cause)) :
    s.gated true (fun ls => s.onLine ls l body) = .next (s.takeFault cause) := by
  rw [State.gated_ready h.1 h.2, State.onLine_error hb, State.finish_raise]

/-- A fault of a running state: the status word has INITD, FAULT and the cause (60_exceptions.md R233, R236). -/
theorem State.takeFault_running (h : s.running ls) (cause : Cause) : s.takeFault cause = { s with
    fault := some cause
    out := ⟨statusOf true (some cause), []⟩ :: s.out
    draws := s.draws + 1 } := by
  rw [State.takeFault_first h.1, h.2, Option.isSome_some]

/-! ### One rule per command -/

theorem exec_lsetlen_ok (h : s.running ls) {len : F} {ln : Line} (hp : (ls.get l).setLength s.ctx len = .ok ln) :
    exec (.lsetlen l len) s = .next ((s.withLine ls l ln).respond s.status []) :=
  State.gated_onLine_completes h (by rw [hp]; rfl)

theorem exec_lsetlen_raise (h : s.running ls) {len : F} {cause : Cause}
    (hp : (ls.get l).setLength s.ctx len = .error (.raise cause)) :
    exec (.lsetlen l len) s = .next (s.takeFault cause) :=
  State.gated_onLine_raises h (by rw [hp]; rfl)

theorem exec_lpush_ok (h : s.running ls) {x : F} {ln : Line} (hp : (ls.get l).push s.ctx x = .ok ln) :
    exec (.lpush l x) s = .next ((s.withLine ls l ln).respond s.status []) :=
  State.gated_onLine_completes h (by rw [hp]; rfl)

theorem exec_lpush_raise (h : s.running ls) {x : F} {cause : Cause}
    (hp : (ls.get l).push s.ctx x = .error (.raise cause)) : exec (.lpush l x) s = .next (s.takeFault cause) :=
  State.gated_onLine_raises h (by rw [hp]; rfl)

theorem exec_lout_ok (h : s.running ls) {r : F × Line} (hp : (ls.get l).currentOutput s.ctx = .ok r) :
    exec (.lout l) s = .next ((s.withLine ls l r.2).respond s.status [r.1]) :=
  State.gated_onLine_completes h (by rw [hp]; rfl)

theorem exec_lout_raise (h : s.running ls) {cause : Cause}
    (hp : (ls.get l).currentOutput s.ctx = .error (.raise cause)) : exec (.lout l) s = .next (s.takeFault cause) :=
  State.gated_onLine_raises h (by rw [hp]; rfl)

theorem exec_ltap_ok (h : s.running ls) {k : Word} {v : F} (hp : (ls.get l).tapAt k.toNat = .ok v) :
    exec (.ltap l k) s = .next (s.respond s.status [v]) := by
  refine (State.gated_onLine_completes (ln := ls.get l) (results := [v]) h (by rw [hp]; rfl)).trans ?_
  rw [State.withLine_get h]

theorem exec_ltap_raise (h : s.running ls) {k : Word} {cause : Cause}
    (hp : (ls.get l).tapAt k.toNat = .error (.raise cause)) : exec (.ltap l k) s = .next (s.takeFault cause) :=
  State.gated_onLine_raises h (by rw [hp]; rfl)

theorem exec_ldiff_raise (h : s.running ls) {x k : F} {cause : Cause}
    (hp : (ls.get l).diffuse s.ctx x k = .error (.raise cause)) : exec (.ldiff l x k) s = .next (s.takeFault cause) :=
  State.gated_onLine_raises h (by rw [hp]; rfl)

end

/-- Settles O43: each of these commands is one assignment to a field of its line. -/
theorem lineSettingsStoreTheirOperands : Obligations.LineSettingsStoreTheirOperands := by
  unfold Obligations.LineSettingsStoreTheirOperands
  intro s ls l v w h
  exact ⟨State.gated_onLine_completes h rfl, State.gated_onLine_completes h rfl, State.gated_onLine_completes h rfl,
    State.gated_onLine_completes h rfl, State.gated_onLine_completes h rfl, State.gated_onLine_completes h rfl,
    State.gated_onLine_completes h rfl⟩

/-! ## A line without a length (40_delay_line.md R103, R106, R110; 41_diffusion.md R140) -/

section
variable {c : Ctx} {ln : Line}

theorem Line.currentOutput_unset (hn : ln.n = 0) : ln.currentOutput c = .error (.raise .elineunset) := by
  simp [Line.currentOutput, hn]

theorem Line.push_unset (hn : ln.n = 0) (x : F) : ln.push c x = .error (.raise .elineunset) := by
  have hstore : ln.store x = .error (.raise .elineunset) := by simp [Line.store, hn]
  rw [Line.push, hstore]
  rfl

theorem Line.tapAt_unset (hn : ln.n = 0) (k : Int) : ln.tapAt k = .error (.raise .elineunset) := by
  simp [Line.tapAt, hn]

theorem Line.diffuse_unset (hn : ln.n = 0) (x k : F) : ln.diffuse c x k = .error (.raise .elineunset) := by
  rw [Line.diffuse, Line.currentOutput_unset hn]
  rfl

end

/-- Settles O37: the procedure of each of the four commands begins with the check of N. -/
theorem unsetLineRaisesElineunset : Obligations.UnsetLineRaisesElineunset := by
  unfold Obligations.UnsetLineRaisesElineunset
  intro s ls l x y k h hn i hi
  suffices hfault : exec i s = .next (s.takeFault .elineunset) by
    rw [hfault, State.takeFault_running h]
    rfl
  simp only [List.mem_cons, List.not_mem_nil, or_false] at hi
  rcases hi with rfl | rfl | rfl | rfl
  · exact exec_lpush_raise h (Line.push_unset hn x)
  · exact exec_lout_raise h (Line.currentOutput_unset hn)
  · exact exec_ltap_raise h (Line.tapAt_unset hn _)
  · exact exec_ldiff_raise h (Line.diffuse_unset hn x y)

/-! ## Taps and the current output (40_delay_line.md R106 to R110, R115, R116) -/

/-- The sample at tap `k`: the slot `k` behind the write cursor, modulo N (R110). -/
def Line.tap (ln : Line) (k : Int) : F := Slots.read ln.buf (((ln.w : Int) - k) % (ln.n : Int)).toNat

/-- The sample at the current output's slot, or `ahead` slots on (R106). -/
def Line.outTap (ln : Line) (ahead : Int) : F := Slots.read ln.buf (ln.readSlot ahead)

section
variable {c : Ctx} {ln : Line} {t1 t2 : F}

theorem Line.interpolate_first (h : ln.mode = .none ∨ Fp.eq c.fmt ln.frac Fp.zero = true) :
    ln.interpolate c t1 t2 = (t1, ln) := by
  simp [Line.interpolate, h]

theorem Line.interpolate_linear (hmode : ln.mode = .linear) (hfrac : Fp.eq c.fmt ln.frac Fp.zero = false) :
    ln.interpolate c t1 t2 = (Fp.add (c.at 3) t1 (Fp.mul (c.at 2) ln.frac (Fp.sub (c.at 1) t2 t1)), ln) := by
  simp [Line.interpolate, hmode, hfrac]

theorem Line.interpolate_allpass (hmode : ln.mode = .allpass) (hfrac : Fp.eq c.fmt ln.frac Fp.zero = false) :
    let y := Fp.add (c.at 4) t2 (Fp.mul (c.at 3) (Fp.apcoef (c.at 1) ln.frac) (Fp.sub (c.at 2) t1 ln.aps))
    ln.interpolate c t1 t2 = (y, { ln with aps := y }) := by
  simp [Line.interpolate, hmode, hfrac]

end

section
variable {p : Params} {s : State} {ls : Lines} {l : LineName}

/-- LTAP answers the sample at the tap and changes nothing (R116). -/
theorem exec_ltap (h : s.running ls) (hw : (ls.get l).wf p = true) (hn : (ls.get l).n ≠ 0) (k : Word) :
    exec (.ltap l k) s = .next (s.respond s.status [(ls.get l).tap k.toNat]) :=
  exec_ltap_ok h (Line.tapAt_total hw hn _)

/-- LOUT answers the interpolation of the two taps (R115). -/
theorem exec_lout (h : s.running ls) (hw : (ls.get l).wf p = true) (hn : (ls.get l).n ≠ 0) {y : F} {ln : Line}
    (hy : (ls.get l).interpolate s.ctx ((ls.get l).outTap 0) ((ls.get l).outTap 1) = (y, ln)) :
    exec (.lout l) s = .next ((s.withLine ls l ln).respond s.status [y]) :=
  exec_lout_ok h (r := (y, ln)) (by rw [← hy]; exact Line.currentOutput_total hw hn)

/-- In mode 0, or with FRAC = 0, LOUT answers the first tap and changes nothing (R107). -/
theorem exec_lout_first (h : s.running ls) (hw : (ls.get l).wf p = true) (hn : (ls.get l).n ≠ 0)
    (hfirst : (ls.get l).mode = .none ∨ Fp.eq s.cfg.numFmt (ls.get l).frac Fp.zero = true) :
    exec (.lout l) s = .next (s.respond s.status [(ls.get l).outTap 0]) := by
  have hlout := exec_lout h hw hn (Line.interpolate_first (c := s.ctx) hfirst)
  rwa [State.withLine_get h] at hlout

end

/-- Settles O39: by the three branches of the interpolation. -/
theorem loutReadsByMode : Obligations.LoutReadsByMode := by
  unfold Obligations.LoutReadsByMode
  intro s ls l h hs hn fmt ln slot t1 t2
  have hw : ln.wf s.cfg = true := State.running_wf h hs l
  refine ⟨exec_lout_first h hw hn,
    fun hmode hfrac => ⟨s.ctx.at 3, s.ctx.at 2, s.ctx.at 1, rfl, rfl, rfl, ?_⟩,
    fun hmode hfrac => ⟨s.ctx.at 4, s.ctx.at 3, s.ctx.at 1, s.ctx.at 2, _, rfl, rfl, rfl, rfl, rfl, ?_⟩⟩
  · have hlout := exec_lout h hw hn (Line.interpolate_linear (c := s.ctx) hmode hfrac)
    rwa [State.withLine_get h] at hlout
  · exact exec_lout h hw hn (Line.interpolate_allpass (c := s.ctx) hmode hfrac)

/-- Settles O40: by the check of N, and on a line with a length because every slot below N exists. -/
theorem tapAtReadsTheHistoricalSlot : Obligations.TapAtReadsTheHistoricalSlot := by
  unfold Obligations.TapAtReadsTheHistoricalSlot
  refine ⟨fun ln k hn => Line.tapAt_unset hn k, fun s ls l h hs hn => ?_⟩
  have hw := State.running_wf h hs l
  exact ⟨fun k => Line.tapAt_total hw hn k, exec_ltap h hw hn⟩

/-! ## Lengths that do not pass or do not fit (40_delay_line.md R100, R101, R113) -/

section
variable {c : Ctx} {fmt : NumFmt} {ln : Line} {len : F} {m : Nat}

/-- The slots a finite length needs, from its units: `ceil` is the quotient rounded up (R101). -/
theorem slotsNeeded_fin (h : Fp.unpack fmt len = .fin false m) :
    slotsNeeded fmt len = some (2 * ((m + Fp.one fmt - 1) / Fp.one fmt) + 1) := by
  have hone := Fp.one_pos fmt
  have hceil : -(-(m : Int) / (Fp.one fmt : Int)) = ((m + Fp.one fmt - 1) / Fp.one fmt : Nat) := by
    have hlo := Nat.div_mul_le_self (m + Fp.one fmt - 1) (Fp.one fmt)
    have hhi := Nat.lt_div_mul_add hone (a := m + Fp.one fmt - 1)
    generalize (m + Fp.one fmt - 1) / Fp.one fmt = q at hlo hhi ⊢
    have hdiv : -(m : Int) / (Fp.one fmt : Int) = -(q : Int) :=
      ((Int.ediv_emod_unique (r := (q * Fp.one fmt : Nat) - (m : Int)) (by omega)).2
        ⟨by push_cast; ring, by omega, by omega⟩).1
    omega
  simp only [slotsNeeded, Fp.ceil?, h, Bool.false_eq_true, if_false, hceil, Option.map_some, Int.toNat_natCast]

/-- SetLength of +infinity raises ECAP (R101). -/
theorem Line.setLength_inf (h : Fp.unpack c.fmt len = .inf false) : ln.setLength c len = .error (.raise .ecap) := by
  have hguard : lengthGuard c.fmt len = true := (lengthGuard_iff _ _).2 (.inl h)
  simp [Line.setLength, hguard, slotsNeeded, Fp.ceil?, h]

/-- SetLength of a finite length above 2: ECAP if the line and MAXCAP are too small for it, else the length is stored in
the grown line (R101, R102). -/
theorem Line.setLength_fin (h : Fp.unpack c.fmt len = .fin false m) (hm : 2 * Fp.one c.fmt < m) :
    let need := 2 * ((m + Fp.one c.fmt - 1) / Fp.one c.fmt) + 1
    ln.setLength c len = if ln.cap < need ∧ c.cfg.maxcap < need then .error (.raise .ecap)
      else .ok ((ln.grow need).storeLength c len (m / Fp.one c.fmt)) := by
  have hguard : lengthGuard c.fmt len = true := (lengthGuard_iff _ _).2 (.inr ⟨m, h, hm⟩)
  have hfloor : Fp.floor? c.fmt len = some ((m / Fp.one c.fmt : Nat) : Int) := by simp [Fp.floor?, h]
  simp only [Line.setLength, hguard, if_true, slotsNeeded_fin h, hfloor, Int.toNat_natCast]

end

/-- Settles O33: none of these lengths passes the guard. -/
theorem lsetlenIgnoresDegenerateLengths : Obligations.LsetlenIgnoresDegenerateLengths := by
  unfold Obligations.LsetlenIgnoresDegenerateLengths
  intro s ls l len h hlen
  have hguard : lengthGuard s.cfg.numFmt len = false := by
    rw [Bool.eq_false_iff, Ne, lengthGuard_iff]
    rcases hlen with hlen | hlen | ⟨m, hlen⟩ | ⟨m, hlen, hm⟩
    iterate 3 simp [hlen]
    simpa [hlen] using hm
  have hset := exec_lsetlen_ok h (Line.setLength_guard (c := s.ctx) (ln := ls.get l) hguard)
  rwa [State.withLine_get h] at hset

/-- Settles O35: neither the line nor MAXCAP has the slots, since CAP is at most MAXCAP. -/
theorem lsetlenBeyondCapacityRaisesEcap : Obligations.LsetlenBeyondCapacityRaisesEcap := by
  unfold Obligations.LsetlenBeyondCapacityRaisesEcap
  intro s ls l len h hs hlen
  suffices hset : (ls.get l).setLength s.ctx len = .error (.raise .ecap) by
    rw [exec_lsetlen_raise h hset, State.takeFault_running h]
    rfl
  rcases hlen with hinf | ⟨m, hfin, hm, hneed⟩
  · exact Line.setLength_inf hinf
  · obtain ⟨-, -, hcap, -⟩ := Line.wf_iff.1 (State.running_wf h hs l)
    rw [Line.setLength_fin (c := s.ctx) hfin hm]
    exact if_pos ⟨hcap.trans_lt hneed, hneed⟩

end Sys2Proof.Machine
end

section
/-! PROOFS. A length that fits (40_delay_line.md R101, R102): the whole part and the fraction of an F value
are F values themselves, so the subtraction that gives FRAC is exact. -/

namespace Sys2Proof.Machine

/-! ## Exact results of rounding (00_scope.md R11) -/

section
variable {fmt : NumFmt} {k m n s : Nat}

/-- A value of the format rounds to itself. -/
theorem Fp.roundUnits_units (h : k < Fp.infBits fmt) : Fp.roundUnits fmt (Fp.units fmt k) 1 = k := by
  have hmono := Fp.units_strictMono fmt
  obtain ⟨j, ⟨hlo, hhi⟩, hround⟩ := Fp.roundUnits_eq fmt (Fp.units fmt k) Nat.one_pos
  rw [Nat.one_mul] at hlo hhi
  have hjk : j = k := Nat.le_antisymm (hmono.le_iff_le.1 hlo) (Nat.le_of_lt_succ (hmono.lt_iff_lt.1 hhi))
  subst hjk
  have hnearest : Fp.nearest fmt (Fp.units fmt j) 1 j = j := by
    unfold Fp.nearest
    rw [if_neg (by omega)]
  rw [hround, hnearest, Nat.min_eq_left h.le]

/-- A significand of `fracBits + 1` bits at any exponent step is a magnitude, with the exponent field left unbounded. -/
theorem Fp.exists_units (fmt : NumFmt) :
    ∀ {s m : Nat}, m < 2 * 2 ^ Fp.fracBits fmt → ∃ k, Fp.units fmt k = m * 2 ^ s
  | 0, m, hm => ⟨m, by simpa using Fp.units_step (s := 0) (.inl rfl) hm.le⟩
  | s + 1, m, hm => by
    by_cases hlo : 2 ^ Fp.fracBits fmt ≤ m
    · exact ⟨_, Fp.units_step (.inr hlo) hm.le⟩
    · obtain ⟨k, hk⟩ := Fp.exists_units fmt (s := s) (m := 2 * m) (by omega)
      exact ⟨k, by rw [hk, Nat.pow_succ]; ring⟩

/-- A whole number of units with a short significand, below a finite value, is rounded to itself. -/
theorem Fp.unpack_round_exact {negative : Bool} (hk : k < Fp.infBits fmt) (hm : m < 2 * 2 ^ Fp.fracBits fmt)
    (hle : m * 2 ^ s ≤ Fp.units fmt k) :
    Fp.unpack fmt (Fp.round fmt negative (m * 2 ^ s) 1) = .fin negative (m * 2 ^ s) := by
  obtain ⟨j, hj⟩ := Fp.exists_units fmt hm (s := s)
  rw [← hj] at hle ⊢
  have hlt : j < Fp.infBits fmt := ((Fp.units_strictMono fmt).le_iff_le.1 hle).trans_lt hk
  rw [Fp.round, Fp.roundUnits_units hlt, Fp.unpack_withSign_fin hlt]

/-- Cut at a power of two, a value with a short significand gives a multiple of that power and a rest, and both have short
significands. -/
theorem significand_split {b sig e u : Nat} (hsig : sig < b) :
    (∃ a i, a < b ∧ sig * 2 ^ e / 2 ^ u * 2 ^ u = a * 2 ^ i) ∧ ∃ a i, a < b ∧ sig * 2 ^ e % 2 ^ u = a * 2 ^ i := by
  rcases Nat.le_total u e with hue | heu
  · have hdvd : 2 ^ u ∣ sig * 2 ^ e := (Nat.pow_dvd_pow 2 hue).mul_left sig
    exact ⟨⟨sig, e, hsig, Nat.div_mul_cancel hdvd⟩, 0, 0, by omega, by rw [Nat.mod_eq_zero_of_dvd hdvd]; rfl⟩
  · have hpow : 2 ^ u = 2 ^ (u - e) * 2 ^ e := by rw [← Nat.pow_add, Nat.sub_add_cancel heu]
    refine ⟨⟨sig / 2 ^ (u - e), u, (Nat.div_le_self _ _).trans_lt hsig, ?_⟩,
      sig % 2 ^ (u - e), e, (Nat.mod_le _ _).trans_lt hsig, ?_⟩
    · rw [hpow, Nat.mul_div_mul_right _ _ (Nat.two_pow_pos e)]
    · rw [hpow, Nat.mul_mod_mul_right]

/-- The whole part and the fraction of a finite value are not changed by rounding. -/
theorem Fp.unpack_round_whole_and_fraction {x : F} {negative : Bool} (h : Fp.unpack fmt x = .fin negative m) :
    Fp.unpack fmt (Fp.round fmt false (m / Fp.one fmt * Fp.one fmt) 1) = .fin false (m / Fp.one fmt * Fp.one fmt) ∧
      Fp.unpack fmt (Fp.round fmt false (m % Fp.one fmt) 1) = .fin false (m % Fp.one fmt) := by
  obtain ⟨k, hk, rfl⟩ := Fp.unpack_fin h
  have hwhole := Nat.div_mul_le_self (Fp.units fmt k) (Fp.one fmt)
  have hfrac := Nat.mod_le (Fp.units fmt k) (Fp.one fmt)
  obtain ⟨e, sig, hsplit, hlo, hsig⟩ := Fp.exists_step fmt k
  have hunits : Fp.units fmt k = sig * 2 ^ e := by rw [hsplit, Fp.units_step hlo hsig.le]
  obtain ⟨⟨a, i, ha, hai⟩, b, j, hb, hbj⟩ := significand_split (e := e) (u := Fp.unitShift fmt) hsig
  rw [← hunits] at hai hbj
  change _ / Fp.one fmt * Fp.one fmt = _ at hai
  change _ % Fp.one fmt = _ at hbj
  rw [hai] at hwhole ⊢
  rw [hbj] at hfrac ⊢
  exact ⟨Fp.unpack_round_exact hk ha hwhole, Fp.unpack_round_exact hk hb hfrac⟩

theorem Fp.ofInt_natCast (fmt : NumFmt) (n : Nat) :
    Fp.ofInt fmt n = Fp.round fmt false (n * Fp.one fmt) 1 := by
  have hn : ¬ (n : Int) < 0 := by omega
  rw [Fp.ofInt, Int.natAbs_natCast, decide_eq_false hn]

/-- The difference of a non-negative finite value and its whole part is its fraction, exactly. -/
theorem Fp.unpack_sub_whole {c : Ctx} {x : F} (h : Fp.unpack c.fmt x = .fin false m) :
    Fp.unpack c.fmt (Fp.sub c x (Fp.ofInt c.fmt (m / Fp.one c.fmt : Nat))) = .fin false (m % Fp.one c.fmt) := by
  obtain ⟨hwhole, hfrac⟩ := Fp.unpack_round_whole_and_fraction h
  have hrest : m - m / Fp.one c.fmt * Fp.one c.fmt = m % Fp.one c.fmt := by
    have := Nat.div_add_mod' m (Fp.one c.fmt)
    omega
  rw [Fp.ofInt_natCast, Fp.sub_finite h hwhole, Fp.signed_add_not false (Nat.div_mul_le_self _ _), hrest,
    Bool.false_and, Fp.roundInt_signed (.inr rfl), hfrac]

end

/-! ## Growth and the stored length -/

section
variable {ln : Line} {need : Nat}

/-- A line grown to `need` slots: CAP is at least `need`, and no other field but the slots differs (R101). -/
theorem Line.grow_eq (ln : Line) (need : Nat) :
    ln.grow need = { ln with cap := max ln.cap need, buf := (ln.grow need).buf } := by
  unfold Line.grow
  split
  · rw [Nat.max_eq_right (by omega)]
  · rw [Nat.max_eq_left (by omega)]

/-- The new slots of a grown line are +0, the others as they were (R101). -/
theorem Line.read_grow (hb : Slots.wf ln.buf = true) (i : Nat) :
    Slots.read (ln.grow need).buf i = if ln.cap ≤ i ∧ i < need then 0#64 else Slots.read ln.buf i := by
  unfold Line.grow
  split
  · exact Slots.read_zeroFill hb _ _ _
  · rw [if_neg (by omega)]

end

/-- Settles O34: SetLength stores the length in the grown line, and its fraction is exact. -/
theorem lsetlenSetsTheLength : Obligations.LsetlenSetsTheLength := by
  unfold Obligations.LsetlenSetsTheLength
  intro s ls l len m h hs ln one need hfin hm hneed
  obtain ⟨-, -, -, -, -, -, hb, -⟩ := Line.wf_iff.1 (State.running_wf h hs l)
  have hset : ln.setLength s.ctx len = .ok ((ln.grow need).storeLength s.ctx len (m / one)) := by
    rw [Line.setLength_fin (c := s.ctx) hfin hm]
    exact if_neg fun hcap => hcap.2.not_ge hneed
  refine ⟨_, (ln.grow need).buf, Fp.unpack_sub_whole (c := s.ctx.at 1) hfin, ?_, fun i => Line.read_grow hb i⟩
  rw [exec_lsetlen_ok h hset, Line.storeLength, Line.grow_eq]
  rfl

end Sys2Proof.Machine
end

section
/-! PROOFS. The push and its three steps (40_delay_line.md R103 to R105, R114), and when it raises EMODRANGE
(60_exceptions.md R232). -/

namespace Sys2Proof.Machine

/-! ## The steps of a push -/

/-- The line after the store step of a push: the sample stands at the old write cursor, which is one on (R103). -/
def Line.stored (ln : Line) (x : F) : Line := { ln with buf := Slots.write ln.buf ln.w x, w := (ln.w + 1) % ln.n }

/-- On this line the modulation step raises EMODRANGE, whatever draws its arithmetic takes (R104). -/
def Line.modulationFaults (p : Params) (ln : Line) : Prop :=
  ∀ c : Ctx, c.cfg = p → ln.modulate c = .error (.raise .emodrange)

section
variable {c : Ctx} {p : Params} {ln ln' : Line}

theorem Line.w_lt (hw : ln.wf p = true) (hn : ln.n ≠ 0) : ln.w < ln.n := by
  obtain ⟨-, -, -, hlt, -⟩ := Line.wf_iff.1 hw
  rwa [if_neg hn] at hlt

theorem Line.wf_buf (hw : ln.wf p = true) : Slots.wf ln.buf = true := by
  obtain ⟨-, -, -, -, -, -, hb, -⟩ := Line.wf_iff.1 hw
  exact hb

theorem Line.push_of_modulate (hw : ln.wf p = true) (hn : ln.n ≠ 0) {x : F}
    (hm : (ln.stored x).modulate (c.at 1) = .ok ln') : ln.push c x = ln'.feedback (c.at 2) ln.w := by
  have hstore : ln.store x = .ok (ln.stored x) := Line.store_total hw hn x
  rw [Line.push, hstore]
  show (ln.stored x).modulate (c.at 1) >>= _ = _
  rw [hm]
  rfl

theorem Line.push_of_modulate_error (hw : ln.wf p = true) (hn : ln.n ≠ 0) {x : F} {stop : Stop}
    (hm : (ln.stored x).modulate (c.at 1) = .error stop) : ln.push c x = .error stop := by
  have hstore : ln.store x = .ok (ln.stored x) := Line.store_total hw hn x
  rw [Line.push, hstore]
  show (ln.stored x).modulate (c.at 1) >>= _ = _
  rw [hm]
  rfl

/-- With MODEN = 1, what the modulation step does when it answers: PHASE advances, and the offset, whose integer part is
an s32, is split into EXC and FRAC (R104). -/
theorem Line.modulate_on_ok (hon : ln.moden = true) (h : ln.modulate c = .ok ln') :
    ∃ exc, excursionOf c (ln.modOffset c) = some exc ∧ -(2 ^ 31 : Int) ≤ exc ∧ exc < 2 ^ 31 ∧
      ln' = { ln with
        phase := ln.nextPhase c, exc := exc, frac := Fp.sub (c.at 5) (ln.modOffset c) (Fp.ofInt c.fmt exc) } := by
  rw [Line.modulate, if_pos hon] at h
  split at h
  · cases h
  next exc hexc =>
    split at h
    · cases h
    next hrange =>
      cases h
      exact ⟨exc, hexc, by omega, by omega, rfl⟩

/-- What the feedback step does on a line with a length: with FB ≠ 0, FB times the current output is added to the slot,
and the line is that which the output leaves (R105). -/
theorem Line.feedback_answers (hw : ln.wf p = true) (hn : ln.n ≠ 0) {j : Nat} (hj : j < ln.n) :
    ∃ final, ln.feedback c j = .ok final ∧ (Fp.eq c.fmt ln.fb Fp.zero = true ∧ final = ln ∨
      Fp.eq c.fmt ln.fb Fp.zero = false ∧ ∃ y read, ln.currentOutput (c.at 1) = .ok (y, read) ∧ final = { read with
        buf := Slots.write ln.buf j (Fp.add (c.at 3) (Slots.read ln.buf j) (Fp.mul (c.at 2) ln.fb y)) }) := by
  cases hfb : Fp.eq c.fmt ln.fb Fp.zero with
  | true => exact ⟨ln, Line.feedback_off hfb, .inl ⟨rfl, rfl⟩⟩
  | false =>
    obtain ⟨-, hcap, -⟩ := Line.wf_iff.1 hw
    obtain ⟨⟨y, read⟩, hout⟩ : ∃ r, ln.currentOutput (c.at 1) = .ok r := ⟨_, Line.currentOutput_total hw hn⟩
    refine ⟨_, ?_, .inr ⟨rfl, y, read, hout, rfl⟩⟩
    obtain ⟨aps, rfl⟩ := Line.currentOutput_line hout
    have hj' : j < ({ ln with aps := aps } : Line).cap := show j < ln.cap by omega
    simp [Line.feedback, hfb, hout, bind, Except.bind, Line.bufRead_lt hj', Line.bufWrite_lt hj']

/-- Whether the modulation step answers depends on MODEN, PHASE, FREQ and EXT alone (R104). -/
theorem Line.modulationFaults_congr {a b : Line} (h1 : a.moden = b.moden) (h2 : a.phase = b.phase)
    (h3 : a.freq = b.freq) (h4 : a.ext = b.ext) (h : a.modulationFaults p) : b.modulationFaults p := by
  intro d hd
  cases hb : b.modulate d with
  | error stop => rw [Line.modulate_error hb]
  | ok b' =>
    have hans := Line.modulate_answers_iff.1 ⟨b', hb⟩
    rw [← h1, ← h2, ← h3, ← h4] at hans
    obtain ⟨a', ha⟩ := Line.modulate_answers_iff.2 hans
    rw [h d hd] at ha
    cases ha

/-- With MODEN = 1, the modulation step raises EMODRANGE where no offset has an integer part that is an s32. -/
theorem Line.modulationFaults_of_offsets (hon : ln.moden = true)
    (h : ∀ c d e f : Ctx, c.cfg = p → d.cfg = p → e.cfg = p → f.cfg = p → ∀ exc, excursionOf ⟨p, 0, 0⟩
      (Fp.mul e (Fp.sin f (Fp.add c ln.phase (Fp.mul d p.twoPi ln.freq))) ln.ext) = some exc →
        exc < -(2 ^ 31 : Int) ∨ (2 ^ 31 : Int) ≤ exc) : ln.modulationFaults p := by
  rintro c rfl
  cases hm : ln.modulate c with
  | error stop => rw [Line.modulate_error hm]
  | ok ln' =>
    obtain ⟨exc, hexc, hlo, hhi, -⟩ := Line.modulate_on_ok hon hm
    have hout := h (c.at 2) (c.at 1) (c.at 4) (c.at 3) rfl rfl rfl rfl exc hexc
    omega

/-- A push on such a line raises EMODRANGE. -/
theorem Line.push_faults (hw : ln.wf p = true) (hn : ln.n ≠ 0) (hf : ln.modulationFaults p) (hc : c.cfg = p) (x : F) :
    ln.push c x = .error (.raise .emodrange) :=
  Line.push_of_modulate_error hw hn <|
    Line.modulationFaults_congr (a := ln) (b := ln.stored x) rfl rfl rfl rfl hf (c.at 1) hc

end

/-- Settles O36: the three steps of the push, of which the second answers because the offset is in range. -/
theorem lpushStoresModulatesAndFeedsBack : Obligations.LpushStoresModulatesAndFeedsBack := by
  unfold Obligations.LpushStoresModulatesAndFeedsBack
  intro s ls l x h hs hn hrange fmt ln stored
  have hw : ln.wf s.cfg = true := State.running_wf h hs l
  have hws : stored.wf s.cfg = true := Line.store_wf hw (Line.store_total hw hn x)
  obtain ⟨modulated, hmod⟩ :=
    Line.modulationInRange_congr (a := ln) (b := stored) rfl rfl rfl rfl hrange (s.ctx.at 1) rfl
  have hwm := Line.modulate_wf hws hmod
  obtain ⟨phase, exc, frac, rfl, -⟩ := Line.modulate_ok hmod
  have hslot : ln.w < ln.n := Line.w_lt hw hn
  obtain ⟨final, hfinal, hcases⟩ := Line.feedback_answers (c := s.ctx.at 2) hwm hn hslot
  have hx : Slots.read stored.buf ln.w = x := Slots.read_write_same (Line.wf_buf hw) ln.w x
  refine ⟨{ stored with phase := phase, exc := exc, frac := frac }, final, ?_, ?_,
    exec_lpush_ok h ((Line.push_of_modulate hw hn hmod).trans hfinal)⟩
  · rcases Bool.eq_false_or_eq_true ln.moden with hon | hoff
    · obtain ⟨e, hexc, hlo, hhi, heq⟩ := Line.modulate_on_ok (ln := stored) hon hmod
      exact .inr ⟨hon, _, _, _, _, _, _, _, e, rfl, rfl, rfl, rfl, rfl, rfl, rfl, hexc, hlo, hhi, heq⟩
    · exact .inl ⟨hoff, Except.ok.inj (hmod.symm.trans (Line.modulate_off (ln := stored) hoff))⟩
  · rcases hcases with hoff | ⟨hfb, y, read, hout, heq⟩
    · exact .inl hoff
    · rw [hx] at heq
      exact .inr ⟨hfb, _, _, _, y, read, rfl, rfl, rfl, hout, heq⟩

/-- Settles O38: the hypothesis speaks of every offset the modulation step can compute. -/
theorem lpushOutOfRangeRaisesEmodrange : Obligations.LpushOutOfRangeRaisesEmodrange := by
  unfold Obligations.LpushOutOfRangeRaisesEmodrange
  intro s ls l x h hs hn hon hout
  have hpush : (ls.get l).push s.ctx x = .error (.raise .emodrange) :=
    Line.push_faults (State.running_wf h hs l) hn (Line.modulationFaults_of_offsets hon hout) rfl x
  rw [exec_lpush_raise h hpush, State.takeFault_running h]
  rfl

end Sys2Proof.Machine
end

section
/-! PROOFS. What is read after any number of pushes to a line without modulation and feedback
(40_delay_line.md R112). -/

namespace Sys2Proof.Machine

/-- The line after the store steps of any number of pushes. -/
def Line.storedAll (ln : Line) (xs : List F) : Line := xs.foldl Line.stored ln

/-- A line on which a push is its store step alone: it has a length, no modulation and no feedback. -/
structure Line.Plain (p : Params) (ln : Line) : Prop where
  wf : ln.wf p = true
  set : ln.n ≠ 0
  moden : ln.moden = false
  fb : Fp.eq p.numFmt ln.fb Fp.zero = true

section
variable {c : Ctx} {p : Params} {ln : Line}

theorem Line.Plain.stored (h : ln.Plain p) (x : F) : (ln.stored x).Plain p :=
  ⟨Line.store_wf h.wf (Line.store_total h.wf h.set x), h.set, h.moden, h.fb⟩

theorem Line.Plain.storedAll (h : ln.Plain p) (xs : List F) : (ln.storedAll xs).Plain p := by
  induction xs generalizing ln with
  | nil => exact h
  | cons x xs ih => exact ih (h.stored x)

theorem Line.Plain.push (h : ln.Plain p) (hc : c.cfg = p) (x : F) : ln.push c x = .ok (ln.stored x) := by
  subst hc
  rw [Line.push_of_modulate h.wf h.set (Line.modulate_off (h.stored x).moden)]
  exact Line.feedback_off (c := c.at 2) h.fb

/-- Stores write the slots and the write cursor alone. -/
theorem Line.storedAll_eq (ln : Line) (xs : List F) :
    ln.storedAll xs = { ln with buf := (ln.storedAll xs).buf, w := (ln.storedAll xs).w } := by
  induction xs generalizing ln with
  | nil => rfl
  | cons x xs ih => exact ih (ln.stored x)

/-! ## Taps after stores -/

theorem Line.tap_stored_one (h : ln.Plain p) (x : F) : (ln.stored x).tap 1 = x := by
  have hw := Line.w_lt h.wf h.set
  have hslot : (((ln.w + 1) % ln.n : Nat) - (1 : Int)) % ln.n = ln.w := by
    rw [Int.natCast_mod, Int.emod_sub_emod]
    push_cast
    rw [Int.add_sub_cancel, Int.emod_eq_of_lt (by omega) (by omega)]
  show Slots.read (Slots.write ln.buf ln.w x) ((((ln.w + 1) % ln.n : Nat) - (1 : Int)) % ln.n).toNat = x
  rw [hslot, Int.toNat_natCast, Slots.read_write_same (Line.wf_buf h.wf)]

/-- One store later, what stood at a tap stands one tap on, unless its slot was the one written. -/
theorem Line.tap_stored_succ (h : ln.Plain p) (x : F) {k : Nat} (hk : 1 ≤ k) (hkn : k < ln.n) :
    (ln.stored x).tap (k + 1) = ln.tap k := by
  have hw := Line.w_lt h.wf h.set
  have hslot : (((ln.w + 1) % ln.n : Nat) - (k + 1 : Int)) % ln.n = ((ln.w : Int) - k) % ln.n := by
    rw [Int.natCast_mod, Int.emod_sub_emod]
    congr 1
    omega
  have hother : (((ln.w : Int) - k) % ln.n).toNat ≠ ln.w := by
    by_cases hkw : k ≤ ln.w
    · rw [Int.emod_eq_of_lt (by omega) (by omega)]
      omega
    · rw [← Int.add_emod_right, Int.emod_eq_of_lt (by omega) (by omega)]
      omega
  show Slots.read (Slots.write ln.buf ln.w x) ((((ln.w + 1) % ln.n : Nat) - (k + 1 : Int)) % ln.n).toNat = ln.tap k
  rw [hslot, Slots.read_write_other (Line.wf_buf h.wf) hother]
  rfl

/-- A tap older than the first of the stores reads the slot as it was before them. -/
theorem Line.tap_storedAll_older (h : ln.Plain p) {xs : List F} {k : Nat} (hk : xs.length < k) (hkn : k ≤ ln.n) :
    (ln.storedAll xs).tap k = ln.tap (k - xs.length : Nat) := by
  induction xs generalizing ln with
  | nil => rfl
  | cons x xs ih =>
    rw [List.length_cons] at hk
    have hshift : k - xs.length = (k - (xs.length + 1)) + 1 := by omega
    have hone := Line.tap_stored_succ h x (k := k - (xs.length + 1)) (by omega) (by omega)
    rw [List.length_cons, ← hone]
    exact (ih (h.stored x) (by omega) hkn).trans (by rw [hshift]; rfl)

/-- A tap not older than the stores reads the sample stored that many stores ago. -/
theorem Line.tap_storedAll_recent (h : ln.Plain p) {xs : List F} {k : Nat} (hk : 1 ≤ k) (hkn : k ≤ ln.n)
    (hkx : k ≤ xs.length) {x : F} (hx : xs[xs.length - k]? = some x) : (ln.storedAll xs).tap k = x := by
  induction xs generalizing ln with
  | nil => simp at hx
  | cons y ys ih =>
    rw [List.length_cons] at hkx hx
    by_cases hky : k ≤ ys.length
    · have hidx : ys.length + 1 - k = (ys.length - k) + 1 := by omega
      rw [hidx, List.getElem?_cons_succ] at hx
      exact ih (h.stored y) hkn hky hx
    · obtain rfl : k = ys.length + 1 := by omega
      rw [Nat.sub_self, List.getElem?_cons_zero, Option.some.injEq] at hx
      have holder := Line.tap_storedAll_older (h.stored y) (xs := ys) (Nat.lt_add_one _) hkn
      rw [Nat.add_sub_cancel_left] at holder
      exact holder.trans ((Line.tap_stored_one h y).trans hx)

/-- The tap at 0 reads the slot of the tap at N. -/
theorem Line.tap_n (ln : Line) : ln.tap ln.n = ln.tap 0 := by
  unfold Line.tap
  rw [Int.sub_emod_right, Int.sub_zero]

/-- With EXC = 0 the current output's slot lies OFF behind the write cursor, since N = 2 × OFF (R28, R106). -/
theorem Line.outTap_zero (hw : ln.wf p = true) (hexc : ln.exc = 0) : ln.outTap 0 = ln.tap ln.off := by
  obtain ⟨-, -, -, -, hoff, -⟩ := Line.wf_iff.1 hw
  have hslot : (ln.w : Int) + ln.off + ln.exc + 0 = ln.w - ln.off + ln.n := by omega
  rw [Line.outTap, Line.readSlot, hslot, Int.add_emod_right, Line.tap]

end

/-! ## Pushes in a row -/

/-- Pushes in a row to such a line leave a running state whose line has stored them all. -/
theorem execAll_lpush {l : LineName} (xs : List F) {s : State} {ls : Lines} (h : s.running ls)
    (hp : (ls.get l).Plain s.cfg) :
    ∃ t ls', execAll (xs.map fun x => .lpush l x) s = .next t ∧ t.running ls' ∧ t.cfg = s.cfg ∧
      ls'.get l = (ls.get l).storedAll xs := by
  induction xs generalizing s ls with
  | nil => exact ⟨s, ls, rfl, h, rfl, rfl⟩
  | cons x xs ih =>
    have hexec := exec_lpush_ok h (hp.push (c := s.ctx) rfl x)
    have hget : (ls.set l ((ls.get l).stored x)).get l = (ls.get l).stored x := Lines.get_set_same _ _ _
    obtain ⟨t, ls', hrest, ht, hcfg, hline⟩ :=
      ih (State.running_withLine h _ s.status []) (by rw [hget]; exact hp.stored x)
    refine ⟨t, ls', ?_, ht, hcfg, by rw [hline, hget]; rfl⟩
    rw [List.map_cons, execAll, hexec]
    exact hrest

/-- Settles O41: after the pushes the taps of the line are those of the stores. -/
theorem tapsAndOutputReturnPastSamples : Obligations.TapsAndOutputReturnPastSamples := by
  unfold Obligations.TapsAndOutputReturnPastSamples
  intro s ls l xs h hs hn hmoden hfb
  have hplain : (ls.get l).Plain s.cfg := ⟨State.running_wf h hs l, hn, hmoden, hfb⟩
  obtain ⟨t, ls', hexec, ht, hcfg, hline⟩ := execAll_lpush xs h hplain
  have heq := hline.trans (Line.storedAll_eq _ xs)
  have hafter : (ls'.get l).Plain s.cfg := hline ▸ hplain.storedAll xs
  have htap := exec_ltap ht hafter.wf hafter.set
  obtain ⟨hlen, -, -, -, hoff, -⟩ := Line.wf_iff.1 hplain.wf
  refine ⟨t, hexec, fun k x hk hkn hkx hx => ?_, fun k hk hkn => ?_, fun k v hk => ?_, fun hfirst hexc x hox hx => ?_⟩
  · rw [htap, hline, Line.tap_storedAll_recent hplain hk hkn hkx hx]
  · have hage : ((ls.get l).w : Int) - (k.toNat - xs.length : Nat) = (ls.get l).w + xs.length - k.toNat := by omega
    rw [htap, hline, Line.tap_storedAll_older hplain hk hkn, Line.tap, hage]
  · have hzero : (ls'.get l).tap k.toNat = (ls'.get l).tap 0 := by
      rw [hk, show (ls.get l).n = (ls'.get l).n by rw [heq], Line.tap_n]
    rw [htap, htap, hzero]
    rfl
  · have hlout := exec_lout_first ht hafter.wf hafter.set (by rw [heq, hcfg]; exact hfirst)
    have hout : (ls'.get l).outTap 0 = (ls'.get l).tap (ls'.get l).off :=
      Line.outTap_zero hafter.wf (by rw [heq]; exact hexc)
    have hoff' : (ls'.get l).off = (ls.get l).off := by rw [heq]
    rw [hlout, hout, hoff', hline, Line.tap_storedAll_recent hplain (by omega) (by omega) hox hx]

end Sys2Proof.Machine
end

section
/-! PROOFS. Modulation out of range in a diffusion and in a frame (41_diffusion.md R142, 42_network.md R163, R164): on
lines that have lengths each step answers or raises EMODRANGE, and a line that was pushed was one whose modulation answers. -/

namespace Sys2Proof.Machine

/-! ## Procedures that answer or raise EMODRANGE -/

/-- The procedure gives an answer of which `Q` holds, or raises EMODRANGE. -/
def YieldsOrEmodrange {α : Type} (Q : α → Prop) : Except Stop α → Prop
  | .ok a => Q a
  | .error stop => stop = .raise .emodrange

section
variable {α β : Type} {Q : α → Prop} {R : β → Prop} {x : Except Stop α}

theorem YieldsOrEmodrange.bind {g : α → Except Stop β} (h : YieldsOrEmodrange Q x)
    (hg : ∀ a, Q a → YieldsOrEmodrange R (g a)) : YieldsOrEmodrange R (x >>= g) := by
  cases x with
  | ok a => exact hg a h
  | error stop => exact h

theorem YieldsOrEmodrange.map {g : α → β} (h : YieldsOrEmodrange Q x) (hg : ∀ a, Q a → R (g a)) :
    YieldsOrEmodrange R (x.map g) := by
  cases x with
  | ok a => exact hg a h
  | error stop => exact h

/-- Where no answer is possible, EMODRANGE is raised. -/
theorem YieldsOrEmodrange.raises (h : YieldsOrEmodrange Q x) (hQ : ∀ a, ¬ Q a) : x = .error (.raise .emodrange) := by
  cases x with
  | ok a => exact absurd h (hQ a)
  | error stop => exact congrArg _ h

end

/-! ## One line -/

/-- A line that meets its invariants and has a length. -/
structure Line.Ready (p : Params) (ln : Line) : Prop where
  wf : ln.wf p = true
  set : ln.n ≠ 0

section
variable {c : Ctx} {p : Params} {ln : Line}

theorem Line.push_yields (hc : c.cfg = p) (h : ln.Ready p) (x : F) :
    YieldsOrEmodrange (fun ln' => ln'.Ready p ∧ ¬ ln.modulationFaults p) (ln.push c x) := by
  cases hpush : ln.push c x with
  | error stop =>
    rcases Line.push_error h.wf hpush with ⟨hn, -⟩ | ⟨-, rfl⟩
    · exact absurd hn h.set
    · rfl
  | ok ln' =>
    have hwf := Line.push_wf h.wf hpush
    refine ⟨⟨hwf, ?_⟩, fun hf => ?_⟩
    · obtain ⟨hn, -, _, _, _, _, _, rfl, -⟩ := Line.push_ok hpush
      exact hn
    · rw [Line.push_faults h.wf h.set hf hc x] at hpush
      cases hpush

/-- A current output leaves a line that is ready again, and whose modulation is as before. -/
theorem Line.currentOutput_yields (h : ln.Ready p) :
    YieldsOrEmodrange (fun r => r.2.Ready p ∧ (ln.modulationFaults p → r.2.modulationFaults p))
      (ln.currentOutput c) := by
  cases hout : ln.currentOutput c with
  | error stop =>
    rw [Line.currentOutput_total h.wf h.set] at hout
    cases hout
  | ok r =>
    obtain ⟨y, ln'⟩ := r
    have hwf := Line.currentOutput_wf h.wf hout
    obtain ⟨_, rfl⟩ := Line.currentOutput_line hout
    exact ⟨⟨hwf, h.set⟩, Line.modulationFaults_congr rfl rfl rfl rfl⟩

theorem Line.diffuse_yields (hc : c.cfg = p) (h : ln.Ready p) (x k : F) :
    YieldsOrEmodrange (fun r => r.2.Ready p ∧ ¬ ln.modulationFaults p) (ln.diffuse c x k) :=
  (Line.currentOutput_yields h).bind fun ⟨_, _⟩ hread =>
    (Line.push_yields (c := c.at 4) hc hread.1 _).bind fun _ hpush =>
      show YieldsOrEmodrange _ (.ok _) from ⟨hpush.1, hpush.2 ∘ hread.2⟩

end

/-! ## The thirteen lines -/

/-- From `ls`, steps that pushed the lines `pushed` led to `ls'`: every line is ready, and a line on which the
modulation step raises EMODRANGE was not pushed and still is one. -/
structure Lines.After (p : Params) (ls : Lines) (pushed : List LineName) (ls' : Lines) : Prop where
  ready : ∀ l, (ls'.get l).Ready p
  faults : ∀ l, (ls.get l).modulationFaults p → l ∉ pushed ∧ (ls'.get l).modulationFaults p

section
variable {c : Ctx} {p : Params} {ls ls' : Lines} {pushed : List LineName} {l : LineName} {ln : Line}

theorem Lines.After.refl (h : ∀ l, (ls.get l).Ready p) : ls.After p [] ls := ⟨h, fun _ hf => ⟨by simp, hf⟩⟩

/-- A line may be replaced by a ready one whose modulation is as before. -/
theorem Lines.After.set (h : ls.After p pushed ls') (hready : ln.Ready p)
    (hf : (ls'.get l).modulationFaults p → ln.modulationFaults p) : ls.After p pushed (ls'.set l ln) := by
  refine ⟨fun l' => ?_, fun l' hl' => ?_⟩ <;> rw [Lines.get_set] <;> split
  · exact hready
  · exact h.ready l'
  · subst l'
    exact ⟨(h.faults l hl').1, hf (h.faults l hl').2⟩
  · exact h.faults l' hl'

/-- A line whose modulation answers may be pushed and replaced by a ready one. -/
theorem Lines.After.push (h : ls.After p pushed ls') (hready : ln.Ready p) (hf : ¬ (ls'.get l).modulationFaults p) :
    ls.After p (l :: pushed) (ls'.set l ln) := by
  obtain ⟨hr, hfaults⟩ := h.set hready (absurd · hf)
  refine ⟨hr, fun l' hl' => ⟨?_, (hfaults l' hl').2⟩⟩
  rw [List.mem_cons, not_or]
  refine ⟨?_, (hfaults l' hl').1⟩
  rintro rfl
  exact hf (h.faults l' hl').2

theorem Lines.push_yields (hc : c.cfg = p) (h : ls.After p pushed ls') (l : LineName) (x : F) :
    YieldsOrEmodrange (ls.After p (l :: pushed)) (ls'.push c l x) :=
  (Line.push_yields hc (h.ready l) x).map fun _ hpush => h.push hpush.1 hpush.2

theorem Lines.currentOutput_yields (h : ls.After p pushed ls') (l : LineName) :
    YieldsOrEmodrange (fun r => ls.After p pushed r.2) (ls'.currentOutput c l) :=
  (Line.currentOutput_yields (h.ready l)).map fun _ hout => h.set hout.1 hout.2

theorem Lines.diffuse_yields (hc : c.cfg = p) (h : ls.After p pushed ls') (l : LineName) (x k : F) :
    YieldsOrEmodrange (fun r => ls.After p (l :: pushed) r.2) (ls'.diffuse c l x k) :=
  (Line.diffuse_yields hc (h.ready l) x k).map fun _ hdiff => h.push hdiff.1 hdiff.2

theorem Lines.pass_yields (hc : c.cfg = p) (h : ls.After p pushed ls') (l : LineName) (x : F) :
    YieldsOrEmodrange (fun r => ls.After p (l :: pushed) r.2) (ls'.pass c l x) :=
  (Lines.push_yields (c := c.at 1) hc h l x).bind fun _ hpush => Lines.currentOutput_yields hpush l

/-! ## The steps of Frame (42_network.md R150 to R159) -/

theorem inputDiffusion_yields (hc : c.cfg = p) (h : ls.After p pushed ls') (id1 id2 x : F) :
    YieldsOrEmodrange (fun r => ls.After p (.in3 :: .in2 :: .in1 :: .in0 :: pushed) r.2)
      (inputDiffusion c id1 id2 ls' x) :=
  (Lines.diffuse_yields (c := c.at 1) hc h _ _ _).bind fun ⟨_, _⟩ h0 =>
    (Lines.diffuse_yields (c := c.at 2) hc h0 _ _ _).bind fun ⟨_, _⟩ h1 =>
      (Lines.diffuse_yields (c := c.at 3) hc h1 _ _ _).bind fun ⟨_, _⟩ h2 =>
        Lines.diffuse_yields (c := c.at 4) hc h2 _ _ _

theorem tankStep_yields (hc : c.cfg = p) (h : ls.After p pushed ls') (t : Tank) (s : State) (seed lp : F) :
    YieldsOrEmodrange
      (fun r => ls.After p (t.recirculation :: t.second :: t.damped :: t.diffuser :: pushed) r.2)
      (tankStep c t s ls' seed lp) :=
  (Lines.diffuse_yields (c := c.at 1) hc h _ _ _).bind fun ⟨_, _⟩ h1 =>
    (Lines.pass_yields (c := c.at 2) hc h1 _ _).bind fun ⟨_, _⟩ h2 =>
      (Lines.diffuse_yields (c := c.at 5) hc h2 _ _ _).bind fun ⟨_, _⟩ h3 =>
        (Lines.push_yields (c := c.at 6) hc h3 _ _).bind fun _ h4 => h4

theorem tapSum_yields (h : ∀ l, (ls.get l).Ready p) (ratio : F) :
    ∀ (c : Ctx) (rows : List TapRow) (acc : F), YieldsOrEmodrange (fun _ => True) (tapSum c ratio ls rows acc)
  | _, [], _ => trivial
  | c, row :: rest, acc => by
    rw [tapSum, Line.tapAt_total (h row.line).wf (h row.line).set]
    exact tapSum_yields h ratio _ rest _

/-- On lines that have lengths a frame answers or raises EMODRANGE, and it pushes every line: where it answers, no line
is one on which the modulation step raises EMODRANGE (R164). -/
theorem frameOn_yields (hc : c.cfg = p) (h : ∀ l, (ls.get l).Ready p) (s : State) (left right : F) :
    YieldsOrEmodrange (fun _ => ∀ l, ¬ (ls.get l).modulationFaults p) (frameOn c s ls left right) := by
  have hset : ls.anyUnset = false := Lines.anyUnset_eq_false.2 fun l => (h l).set
  rw [frameOn, if_neg (by rw [hset]; exact Bool.false_ne_true)]
  exact (Lines.pass_yields (c := c.at 2) hc (.refl h) _ _).bind fun ⟨_, _⟩ h1 =>
    (inputDiffusion_yields (c := c.at 4) hc h1 _ _ _).bind fun ⟨_, _⟩ h2 =>
    (Lines.currentOutput_yields h2 _).bind fun ⟨_, _⟩ h3 =>
    (Lines.currentOutput_yields h3 _).bind fun ⟨_, _⟩ h4 =>
    (tankStep_yields (c := c.at 9) hc h4 _ _ _ _).bind fun ⟨_, _⟩ h5 =>
    (tankStep_yields (c := c.at 10) hc h5 _ _ _ _).bind fun ⟨_, _⟩ h6 =>
    (tapSum_yields h6.ready _ _ _ _).bind fun _ _ =>
    (tapSum_yields h6.ready _ _ _ _).bind fun _ _ l hl =>
      (h6.faults l hl).1 (by cases l <;> simp [tankA, tankB])

end

/-- A command that performs a frame takes the fault that the frame raises, whatever it makes of the outputs. -/
theorem State.gated_frameOn_raises {s : State} {ls : Lines} (h : s.running ls) {c : Ctx} {left right : F}
    {g : State × F × F → State × List Item} {cause : Cause}
    (hframe : frameOn c s ls left right = .error (.raise cause)) :
    s.gated true (fun ls => (frameOn c s ls left right).map g) = .next (s.takeFault cause) := by
  rw [State.gated_ready h.1 h.2, hframe]
  rfl

/-- Settles O60: a diffusion pushes its line and a frame every line, and neither push answers. -/
theorem outOfRangeModulationFaultsDiffusionAndFrames : Obligations.OutOfRangeModulationFaultsDiffusionAndFrames := by
  unfold Obligations.OutOfRangeModulationFaultsDiffusionAndFrames
  intro s ls h hs outOfRange faulted
  have hfaulted : s.takeFault .emodrange = faulted := State.takeFault_running h .emodrange
  have hfaults : ∀ {ln : Line}, outOfRange ln → ln.modulationFaults s.cfg := fun ⟨_, hon, hout⟩ =>
    Line.modulationFaults_of_offsets hon hout
  rw [← hfaulted]
  refine ⟨fun l x k hl => ?_, fun left right hset ⟨l, hl⟩ i hi => ?_⟩
  · have hready : (ls.get l).Ready s.cfg := ⟨State.running_wf h hs l, hl.1⟩
    exact exec_ldiff_raise h
      ((Line.diffuse_yields (c := s.ctx) rfl hready x k).raises fun _ hans => hans.2 (hfaults hl))
  · have hready : ∀ l, (ls.get l).Ready s.cfg := fun l => ⟨State.running_wf h hs l, hset l⟩
    have hframe : ∀ a b, frameOn (s.ctx.at 1) s ls a b = .error (.raise .emodrange) := fun a b =>
      (frameOn_yields (c := s.ctx.at 1) rfl hready s a b).raises fun _ hans => hans l (hfaults hl)
    simp only [List.mem_cons, List.not_mem_nil, or_false] at hi
    rcases hi with rfl | rfl | rfl <;> exact State.gated_frameOn_raises h (hframe _ _)

end Sys2Proof.Machine
end

section
/-! PROOFS. A diffusion that answers (41_diffusion.md R140, R142): the line is read, and the push into the line so read
answers because reading leaves the modulation in range. -/

namespace Sys2Proof.Machine

section
variable {c : Ctx} {p : Params} {ln : Line}

/-- A push of a line with a length whose modulation is in range answers (R103 to R105). -/
theorem Line.push_answers (hc : c.cfg = p) (h : ln.Ready p) (hrange : ln.modulationInRange p) (x : F) :
    ∃ ln', ln.push c x = .ok ln' :=
  Line.push_total h.wf h.set x <|
    Line.modulationInRange_congr (a := ln) (b := ln.stored x) rfl rfl rfl rfl hrange (c.at 1) hc

/-- A current output answers, and the line it leaves is ready with its modulation still in range (R106 to R109). -/
theorem Line.currentOutput_answers (h : ln.Ready p) (hrange : ln.modulationInRange p) :
    ∃ y read, ln.currentOutput c = .ok (y, read) ∧ read.Ready p ∧ read.modulationInRange p := by
  obtain ⟨⟨y, read⟩, hout⟩ : ∃ r, ln.currentOutput c = .ok r := ⟨_, Line.currentOutput_total h.wf h.set⟩
  have hwf := Line.currentOutput_wf h.wf hout
  obtain ⟨_, rfl⟩ := Line.currentOutput_line hout
  exact ⟨y, _, hout, ⟨hwf, h.set⟩, Line.modulationInRange_congr (a := ln) rfl rfl rfl rfl hrange⟩

/-- A diffusion answers when its current output and its push do (R140). -/
theorem Line.diffuse_of_steps {x k y : F} {read pushed : Line} (hout : ln.currentOutput (c.at 1) = .ok (y, read))
    (hpush : read.push (c.at 4) (Fp.sub (c.at 3) x (Fp.mul (c.at 2) y k)) = .ok pushed) :
    ln.diffuse c x k =
      .ok (Fp.add (c.at 6) y (Fp.mul (c.at 5) (Fp.sub (c.at 3) x (Fp.mul (c.at 2) y k)) k), pushed) := by
  rw [Line.diffuse, hout]
  show read.push (c.at 4) _ >>= _ = _
  rw [hpush]
  rfl

end

/-- LDIFF stores the line its diffusion leaves and answers the value (R142). -/
theorem exec_ldiff_ok {s : State} {ls : Lines} {l : LineName} (h : s.running ls) {x k y : F} {ln : Line}
    (hp : (ls.get l).diffuse s.ctx x k = .ok (y, ln)) :
    exec (.ldiff l x k) s = .next ((s.withLine ls l ln).respond s.status [y]) :=
  State.gated_onLine_completes h (by rw [hp]; rfl)

/-- Settles O42: both steps of the diffusion answer, the push on the line that the read leaves. -/
theorem ldiffReadsThenPushes : Obligations.LdiffReadsThenPushes := by
  unfold Obligations.LdiffReadsThenPushes
  intro s ls l x coefficient h hs hn hrange
  have hready : (ls.get l).Ready s.cfg := ⟨State.running_wf h hs l, hn⟩
  obtain ⟨y, read, hout, hread, hin⟩ := Line.currentOutput_answers (c := s.ctx.at 1) hready hrange
  obtain ⟨pushed, hpush⟩ := Line.push_answers (c := s.ctx.at 4) rfl hread hin
    (Fp.sub (s.ctx.at 3) x (Fp.mul (s.ctx.at 2) y coefficient))
  exact ⟨s.ctx.at 1, s.ctx.at 3, s.ctx.at 2, s.ctx.at 4, s.ctx.at 6, s.ctx.at 5, y, _, read, pushed,
    rfl, rfl, rfl, rfl, rfl, rfl, hout, rfl, hpush, exec_ldiff_ok h (Line.diffuse_of_steps hout hpush)⟩

end Sys2Proof.Machine
end

section
/-! PROOFS. The frame commands (42_network.md R150 to R164): a frame on lines that all have a length pushes each line once,
reads it besides, and answers when every modulation is in range. -/

namespace Sys2Proof.Machine

/-! ## Procedures that answer under a condition -/

/-- Each answer of the procedure meets `Q`, and under `P` it answers. -/
def AnswersIf {α : Type} (P : Prop) (Q : α → Prop) : Except Stop α → Prop
  | .ok a => Q a
  | .error _ => ¬ P

section
variable {α β : Type} {P P' : Prop} {Q : α → Prop} {R : β → Prop} {x : Except Stop α}

theorem AnswersIf.weaken (h : AnswersIf P Q x) (hP : P' → P) : AnswersIf P' Q x := by
  cases x with
  | ok a => exact h
  | error stop => exact h ∘ hP

theorem AnswersIf.bind {g : α → Except Stop β} (h : AnswersIf P Q x) (hg : ∀ a, Q a → AnswersIf P R (g a)) :
    AnswersIf P R (x >>= g) := by
  cases x with
  | ok a => exact hg a h
  | error stop => exact h

theorem AnswersIf.map {g : α → β} (h : AnswersIf P Q x) (hg : ∀ a, Q a → R (g a)) : AnswersIf P R (x.map g) := by
  cases x with
  | ok a => exact hg a h
  | error stop => exact h

theorem AnswersIf.answers (h : AnswersIf P Q x) (hP : P) : ∃ a, x = .ok a := by
  cases x with
  | ok a => exact ⟨a, rfl⟩
  | error stop => exact absurd hP h

end

/-! ## One line, read and pushed (40_delay_line.md R103 to R109) -/

/-- What reads leave of a line: APS alone may change, and only in mode 2 (R107 to R109). -/
def Line.AfterRead (a b : Line) : Prop := ∃ aps, b = { a with aps := aps } ∧ (a.mode ≠ .allpass → aps = a.aps)

/-- What one push, with reads before and after it, leaves of a line (R103 to R105; 10_state.md R30). -/
structure Line.AfterPush (a b : Line) : Prop where
  cursor : b.w = (a.w + 1) % a.n
  settings : b.sameSettings a
  slots : ∀ i, i ≠ a.w → Slots.read b.buf i = Slots.read a.buf i
  modulation : a.moden = false → b.phase = a.phase ∧ b.exc = a.exc ∧ b.frac = a.frac
  aps : a.mode ≠ .allpass → b.aps = a.aps

section
variable {c : Ctx} {p : Params} {a b d ln ln' : Line} {x y : F}

theorem Line.AfterRead.refl (a : Line) : a.AfterRead a := ⟨a.aps, rfl, fun _ => rfl⟩

theorem Line.AfterRead.trans (h : a.AfterRead b) (h' : b.AfterRead d) : a.AfterRead d := by
  obtain ⟨_, rfl, hb⟩ := h
  obtain ⟨aps, rfl, hd⟩ := h'
  exact ⟨aps, rfl, fun hmode => (hd hmode).trans (hb hmode)⟩

theorem Line.AfterRead.modulationInRange (h : a.AfterRead b) (hrange : a.modulationInRange p) :
    b.modulationInRange p := by
  obtain ⟨_, rfl, -⟩ := h
  exact Line.modulationInRange_congr (a := a) rfl rfl rfl rfl hrange

theorem Line.AfterRead.push (h : a.AfterRead b) (h' : b.AfterPush d) : a.AfterPush d := by
  obtain ⟨_, rfl, hb⟩ := h
  exact ⟨h'.cursor, h'.settings, h'.slots, h'.modulation, fun hmode => (h'.aps hmode).trans (hb hmode)⟩

theorem Line.AfterPush.read (h : a.AfterPush b) (h' : b.AfterRead d) : a.AfterPush d := by
  obtain ⟨_, rfl, hd⟩ := h'
  obtain ⟨-, -, -, -, -, hmode, -⟩ := h.settings
  exact ⟨h.cursor, h.settings, h.slots, h.modulation, fun ha => (hd (hmode ▸ ha)).trans (h.aps ha)⟩

/-- Out of mode 2 a current output leaves the line as it was (R107, R108). -/
theorem Line.currentOutput_pure (hmode : ln.mode ≠ .allpass) (h : ln.currentOutput c = .ok (y, ln')) : ln' = ln := by
  obtain ⟨-, -, -, heq⟩ := Line.currentOutput_ok h
  exact (congrArg Prod.snd heq).trans (Line.interpolate_pure hmode _ _)

theorem Line.currentOutput_afterRead (h : ln.currentOutput c = .ok (y, ln')) : ln.AfterRead ln' := by
  obtain ⟨aps, hline⟩ := Line.currentOutput_line h
  refine ⟨aps, hline, fun hmode => ?_⟩
  rw [← Line.currentOutput_pure hmode h, hline]

/-- With MODEN = 0 a push writes none of PHASE, EXC and FRAC: the modulation step does nothing (R104). -/
theorem Line.push_keeps_modulation (hoff : ln.moden = false) (h : ln.push c x = .ok ln') :
    ln'.phase = ln.phase ∧ ln'.exc = ln.exc ∧ ln'.frac = ln.frac := by
  obtain ⟨stored, modulated, hstore, hmod, hfeed⟩ := Line.push_steps h
  obtain ⟨-, -, rfl⟩ := Line.store_ok hstore
  obtain rfl := Except.ok.inj (hmod.symm.trans (Line.modulate_off (ln := ln.stored x) hoff))
  rcases Line.feedback_ok hfeed with rfl | ⟨_, _, -, rfl⟩ <;> exact ⟨rfl, rfl, rfl⟩

/-- Out of mode 2 the feedback step keeps APS: its current output leaves the line as it was (R105). -/
theorem Line.feedback_keeps_aps {j : Nat} (h : ln.feedback c j = .ok ln') (hw : ln.wf p = true) (hn : ln.n ≠ 0)
    (hj : j < ln.n) (hmode : ln.mode ≠ .allpass) : ln'.aps = ln.aps := by
  obtain ⟨final, hfinal, hcases⟩ := Line.feedback_answers (c := c) hw hn hj
  obtain rfl := Except.ok.inj (h.symm.trans hfinal)
  rcases hcases with ⟨-, rfl⟩ | ⟨-, _, read, hout, rfl⟩
  · rfl
  · rw [Line.currentOutput_pure hmode hout]

/-- Out of mode 2 a push keeps APS: of its steps only the feedback step reads the line (R105, R109). -/
theorem Line.push_keeps_aps (hw : ln.wf p = true) (hmode : ln.mode ≠ .allpass) (h : ln.push c x = .ok ln') :
    ln'.aps = ln.aps := by
  obtain ⟨stored, modulated, hstore, hmod, hfeed⟩ := Line.push_steps h
  have hwf := Line.modulate_wf (Line.store_wf hw hstore) hmod
  obtain ⟨hn, -, rfl⟩ := Line.store_ok hstore
  have hslot : ln.w < ln.n := Line.w_lt hw hn
  obtain ⟨_, _, _, rfl, -⟩ := Line.modulate_ok hmod
  exact (Line.feedback_keeps_aps hfeed hwf hn hslot hmode :)

theorem Line.push_afterPush (hw : ln.wf p = true) (h : ln.push c x = .ok ln') : ln.AfterPush ln' := by
  have hslots : ∀ i, i ≠ ln.w → Slots.read ln'.buf i = Slots.read ln.buf i := fun _ =>
    Line.push_read_other (Line.wf_buf hw) h
  have hmod : ln.moden = false → _ := fun hoff => Line.push_keeps_modulation hoff h
  have haps : ln.mode ≠ .allpass → _ := fun hmode => Line.push_keeps_aps hw hmode h
  obtain ⟨-, -, _, _, _, _, _, rfl, -⟩ := Line.push_ok h
  exact ⟨rfl, ⟨rfl, rfl, rfl, rfl, rfl, rfl, rfl, rfl, rfl⟩, hslots, hmod, haps⟩

/-- A ready line can be read, and is ready again. -/
theorem Line.currentOutput_answersIf (P : Prop) (h : ln.Ready p) :
    AnswersIf P (fun r => r.2.Ready p ∧ ln.AfterRead r.2) (ln.currentOutput c) := by
  obtain ⟨r, hout⟩ : ∃ r, ln.currentOutput c = .ok r := ⟨_, Line.currentOutput_total h.wf h.set⟩
  obtain ⟨_, hline⟩ := Line.currentOutput_line hout
  rw [hout]
  exact ⟨⟨Line.currentOutput_wf h.wf hout, by rw [hline]; exact h.set⟩, Line.currentOutput_afterRead hout⟩

theorem Line.push_answersIf (hc : c.cfg = p) (h : ln.Ready p) (x : F) :
    AnswersIf (ln.modulationInRange p) (fun ln' => ln'.Ready p ∧ ln.AfterPush ln') (ln.push c x) := by
  cases hpush : ln.push c x with
  | error stop =>
    intro hrange
    obtain ⟨_, hans⟩ := Line.push_answers hc h hrange x
    rw [hpush] at hans
    cases hans
  | ok ln' =>
    have hafter := Line.push_afterPush h.wf hpush
    obtain ⟨-, hn, -⟩ := hafter.settings
    exact ⟨⟨Line.push_wf h.wf hpush, hn ▸ h.set⟩, hafter⟩

theorem Line.diffuse_answersIf (hc : c.cfg = p) (h : ln.Ready p) (x k : F) :
    AnswersIf (ln.modulationInRange p) (fun r => r.2.Ready p ∧ ln.AfterPush r.2) (ln.diffuse c x k) :=
  (Line.currentOutput_answersIf _ h).bind fun ⟨_, _⟩ hread =>
    ((Line.push_answersIf (c := c.at 4) hc hread.1 _).weaken hread.2.modulationInRange).bind fun _ hpush =>
      show AnswersIf _ _ (.ok _) from ⟨hpush.1, hread.2.push hpush.2⟩

end

/-! ## The thirteen lines -/

/-- From `ls`, steps that pushed each of the lines `pushed` once, and only read the others, led to `ls'`, on which every
line is ready. -/
structure Lines.Pushed (p : Params) (ls : Lines) (pushed : List LineName) (ls' : Lines) : Prop where
  ready : ∀ l, (ls'.get l).Ready p
  read : ∀ l, l ∉ pushed → (ls.get l).AfterRead (ls'.get l)
  push : ∀ l, l ∈ pushed → (ls.get l).AfterPush (ls'.get l)

/-- Every modulation offset that a line of the network can now have is in the range of EXC. -/
def Lines.modulationInRange (p : Params) (ls : Lines) : Prop := ∀ l, (ls.get l).modulationInRange p

section
variable {c : Ctx} {p : Params} {ls ls' : Lines} {pushed : List LineName} {l : LineName} {ln : Line}

theorem Lines.Pushed.refl (h : ∀ l, (ls.get l).Ready p) : ls.Pushed p [] ls :=
  ⟨h, fun l _ => .refl (ls.get l), by simp⟩

/-- A line may be read once more. -/
theorem Lines.Pushed.setRead (h : ls.Pushed p pushed ls') (hready : ln.Ready p) (hread : (ls'.get l).AfterRead ln) :
    ls.Pushed p pushed (ls'.set l ln) := by
  refine ⟨fun l' => ?_, fun l' hl' => ?_, fun l' hl' => ?_⟩ <;> rw [Lines.get_set] <;> split
  · exact hready
  · exact h.ready l'
  · subst l'; exact (h.read l hl').trans hread
  · exact h.read l' hl'
  · subst l'; exact (h.push l hl').read hread
  · exact h.push l' hl'

/-- A line that was not pushed may be pushed. -/
theorem Lines.Pushed.setPush (h : ls.Pushed p pushed ls') (hl : l ∉ pushed) (hready : ln.Ready p)
    (hpush : (ls'.get l).AfterPush ln) : ls.Pushed p (l :: pushed) (ls'.set l ln) := by
  refine ⟨fun l' => ?_, fun l' hl' => ?_, fun l' hl' => ?_⟩ <;> rw [Lines.get_set] <;> split
  · exact hready
  · exact h.ready l'
  · subst l'; exact absurd List.mem_cons_self hl'
  · exact h.read l' (hl' ∘ List.mem_cons_of_mem l)
  · subst l'; exact (h.read l hl).push hpush
  next hne => exact h.push l' ((List.mem_cons.1 hl').resolve_left hne)

theorem Lines.Pushed.modulationInRange (h : ls.Pushed p pushed ls') (hl : l ∉ pushed)
    (hrange : ls.modulationInRange p) : (ls'.get l).modulationInRange p := (h.read l hl).modulationInRange (hrange l)

theorem Lines.currentOutput_answersIf (P : Prop) (h : ls.Pushed p pushed ls') (l : LineName) :
    AnswersIf P (fun r => ls.Pushed p pushed r.2) (ls'.currentOutput c l) :=
  (Line.currentOutput_answersIf P (h.ready l)).map fun _ hread => h.setRead hread.1 hread.2

theorem Lines.push_answersIf (hc : c.cfg = p) (h : ls.Pushed p pushed ls') (hl : l ∉ pushed) (x : F) :
    AnswersIf (ls.modulationInRange p) (ls.Pushed p (l :: pushed)) (ls'.push c l x) :=
  ((Line.push_answersIf hc (h.ready l) x).weaken (h.modulationInRange hl)).map fun _ hpush =>
    h.setPush hl hpush.1 hpush.2

theorem Lines.diffuse_answersIf (hc : c.cfg = p) (h : ls.Pushed p pushed ls') (hl : l ∉ pushed) (x k : F) :
    AnswersIf (ls.modulationInRange p) (fun r => ls.Pushed p (l :: pushed) r.2) (ls'.diffuse c l x k) :=
  ((Line.diffuse_answersIf hc (h.ready l) x k).weaken (h.modulationInRange hl)).map fun _ hdiff =>
    h.setPush hl hdiff.1 hdiff.2

theorem Lines.pass_answersIf (hc : c.cfg = p) (h : ls.Pushed p pushed ls') (hl : l ∉ pushed) (x : F) :
    AnswersIf (ls.modulationInRange p) (fun r => ls.Pushed p (l :: pushed) r.2) (ls'.pass c l x) :=
  (Lines.push_answersIf (c := c.at 1) hc h hl x).bind fun _ hpush => Lines.currentOutput_answersIf _ hpush l

/-! ## The steps of Frame (42_network.md R150 to R160)

Each step names the lines it pushes; that no line occurs twice in the list is what lets the next push answer. -/

theorem inputDiffusion_answersIf (hc : c.cfg = p) (h : ls.Pushed p pushed ls')
    (hnew : (LineName.in3 :: .in2 :: .in1 :: .in0 :: pushed).Nodup) (id1 id2 x : F) :
    AnswersIf (ls.modulationInRange p) (fun r => ls.Pushed p (.in3 :: .in2 :: .in1 :: .in0 :: pushed) r.2)
      (inputDiffusion c id1 id2 ls' x) := by
  simp only [List.nodup_cons] at hnew
  obtain ⟨n3, n2, n1, n0, -⟩ := hnew
  exact (Lines.diffuse_answersIf (c := c.at 1) hc h n0 _ _).bind fun ⟨_, _⟩ h0 =>
    (Lines.diffuse_answersIf (c := c.at 2) hc h0 n1 _ _).bind fun ⟨_, _⟩ h1 =>
      (Lines.diffuse_answersIf (c := c.at 3) hc h1 n2 _ _).bind fun ⟨_, _⟩ h2 =>
        Lines.diffuse_answersIf (c := c.at 4) hc h2 n3 _ _

theorem tankStep_answersIf (hc : c.cfg = p) (h : ls.Pushed p pushed ls') (t : Tank)
    (hnew : (t.recirculation :: t.second :: t.damped :: t.diffuser :: pushed).Nodup) (s : State) (seed lp : F) :
    AnswersIf (ls.modulationInRange p)
      (fun r => ls.Pushed p (t.recirculation :: t.second :: t.damped :: t.diffuser :: pushed) r.2)
      (tankStep c t s ls' seed lp) := by
  simp only [List.nodup_cons] at hnew
  obtain ⟨n3, n2, n1, n0, -⟩ := hnew
  exact (Lines.diffuse_answersIf (c := c.at 1) hc h n0 _ _).bind fun ⟨_, _⟩ h0 =>
    (Lines.pass_answersIf (c := c.at 2) hc h0 n1 _).bind fun ⟨_, _⟩ h1 =>
      (Lines.diffuse_answersIf (c := c.at 5) hc h1 n2 _ _).bind fun ⟨_, _⟩ h2 =>
        (Lines.push_answersIf (c := c.at 6) hc h2 n3 _).bind fun _ h3 => h3

theorem tapOffset_fixed (hscale : c.cfg.tapScale = .fixed) (ratio : F) (k : Nat) : tapOffset c ratio k = k := by
  simp [tapOffset, hscale]

theorem tapOffset_scaled (hscale : c.cfg.tapScale = .scaled) {ratio : F} {k : Nat} {z : Int}
    (hz : Fp.floor? c.fmt (Fp.mul (c.at 1) (Fp.ofInt c.fmt k) ratio) = some z) : tapOffset c ratio k = z := by
  simp [tapOffset, hscale, hz]

/-- The tap sum of a row is the sum of the rest from the accumulator with its term (R159). -/
theorem tapSum_cons (h : ∀ l, (ls.get l).Ready p) (ratio : F) (row : TapRow) (rest : List TapRow) (acc : F) :
    let term := Fp.mul (c.at 2) (Fp.lit c.fmt 6 10) ((ls.get row.line).tap (tapOffset (c.at 1) ratio row.offset))
    tapSum c ratio ls (row :: rest) acc =
      tapSum (c.at 4) ratio ls rest (if row.negative then Fp.sub (c.at 3) acc term else Fp.add (c.at 3) acc term) := by
  rw [tapSum, Line.tapAt_total (h row.line).wf (h row.line).set]
  rfl

/-- On lines that have lengths a tap sum answers. -/
theorem tapSum_answersIf (P : Prop) (h : ∀ l, (ls.get l).Ready p) (ratio : F) :
    ∀ (c : Ctx) (rows : List TapRow) (acc : F), AnswersIf P (fun _ => True) (tapSum c ratio ls rows acc)
  | _, [], _ => trivial
  | c, row :: rest, acc => by
    rw [tapSum_cons h]
    exact tapSum_answersIf P h ratio _ rest _

/-- On lines that have lengths a frame pushes every line once and writes LPBW, LPA and LPB besides; it answers when every
modulation is in range (R160). -/
theorem frameOn_answersIf (hc : c.cfg = p) (h : ∀ l, (ls.get l).Ready p) (s : State) (left right : F) :
    AnswersIf (ls.modulationInRange p)
      (fun r => ∃ lpbw lpa lpb ls', r.1 = { s with lpbw := lpbw, lpa := lpa, lpb := lpb, lines := some ls' } ∧
        ∀ l, (ls.get l).AfterPush (ls'.get l)) (frameOn c s ls left right) := by
  have hset : ls.anyUnset = false := Lines.anyUnset_eq_false.2 fun l => (h l).set
  rw [frameOn, if_neg (by rw [hset]; exact Bool.false_ne_true)]
  exact (Lines.pass_answersIf (c := c.at 2) (l := .pre) hc (.refl h) List.not_mem_nil _).bind fun ⟨_, _⟩ h1 =>
    (inputDiffusion_answersIf (c := c.at 4) hc h1 (by decide) _ _ _).bind fun ⟨_, _⟩ h2 =>
    (Lines.currentOutput_answersIf _ h2 .rcb).bind fun ⟨_, _⟩ h3 =>
    (Lines.currentOutput_answersIf _ h3 .rca).bind fun ⟨_, _⟩ h4 =>
    (tankStep_answersIf (c := c.at 9) hc h4 tankA (by decide) _ _ _).bind fun ⟨_, _⟩ h5 =>
    (tankStep_answersIf (c := c.at 10) hc h5 tankB (by decide) _ _ _).bind fun ⟨_, _⟩ h6 =>
    (tapSum_answersIf _ h6.ready _ _ _ _).bind fun _ _ =>
    (tapSum_answersIf _ h6.ready _ _ _ _).bind fun _ _ =>
      ⟨_, _, _, _, rfl, fun l => h6.push l (by cases l <;> decide)⟩

/-- A frame that answers leaves FAULT as it was. -/
theorem frameOn_fault {s t : State} {left right wl wr : F}
    (hframe : frameOn c s ls left right = .ok (t, wl, wr)) : t.fault = s.fault := by
  obtain ⟨-, _, _, _, _, _, _, _, _, _, _, _, _, -, -, -, -, -, -, -, -, rfl⟩ := frameOn_ok hframe
  rfl

theorem frameOn_unset (h : ∃ l, (ls.get l).n = 0) (s : State) (left right : F) :
    frameOn c s ls left right = .error (.raise .elineunset) := by
  obtain ⟨l, hl⟩ := h
  have hunset : ls.anyUnset = true := by
    rw [← Bool.not_eq_false, Lines.anyUnset_eq_false]
    exact fun hset => hset l hl
  rw [frameOn, if_pos hunset]

end

/-! ## The commands that perform a frame (42_network.md R163, R164, 44_buffer_mix.md R200, R201) -/

section
variable {s t : State} {ls : Lines} {c : Ctx} {left right : F}

theorem State.running_ready (h : s.running ls) (hs : s.inv = true) (hset : ∀ l, (ls.get l).n ≠ 0) (l : LineName) :
    (ls.get l).Ready s.cfg := ⟨State.running_wf h hs l, hset l⟩

/-- The command ends with what its frame leaves, or takes the fault that its frame raises. -/
theorem State.gated_frameOn_next (h : s.running ls) {g : State × F × F → List Item}
    (ht : s.gated true (fun ls => (frameOn c s ls left right).map fun r => (r.1, g r)) = .next t) :
    (∃ r, frameOn c s ls left right = .ok r ∧ t = r.1.respond r.1.status (g r)) ∨
      ∃ cause, frameOn c s ls left right = .error (.raise cause) ∧ t = s.takeFault cause := by
  rw [State.gated_ready h.1 h.2] at ht
  rcases State.finish_next ht with ⟨_, _, hbody, rfl⟩ | ⟨cause, hbody, rfl⟩
  · obtain ⟨r, hframe, heq⟩ := map_ok hbody
    cases heq
    exact .inl ⟨r, hframe, rfl⟩
  · exact .inr ⟨cause, map_error hbody, rfl⟩

/-- A frame that sets no fault writes LPBW, LPA and LPB and pushes every line once (R160). -/
theorem State.gated_frameOn_pushes (h : s.running ls) (hs : s.inv = true) (hc : c.cfg = s.cfg)
    {g : State × F × F → List Item}
    (ht : s.gated true (fun ls => (frameOn c s ls left right).map fun r => (r.1, g r)) = .next t)
    (hf : t.fault = none) :
    ∃ lpbw lpa lpb ls', State.SameNetwork { s with lpbw := lpbw, lpa := lpa, lpb := lpb, lines := some ls' } t ∧
      ∀ l, (ls.get l).AfterPush (ls'.get l) := by
  rcases State.gated_frameOn_next h ht with ⟨⟨u, wl, wr⟩, hframe, rfl⟩ | ⟨cause, -, rfl⟩
  · obtain ⟨hset, -⟩ := frameOn_ok hframe
    have hready := State.running_ready h hs (Lines.anyUnset_eq_false.1 hset)
    have hans := frameOn_answersIf hc hready s left right
    rw [hframe] at hans
    obtain ⟨lpbw, lpa, lpb, ls', rfl, hpush⟩ := hans
    exact ⟨lpbw, lpa, lpb, ls', State.sameNetwork_respond _ _ _, hpush⟩
  · rw [State.takeFault_running h] at hf
    cases hf

/-- FRAME answers the two wet outputs of its frame (R163). -/
theorem exec_frame_ok (h : s.running ls) {wl wr : F}
    (hframe : frameOn (s.ctx.at 1) s ls left right = .ok (t, wl, wr)) :
    exec (.frame left right) s = .next (t.respond t.status [wl, wr]) :=
  (State.gated_ready h.1 h.2 _).trans (by rw [hframe]; rfl)

end

/-- Settles O45: the check of the lengths comes before every step. -/
theorem frameNeedsEveryLength : Obligations.FrameNeedsEveryLength := by
  unfold Obligations.FrameNeedsEveryLength
  intro s ls left right h hunset i hi
  suffices hfault : exec i s = .next (s.takeFault .elineunset) by
    rw [hfault, State.takeFault_running h]
    rfl
  simp only [List.mem_cons, List.not_mem_nil, or_false] at hi
  rcases hi with rfl | rfl | rfl <;> exact State.gated_frameOn_raises h (frameOn_unset hunset s _ _)

/-- Settles O46: the frame answers because every modulation is in range, and its answer takes apart into the steps. -/
theorem framePerformsItsStepsInOrder : Obligations.FramePerformsItsStepsInOrder := by
  unfold Obligations.FramePerformsItsStepsInOrder
  intro s ls left right h hs hset hrange fmt one any push read diffuse damped seeded scaled sums
  obtain ⟨⟨t, wl, wr⟩, hframe⟩ :=
    (frameOn_answersIf (c := s.ctx.at 1) rfl (State.running_ready h hs hset) s left right).answers hrange
  have hexec := exec_frame_ok h hframe
  obtain ⟨-, u, l2, x5, l6, o9, l7, o8, l8, lpa, m4, lpb, n5, hpre, hdiffusion, hrcbRead, hrcaRead, htankA, htankB, hleft,
    hright, rfl⟩ := frameOn_ok hframe
  obtain ⟨l1, hpush, hread⟩ := Lines.pass_ok hpre
  obtain ⟨x2, l3, x3, l4, x4, l5, hin0, hin1, hin2, hin3⟩ := inputDiffusion_ok hdiffusion
  obtain ⟨a, l9, b, m2, d, m3, hmoda, hdla, rfl, hdifa, hrcaPush⟩ := tankStep_ok htankA
  obtain ⟨m1, hdlaPush, hdlaRead⟩ := Lines.pass_ok hdla
  obtain ⟨a', n1, b', n3, d', n4, hmodb, hdlb, rfl, hdifb, hrcbPush⟩ := tankStep_ok htankB
  obtain ⟨n2, hdlbPush, hdlbRead⟩ := Lines.pass_ok hdlb
  refine ⟨_, u, _, x2, x3, x4, x5, o9, _, o8, _, a, b, _, _, d, a', b', _, _, d', wl, wr,
    l1, l2, l3, l4, l5, l6, l7, l8, l9, m1, m2, m3, m4, n1, n2, n3, n4, n5,
    ⟨_, _, rfl, rfl, rfl⟩, ⟨_, rfl, hpush⟩, ⟨_, rfl, hread⟩, ⟨_, _, _, _, rfl, rfl, rfl, rfl, rfl⟩,
    ⟨_, rfl, hin0⟩, ⟨_, rfl, hin1⟩, ⟨_, rfl, hin2⟩, ⟨_, rfl, hin3⟩,
    ⟨_, rfl, hrcbRead⟩, ⟨_, _, rfl, rfl, rfl⟩, ⟨_, rfl, hrcaRead⟩, ⟨_, _, rfl, rfl, rfl⟩,
    -- tank A
    ⟨_, rfl, hmoda⟩, ⟨_, rfl, hdlaPush⟩, ⟨_, rfl, hdlaRead⟩, ⟨_, _, _, _, rfl, rfl, rfl, rfl, rfl⟩, ⟨_, rfl, rfl⟩,
    ⟨_, rfl, hdifa⟩, ⟨_, rfl, hrcaPush⟩,
    -- tank B
    ⟨_, rfl, hmodb⟩, ⟨_, rfl, hdlbPush⟩, ⟨_, rfl, hdlbRead⟩, ⟨_, _, _, _, rfl, rfl, rfl, rfl, rfl⟩, ⟨_, rfl, rfl⟩,
    ⟨_, rfl, hdifb⟩, ⟨_, rfl, hrcbPush⟩,
    ⟨_, rfl, hleft⟩, ⟨_, rfl, hright⟩, ?_⟩
  have hstatus : s.status = statusOf true s.fault := by rw [State.status, h.2]; rfl
  rw [hexec, hstatus]
  rfl

/-- Settles O47: the tap of a row answers because its line has a length, and the offset is read off by TAP_SCALE. -/
theorem tapSumAddsWeightedTapsInOrder : Obligations.TapSumAddsWeightedTapsInOrder := by
  unfold Obligations.TapSumAddsWeightedTapsInOrder
  intro c ratio acc ls hw hset fmt isOffset
  have hready : ∀ l, (ls.get l).Ready c.cfg := fun l => ⟨Lines.wf_iff.1 hw l, hset l⟩
  refine ⟨rfl, fun row rest => ⟨c.at 3, c.at 2, c.at 4, tapOffset (c.at 1) ratio row.offset, rfl, rfl, rfl, ?_,
    tapSum_cons hready ratio row rest acc⟩⟩
  show isOffset _ _
  dsimp only [isOffset]
  split
  next hfixed => exact tapOffset_fixed (c := c.at 1) hfixed ratio row.offset
  next hscaled => exact ⟨(c.at 1).at 1, rfl, fun _ hz => tapOffset_scaled (c := c.at 1) hscaled hz⟩

/-- Settles O48: the frame pushed every line once, and the state it leaves is written out in its registers. -/
theorem framePushesEveryLineOnce : Obligations.FramePushesEveryLineOnce := by
  unfold Obligations.FramePushesEveryLineOnce
  intro s t ls left right h hs i hi ht hf
  obtain ⟨_, _, _, ls', ⟨_, _, _, _, _, rfl⟩, hpush⟩ : ∃ lpbw lpa lpb ls',
      State.SameNetwork { s with lpbw := lpbw, lpa := lpa, lpb := lpb, lines := some ls' } t ∧
        ∀ l, (ls.get l).AfterPush (ls'.get l) := by
    simp only [List.mem_cons, List.not_mem_nil, or_false] at hi
    rcases hi with rfl | rfl | rfl <;> exact State.gated_frameOn_pushes (c := s.ctx.at 1) h hs rfl ht hf
  exact ⟨ls', rfl, fun l => ⟨(hpush l).cursor, (hpush l).settings, (hpush l).slots, (hpush l).modulation, (hpush l).aps⟩,
    rfl, rfl, rfl, rfl, rfl, rfl, rfl, rfl, rfl, rfl, rfl⟩

/-- Settles O50: a frame that answers sets no fault, and one that does not raises EMODRANGE from the state before it. -/
theorem frameFaultUndoesEveryStep : Obligations.FrameFaultUndoesEveryStep := by
  unfold Obligations.FrameFaultUndoesEveryStep
  intro s t ls left right h hs hset ht hf
  rcases State.gated_frameOn_next (c := s.ctx.at 1) h ht with ⟨r, hframe, rfl⟩ | ⟨cause, hframe, rfl⟩
  · exact absurd ((frameOn_fault hframe).trans h.1) hf
  · have hyields := frameOn_yields (c := s.ctx.at 1) rfl (State.running_ready h hs hset) s left right
    rw [hframe] at hyields
    cases hyields
    rw [State.takeFault_running h]
    rfl

end Sys2Proof.Machine
end

section
/-! PROOFS. The parameters from a running state (43_parameters.md R180 to R193): when SetLength answers and when it
raises ECAP, the twelve scaled lengths of SIZE one after another, and what SETP leaves. -/

namespace Sys2Proof.Machine

/-! ## SETP from a running state (43_parameters.md R193) -/

section
variable {s t : State} {ls ls' : Lines} {apply : State → Except Stop State}

/-- The status word of a running state has INITD alone (10_state.md R22). -/
theorem State.running_status (h : s.running ls) : s.status = statusOf true none := by
  rw [State.status, h.1, h.2, Option.isSome_some]

/-- SETP completes with the state its procedure leaves, which is still running. -/
theorem State.setp_completes (h : s.running ls) (ht : t.running ls') (happly : apply s = .ok t) :
    s.setp apply = .next (t.respond s.status []) := by
  have hstatus : s.status = t.status := (State.running_status h).trans (State.running_status ht).symm
  rw [State.setp, State.gated_ready h.1 h.2, happly, hstatus]
  rfl

/-- SETP takes the fault that its procedure raises. -/
theorem State.setp_raises (h : s.running ls) {cause : Cause} (happly : apply s = .error (.raise cause)) :
    s.setp apply = .next (s.takeFault cause) := by
  rw [State.setp, State.gated_ready h.1 h.2, happly]
  rfl

end

/-! ## Lengths that fit and lengths that do not (40_delay_line.md R101, 43_parameters.md R190) -/

section
variable {c : Ctx} {ln : Line} {len : F}

/-- A length is too long when it is +infinity, or above 2 and in need of more than MAXCAP slots. -/
theorem tooLong_iff : tooLong c len = true ↔
    Fp.unpack c.fmt len = .inf false ∨ ∃ m, Fp.unpack c.fmt len = .fin false m ∧ 2 * Fp.one c.fmt < m ∧
      c.cfg.maxcap < 2 * ((m + Fp.one c.fmt - 1) / Fp.one c.fmt) + 1 := by
  rw [tooLong, Bool.and_eq_true, lengthGuard_iff]
  constructor
  · rintro ⟨hinf | ⟨m, hfin, hm⟩, hneed⟩
    · exact .inl hinf
    · exact .inr ⟨m, hfin, hm, by simpa [slotsNeeded_fin hfin] using hneed⟩
  · rintro (hinf | ⟨m, hfin, hm, hneed⟩)
    · exact ⟨.inl hinf, by simp [slotsNeeded, Fp.ceil?, hinf]⟩
    · exact ⟨.inr ⟨m, hfin, hm⟩, by simpa [slotsNeeded_fin hfin] using hneed⟩

/-- SetLength of a length that is too long raises ECAP on a line whose CAP is at most MAXCAP. -/
theorem Line.setLength_tooLong (hcap : ln.cap ≤ c.cfg.maxcap) (h : tooLong c len = true) :
    ln.setLength c len = .error (.raise .ecap) := by
  rcases tooLong_iff.1 h with hinf | ⟨m, hfin, hm, hneed⟩
  · exact Line.setLength_inf hinf
  · rw [Line.setLength_fin hfin hm]
    exact if_pos ⟨hcap.trans_lt hneed, hneed⟩

/-- SetLength of a length that is not too long answers, on any line. -/
theorem Line.setLength_answers (ln : Line) (h : tooLong c len = false) : ∃ ln', ln.setLength c len = .ok ln' := by
  cases hguard : lengthGuard c.fmt len with
  | false => exact ⟨ln, Line.setLength_guard hguard⟩
  | true =>
    rw [Bool.eq_false_iff, Ne, tooLong_iff] at h
    rcases (lengthGuard_iff _ _).1 hguard with hinf | ⟨m, hfin, hm⟩
    · exact absurd (.inl hinf) h
    · refine ⟨_, (Line.setLength_fin hfin hm).trans (if_neg fun hneed => h ?_)⟩
      exact .inr ⟨m, hfin, hm, hneed.2⟩

end

/-! ## The procedures that act on lines (43_parameters.md R181, R189, R190) -/

section
variable {c : Ctx} {s : State} {ls : Lines} {v ratio : F}

/-- A parameter that acts on the lines completes with the lines its procedure leaves. -/
theorem State.onLines_completes (h : s.running ls) {body : Lines → Except Stop Lines} {ls' : Lines}
    (hbody : body ls = .ok ls') : s.onLines body = .ok { s with lines := some ls' } := by
  rw [State.onLines_some h.2, hbody]
  rfl

theorem applyPredelay_completes (h : s.running ls) {ln : Line}
    (hset : ls.pre.setLength (c.at 2) (Fp.mul (c.at 1) v s.srF) = .ok ln) :
    applyPredelay c v s = .ok { s with lines := some { ls with pre := ln } } :=
  State.onLines_completes h (congrArg (Except.map fun ln => ls.set .pre ln) hset)

theorem applyPredelay_raises (h : s.running ls) {cause : Cause}
    (hset : ls.pre.setLength (c.at 2) (Fp.mul (c.at 1) v s.srF) = .error (.raise cause)) :
    applyPredelay c v s = .error (.raise cause) := by
  have hbody : ls.setLength (c.at 2) .pre (Fp.mul (c.at 1) v s.srF) = .error (.raise cause) :=
    congrArg (Except.map fun ln => ls.set .pre ln) hset
  rw [applyPredelay, State.onLines_some h.2, hbody]
  rfl

/-- Distinct lines whose scaled lengths fit: each takes its length, from the line as it was before all of them, and
every other line stays. -/
theorem Lines.setLengths_answers : ∀ {table : List (LineName × Nat)} (ls : Lines), (table.map Prod.fst).Nodup →
    (∀ e ∈ table, tooLong c (scaledLength c ratio e.1 e.2) = false) →
    ∃ ls', Lines.setLengths c ratio table ls = .ok ls' ∧ (∀ l, l ∉ table.map Prod.fst → ls'.get l = ls.get l) ∧
      ∀ e ∈ table,
        (ls.get e.1).setLength ((c.at 14).at (e.1.number + 1)) (scaledLength c ratio e.1 e.2) = .ok (ls'.get e.1)
  | [], ls, _, _ => ⟨ls, rfl, fun _ _ => rfl, by simp⟩
  | (l, canon) :: rest, ls, hnodup, hfits => by
    obtain ⟨hl, hrest⟩ : l ∉ rest.map Prod.fst ∧ (rest.map Prod.fst).Nodup := List.nodup_cons.1 hnodup
    obtain ⟨hfit, hfitsRest⟩ := List.forall_mem_cons.1 hfits
    obtain ⟨ln, hln⟩ := (ls.get l).setLength_answers (c := (c.at 14).at (l.number + 1)) hfit
    obtain ⟨ls', hset, hother, hlisted⟩ := Lines.setLengths_answers (ls.set l ln) hrest hfitsRest
    have hfirst : ls.setLength ((c.at 14).at (l.number + 1)) l (scaledLength c ratio l canon) = .ok (ls.set l ln) :=
      congrArg (Except.map fun ln => ls.set l ln) hln
    refine ⟨ls', by rw [Lines.setLengths, hfirst]; exact hset, fun l' hl' => ?_, List.forall_mem_cons.2 ⟨?_, ?_⟩⟩
    · obtain ⟨hne, hmem⟩ := not_or.1 (List.mem_cons.not.1 hl')
      rw [hother l' hmem, Lines.get_set_other ls hne]
    · rw [hother l hl, Lines.get_set_same]
      exact hln
    · intro e he
      have hne : e.1 ≠ l := fun heq => hl (heq ▸ List.mem_map_of_mem he)
      rw [← hlisted e he, Lines.get_set_other ls hne]

theorem canonicalLengths_nodup : (canonicalLengths.map Prod.fst).Nodup := by decide

theorem pre_not_mem_canonicalLengths : LineName.pre ∉ canonicalLengths.map Prod.fst := by decide

/-- RATIO is written under TAP_SCALE = scaled only (42_network.md R162). -/
theorem State.keepRatio_eq_ite (s : State) (ratio : F) :
    s.keepRatio ratio = { s with ratio := if s.cfg.tapScale = .scaled then ratio else s.ratio } := by
  unfold State.keepRatio
  cases hscale : s.cfg.tapScale <;> rfl

/-- SIZE raises ECAP when some scaled length is too long, before it sets any line (R190). -/
theorem applySize_raises
    (h : ∃ e ∈ canonicalLengths, tooLong c (scaledLength (c.at 2) (sizeRatio (c.at 1) v s) e.1 e.2) = true) :
    applySize c v s = .error (.raise .ecap) :=
  if_pos (List.any_eq_true.2 h)

/-- SIZE with lengths that all fit completes with the lines they leave, and keeps the ratio (R190, R162). -/
theorem applySize_completes (h : s.running ls) {ls' : Lines}
    (hfits : ∀ e ∈ canonicalLengths, tooLong c (scaledLength (c.at 2) (sizeRatio (c.at 1) v s) e.1 e.2) = false)
    (hset : Lines.setLengths (c.at 2) (sizeRatio (c.at 1) v s) canonicalLengths ls = .ok ls') :
    applySize c v s = .ok (({ s with lines := some ls' } : State).keepRatio (sizeRatio (c.at 1) v s)) := by
  have hany : ¬ (canonicalLengths.any fun e =>
      tooLong c (scaledLength (c.at 2) (sizeRatio (c.at 1) v s) e.1 e.2)) = true := by
    rw [List.any_eq_true]
    rintro ⟨e, he, hlong⟩
    exact absurd (hfits e he) (by simp [hlong])
  rw [applySize, if_neg hany, State.onLines_completes h hset]
  rfl

end

/-! ## The obligations -/

/-- Settles O30: SetLength of a length that does not fit raises ECAP because CAP is at most MAXCAP, and SetLength of any
other answers. -/
theorem setpPredelaySetsTheLine : Obligations.SetpPredelaySetsTheLine := by
  unfold Obligations.SetpPredelaySetsTheLine
  intro s ls v h hs product
  refine ⟨fun hfits => ?_, fun hlong => State.setp_raises h (applyPredelay_raises h ?_)⟩
  · obtain ⟨ln, hset⟩ := ls.pre.setLength_answers (c := s.ctx.at 2) (hfits (s.ctx.at 1) rfl)
    exact ⟨s.ctx.at 1, s.ctx.at 2, ln, rfl, rfl, hset,
      State.setp_completes h (ls' := { ls with pre := ln }) ⟨h.1, rfl⟩ (applyPredelay_completes h hset)⟩
  · obtain ⟨-, -, hcap, -⟩ := Line.wf_iff.1 (State.running_wf h hs .pre)
    exact Line.setLength_tooLong hcap (hlong (s.ctx.at 1) rfl)

/-- Settles O31: every length fits, so the check passes and the twelve distinct lines take their lengths in turn. -/
theorem setpSizeScalesTheTwelveLines : Obligations.SetpSizeScalesTheTwelveLines := by
  unfold Obligations.SetpSizeScalesTheTwelveLines
  intro s ls v h fmt isRatio hfits
  let ratio := sizeRatio (s.ctx.at 1) v s
  have hratio : isRatio ratio := ⟨(s.ctx.at 1).at 2, (s.ctx.at 1).at 1, rfl, rfl, rfl⟩
  have hfit : ∀ e ∈ canonicalLengths, tooLong s.ctx (scaledLength (s.ctx.at 2) ratio e.1 e.2) = false := fun e he =>
    hfits ratio hratio ((s.ctx.at 2).at (e.1.number + 1)) rfl e he
  obtain ⟨ls', hset, hother, hlisted⟩ := Lines.setLengths_answers (c := s.ctx.at 2) ls canonicalLengths_nodup hfit
  refine ⟨ratio, ls', hratio, ?_, hother .pre pre_not_mem_canonicalLengths, fun e he =>
    ⟨_, (s.ctx.at 2).at (e.1.number + 1), rfl, rfl, hlisted e he⟩⟩
  have happly := applySize_completes (c := s.ctx) h hfit hset
  rw [State.keepRatio_eq_ite] at happly
  exact State.setp_completes h (ls' := ls') ⟨h.1, rfl⟩ happly

/-- Settles O32: the check of the twelve lengths comes before the first SetLength. -/
theorem setpSizeBeyondCapacityChangesNothing : Obligations.SetpSizeBeyondCapacityChangesNothing := by
  unfold Obligations.SetpSizeBeyondCapacityChangesNothing
  rintro s ls v h ⟨e, he, hlong⟩
  have hfault : exec (.setpSize v) s = .next (s.takeFault .ecap) :=
    State.setp_raises h (applySize_raises ⟨e, he, hlong ((s.ctx.at 2).at (e.1.number + 1)) _ _ rfl rfl rfl⟩)
  rw [hfault, State.takeFault_running h]
  rfl

/-- Settles O27: each of the six procedures is one assignment to its register. -/
theorem setpStoresTheCoefficient : Obligations.SetpStoresTheCoefficient := by
  unfold Obligations.SetpStoresTheCoefficient
  intro s ls v h
  exact ⟨State.setp_completes h h rfl, State.setp_completes h h rfl, State.setp_completes h h rfl,
    State.setp_completes h h rfl, State.setp_completes h h rfl, State.setp_completes h h rfl⟩

/-- Settles O28: each procedure computes its gain at its own places and assigns it to its register. -/
theorem setpStoresTheComputedGain : Obligations.SetpStoresTheComputedGain := by
  unfold Obligations.SetpStoresTheComputedGain
  intro s ls v h
  exact ⟨⟨s.ctx.at 1, rfl, State.setp_completes h h rfl⟩,
    ⟨s.ctx.at 2, s.ctx.at 1, rfl, rfl, State.setp_completes h h rfl⟩,
    ⟨s.ctx.at 2, s.ctx.at 1, rfl, rfl, State.setp_completes h h rfl⟩⟩

/-- Settles O29: the procedure assigns EXT and FREQ of the two lines, each computed at its own place. -/
theorem setpModulationSetsTheTwoLines : Obligations.SetpModulationSetsTheTwoLines := by
  unfold Obligations.SetpModulationSetsTheTwoLines
  intro s ls v h fmt srF
  exact ⟨s.ctx.at 1, s.ctx.at 2, s.ctx.at 3, s.ctx.at 4, rfl, rfl, rfl, rfl,
    State.setp_completes h ⟨h.1, rfl⟩ (State.onLines_completes h rfl)⟩

end Sys2Proof.Machine
end

section
/-! PROOFS. The dry/wet mix (44_buffer_mix.md R200, R201): FRAME, PMONO and PSTEREO differ only in the result items they make
of one and the same frame, which leaves DRY and WET as they were. -/

namespace Sys2Proof.Machine

section
variable {s t : State} {ls ls' : Lines} {c : Ctx} {left right : F}

/-- A network that can perform a frame stays running, with the same DRY and WET (42_network.md R160). -/
theorem State.running_frameOn (h : s.running ls) (hs : s.inv = true) (hset : ∀ l, (ls.get l).n ≠ 0)
    (hrange : ls.modulationInRange s.cfg) (hc : c.cfg = s.cfg) (left right : F) :
    ∃ t ls' wl wr, frameOn c s ls left right = .ok (t, wl, wr) ∧ t.running ls' ∧ t.dry = s.dry ∧ t.wet = s.wet := by
  have hanswers := frameOn_answersIf hc (State.running_ready h hs hset) s left right
  obtain ⟨⟨t, wl, wr⟩, hframe⟩ := hanswers.answers hrange
  rw [hframe] at hanswers
  obtain ⟨lpbw, lpa, lpb, ls', rfl, -⟩ := hanswers
  exact ⟨_, ls', wl, wr, hframe, ⟨h.1, rfl⟩, rfl, rfl⟩

/-- A command whose frame answers completes with the state of the frame and the items it makes of the outputs; the status
word is the one before the command. -/
theorem State.gated_frameOn_completes (h : s.running ls) (ht : t.running ls') {wl wr : F}
    (hframe : frameOn c s ls left right = .ok (t, wl, wr)) (g : State × F × F → List Item) :
    s.gated true (fun ls => (frameOn c s ls left right).map fun r => (r.1, g r)) =
      .next (t.respond s.status (g (t, wl, wr))) := by
  have hstatus : s.status = t.status := (State.running_status h).trans (State.running_status ht).symm
  rw [State.gated_ready h.1 h.2, hframe, hstatus]
  rfl

/-- A mix with the gains of another state, written out (R200). -/
theorem mix_of_gains (hdry : t.dry = s.dry) (hwet : t.wet = s.wet) (c : Ctx) (x w : F) :
    mix c t x w = Fp.add (c.at 3) (Fp.mul (c.at 1) s.dry x) (Fp.mul (c.at 2) s.wet w) := by
  rw [mix, hdry, hwet]

end

/-- Settles O49: each command and FRAME end with one and the same frame, and its state has the DRY and WET before it. -/
theorem mixCommandsPerformAFrameAndMix : Obligations.MixCommandsPerformAFrameAndMix := by
  unfold Obligations.MixCommandsPerformAFrameAndMix
  intro s ls left right h hs hset hrange mixed
  have hframes := State.running_frameOn (c := s.ctx.at 1) h hs hset hrange rfl
  have hmixed {t : State} (hdry : t.dry = s.dry) (hwet : t.wet = s.wet) (i : Nat) (x w : F) :
      mixed x w (mix (s.ctx.at i) t x w) := ⟨_, _, _, rfl, rfl, rfl, mix_of_gains hdry hwet _ x w⟩
  constructor
  case left => -- PMONO
    obtain ⟨t, ls', wl, wr, hframe, ht, hdry, hwet⟩ := hframes left left
    have hcompletes := State.gated_frameOn_completes h ht hframe
    exact ⟨t, wl, wr, _, hcompletes fun r => [r.2.1, r.2.2], hmixed hdry hwet 2 left wl,
      hcompletes fun r => [mix (s.ctx.at 2) r.1 left r.2.1]⟩
  case right => -- PSTEREO
    obtain ⟨t, ls', wl, wr, hframe, ht, hdry, hwet⟩ := hframes left right
    have hcompletes := State.gated_frameOn_completes h ht hframe
    exact ⟨t, wl, wr, _, _, hcompletes fun r => [r.2.1, r.2.2], hmixed hdry hwet 2 left wl, hmixed hdry hwet 3 right wr,
      hcompletes fun r => [mix (s.ctx.at 2) r.1 left r.2.1, mix (s.ctx.at 3) r.1 right r.2.2]⟩

end Sys2Proof.Machine
end

section
/-! PROOFS. The observation commands and DEINIT (45_control.md R210, R215 to R218), which complete in every state that
has what they read: a command that only reads answers its results with STATUS and changes nothing. -/

namespace Sys2Proof.Machine

section
variable {s : State} {ls : Lines} {l : LineName}

/-- A command whose body answers the state it found changes nothing but the response (60_exceptions.md R236). -/
theorem State.finish_reads (s : State) (results : List Item) :
    s.finish (.ok (s, results)) = .next (s.respond s.status results) := rfl

/-- With a network, LRD answers the field and changes nothing (R217). -/
theorem exec_lrd (hl : s.lines = some ls) (field : FieldName) :
    exec (.lrd l field) s = .next (s.respond s.status [(ls.get l).field field]) :=
  congrArg s.finish (State.needNetwork_some hl _)

/-- With a network, RDREG answers the register and changes nothing (R216). -/
theorem exec_rdreg (hl : s.lines = some ls) (reg : RegName) :
    exec (.rdreg reg) s = .next (s.respond s.status [s.register reg]) := by
  have hbody : (if reg = .status then .ok (s, [s.register reg]) else s.needNetwork fun _ => .ok (s, [s.register reg])) =
      (.ok (s, [s.register reg]) : Except Stop (State × List Item)) := by
    rw [State.needNetwork_some hl, ite_self]
  exact congrArg s.finish hbody

/-- LRDBUF answers a slot that exists and changes nothing (R218). -/
theorem exec_lrdbuf_lt (hl : s.lines = some ls) {index : Word} (h : index.toNat < (ls.get l).cap) :
    exec (.lrdbuf l index) s = .next (s.respond s.status [Slots.read (ls.get l).buf index.toNat]) := by
  change s.finish (s.needNetwork _) = _
  rw [State.needNetwork_some hl, if_neg (Nat.not_le.2 h), Line.bufRead_lt h]
  rfl

/-- LRDBUF of a slot that does not exist raises EILLCMD (R218). -/
theorem exec_lrdbuf_ge (hl : s.lines = some ls) {index : Word} (h : (ls.get l).cap ≤ index.toNat) :
    exec (.lrdbuf l index) s = .next (s.takeFault .eillcmd) := by
  change s.finish (s.needNetwork _) = _
  rw [State.needNetwork_some hl, if_pos h]
  rfl

end

/-- Settles O20: NOP answers no results from the state it finds. -/
theorem nopOnlyReturnsStatus : Obligations.NopOnlyReturnsStatus := by
  unfold Obligations.NopOnlyReturnsStatus
  exact fun s => s.finish_reads []

/-- Settles O21: DEINIT answers from the hardware reset state, which keeps the port. -/
theorem deinitDestroysTheNetwork : Obligations.DeinitDestroysTheNetwork := by
  unfold Obligations.DeinitDestroysTheNetwork
  intro s
  exact ⟨_, State.finish_ok (s := s) s.hardwareResetState [], rfl, rfl, rfl, rfl, rfl, rfl, rfl⟩

/-- Settles O24: RDREG of STATUS reads no network, and with one every register is read alike. -/
theorem rdregReturnsTheRegister : Obligations.RdregReturnsTheRegister := by
  unfold Obligations.RdregReturnsTheRegister
  intro s returns
  refine ⟨s.finish_reads [s.status.toItem], fun hne => ?_⟩
  obtain ⟨ls, hl⟩ := Option.ne_none_iff_exists'.1 hne
  have hread := exec_rdreg hl
  exact ⟨hread .sr, hread .bw, hread .damp, hread .decay, hread .dd1, hread .dd2, hread .id1, hread .id2, hread .wet,
    hread .dry, hread .lpbw, hread .lpa, hread .lpb⟩

/-- Settles O25: the item of a field is of the field's type. -/
theorem lrdReturnsTheField : Obligations.LrdReturnsTheField := by
  unfold Obligations.LrdReturnsTheField
  intro s ls l hl returns word ln
  have hread := exec_lrd (l := l) hl
  exact ⟨hread .cap, hread .n, hread .off, hread .w, hread .frac, hread .phase, hread .freq, hread .ext, hread .exc,
    hread .mode, hread .fb, hread .aps, hread .moden, hread .lsr⟩

/-- Settles O26: by the check of the index against CAP. -/
theorem lrdbufReturnsTheSlot : Obligations.LrdbufReturnsTheSlot := by
  unfold Obligations.LrdbufReturnsTheSlot
  exact fun s ls l index hl => ⟨exec_lrdbuf_lt hl, exec_lrdbuf_ge hl⟩

end Sys2Proof.Machine
end

section
/-! PROOFS. INIT (45_control.md R211 to R214): the defaults are the predelay, which may raise ECAP, assignments, the
twelve lengths of SIZE, which may raise ECAP, and two more assignments. -/

namespace Sys2Proof.Machine

/-! ## The defaults, cut at SIZE (R213) -/

/-- The coefficients of the defaults: BANDWIDTH to INDIFF2 (R213). -/
def State.withDefaultCoefficients (c : Ctx) (s : State) : State :=
  { s with
    bw := Fp.div ((c.at 2).at 1) (Fp.div (c.at 13) s.srF (Fp.lit c.fmt 2 1)) s.srF
    damp := Fp.lit c.fmt 5 100
    decay := Fp.lit c.fmt 7 10
    dd1 := Fp.lit c.fmt 6 10
    dd2 := Fp.lit c.fmt 6 10
    id1 := Fp.lit c.fmt 55 100
    id2 := Fp.lit c.fmt 625 1000 }

/-- The gains of the defaults: WET and DRY (R213). -/
def State.withDefaultGains (c : Ctx) (s : State) : State :=
  { s with wet := gainOf (c.at 11) (Fp.ofInt c.fmt (-6)), dry := gainOf (c.at 12) (Fp.ofInt c.fmt 0) }

/-- The lines with EXT and FREQ of lines 4 and 5 from the default MODULATION (R213, 43_parameters.md R189). -/
def Lines.withDefaultModulation (c : Ctx) (srF : F) (ls : Lines) : Lines :=
  { ls with
    moda := { ls.moda with
      ext := Fp.mul ((c.at 9).at 1) (Fp.lit c.fmt 1 1) (Fp.lit c.fmt 60 1)
      freq := Fp.div ((c.at 9).at 2) (Fp.lit c.fmt 125 100) srF }
    modb := { ls.modb with
      ext := Fp.mul ((c.at 9).at 3) (Fp.lit c.fmt 1 1) (Fp.lit c.fmt 40 1)
      freq := Fp.div ((c.at 9).at 4) (Fp.lit c.fmt 487 100) srF } }

/-- The length of the default PREDELAY (R213, 43_parameters.md R181). -/
def defaultPredelay (c : Ctx) (srF : F) : F := Fp.mul ((c.at 1).at 1) (Fp.lit c.fmt 1 1000) srF

/-- The ratio of the default SIZE (R213, 43_parameters.md R190). -/
def defaultRatio (c : Ctx) (s : State) : F := sizeRatio ((c.at 10).at 1) (Fp.lit c.fmt 1 1) s

/-- The length of a network line under the default SIZE (R213, 43_parameters.md R190). -/
def defaultLength (c : Ctx) (s : State) (e : LineName × Nat) : F :=
  scaledLength ((c.at 10).at 2) (defaultRatio c s) e.1 e.2

/-- The state in which the defaults reach SIZE, with the line `pre` that the predelay left. -/
def State.beforeDefaultSize (c : Ctx) (s : State) (ls : Lines) (pre : Line) : State :=
  { s.withDefaultCoefficients c with lines := some ((ls.set .pre pre).withDefaultModulation c s.srF) }

section
variable {c : Ctx} {s : State} {ls : Lines} {ln : Line}

/-- If the predelay answers, the rest of the defaults is SIZE on assigned coefficients, then the gains. -/
theorem applyDefaults_of_predelay (h : s.running ls)
    (hpre : ls.pre.setLength ((c.at 1).at 2) (defaultPredelay c s.srF) = .ok ln) :
    applyDefaults c s = (applySize (c.at 10) (Fp.lit c.fmt 1 1) (s.beforeDefaultSize c ls ln)).map
      (State.withDefaultGains c) := by
  rw [applyDefaults, applyPredelay_completes (c := c.at 1) h hpre]
  change applySize (c.at 10) _ (s.beforeDefaultSize c ls ln) >>= _ = _
  cases applySize (c.at 10) (Fp.lit c.fmt 1 1) (s.beforeDefaultSize c ls ln) <;> rfl

/-- If the predelay raises a fault, so do the defaults. -/
theorem applyDefaults_raises_of_predelay (h : s.running ls) {cause : Cause}
    (hpre : ls.pre.setLength ((c.at 1).at 2) (defaultPredelay c s.srF) = .error (.raise cause)) :
    applyDefaults c s = .error (.raise cause) := by
  rw [applyDefaults, applyPredelay_raises (c := c.at 1) h hpre]
  rfl

/-- SetLength answers or raises ECAP (40_delay_line.md R100, R101). -/
theorem Line.setLength_answers_or_raises (c : Ctx) (ln : Line) (len : F) :
    (∃ ln', ln.setLength c len = .ok ln') ∨ ln.setLength c len = .error (.raise .ecap) := by
  cases hlong : tooLong c len with
  | false => exact .inl (ln.setLength_answers hlong)
  | true =>
    rcases tooLong_iff.1 hlong with hinf | ⟨m, hfin, hm, -⟩
    · exact .inr (Line.setLength_inf hinf)
    · rw [Line.setLength_fin hfin hm]
      split
      · exact .inr rfl
      · exact .inl ⟨_, rfl⟩

/-- A network line whose default length is too long: the defaults raise ECAP, in SIZE if not before. -/
theorem applyDefaults_raises_of_size (h : s.running ls)
    (hlong : ∃ e ∈ canonicalLengths, tooLong c (defaultLength c s e) = true) :
    applyDefaults c s = .error (.raise .ecap) := by
  rcases ls.pre.setLength_answers_or_raises ((c.at 1).at 2) (defaultPredelay c s.srF) with ⟨ln, hpre⟩ | hpre
  · rw [applyDefaults_of_predelay h hpre, applySize_raises (c := c.at 10) (s := s.beforeDefaultSize c ls ln) hlong]
    rfl
  · exact applyDefaults_raises_of_predelay h hpre

/-- The defaults complete when the predelay answers and the twelve lengths fit: the predelay and the network lines have
taken their default lengths. -/
theorem applyDefaults_completes (h : s.running ls)
    (hpre : ls.pre.setLength ((c.at 1).at 2) (defaultPredelay c s.srF) = .ok ln)
    (hfits : ∀ e ∈ canonicalLengths, tooLong c (defaultLength c s e) = false) :
    ∃ ls', applyDefaults c s = .ok (State.withDefaultGains c
        (State.keepRatio { s.withDefaultCoefficients c with lines := some ls' } (defaultRatio c s))) ∧
      ls'.pre = ln ∧
      ∀ e ∈ canonicalLengths, ((ls.withDefaultModulation c s.srF).get e.1).setLength
        ((((c.at 10).at 2).at 14).at (e.1.number + 1)) (defaultLength c s e) = .ok (ls'.get e.1) := by
  obtain ⟨ls', hset, hother, hlisted⟩ := Lines.setLengths_answers (c := (c.at 10).at 2) (ratio := defaultRatio c s)
    ((ls.set .pre ln).withDefaultModulation c s.srF) canonicalLengths_nodup hfits
  refine ⟨ls', ?_, hother .pre pre_not_mem_canonicalLengths, fun e he => ?_⟩
  · have hsize := applySize_completes (c := c.at 10) (v := Fp.lit c.fmt 1 1) (s := s.beforeDefaultSize c ls ln)
      ⟨h.1, rfl⟩ hfits hset
    rw [applyDefaults_of_predelay h hpre, hsize]
    rfl
  · have hne : e.1 ≠ .pre := fun heq => pre_not_mem_canonicalLengths (heq ▸ List.mem_map_of_mem he)
    rw [← hlisted e he, ← Lines.get_set_other (ls.withDefaultModulation c s.srF) hne ln]
    rfl

/-- The defaults complete with FAULT still 0, or raise ECAP. -/
theorem applyDefaults_answers_or_raises (h : s.running ls) :
    (∃ t, applyDefaults c s = .ok t ∧ t.fault = none) ∨ applyDefaults c s = .error (.raise .ecap) := by
  by_cases hlong : ∃ e ∈ canonicalLengths, tooLong c (defaultLength c s e) = true
  · exact .inr (applyDefaults_raises_of_size h hlong)
  · have hfits : ∀ e ∈ canonicalLengths, tooLong c (defaultLength c s e) = false := by simpa using hlong
    rcases ls.pre.setLength_answers_or_raises ((c.at 1).at 2) (defaultPredelay c s.srF) with ⟨ln, hpre⟩ | hpre
    · obtain ⟨ls', hdefaults, -⟩ := applyDefaults_completes h hpre hfits
      exact .inl ⟨_, hdefaults, (State.keepRatio_fault _ _).trans h.1⟩
    · exact .inr (applyDefaults_raises_of_predelay h hpre)

end

/-! ## INIT from the defaults (R211, R214) -/

section
variable {s t : State} {sr : Word}

theorem State.running_newNetwork (s : State) (sr : Word) : (s.newNetwork sr).running (newLines s.cfg sr) := ⟨rfl, rfl⟩

/-- INIT with sr = 0 raises EBADRATE from the hardware reset state (R214). -/
theorem exec_init_zero (s : State) : exec (.init 0#32) s = .next (s.hardwareResetState.takeFault .ebadrate) := rfl

/-- INIT with sr ≠ 0 ends as the defaults on the new network do (R211). -/
theorem exec_init_nonzero (hsr : sr ≠ 0#32) :
    exec (.init sr) s =
      s.hardwareResetState.finish ((applyDefaults s.ctx (s.newNetwork sr)).map fun t => (t, [])) := by
  have hcreate : createNetwork s.ctx sr s.hardwareResetState = applyDefaults s.ctx (s.newNetwork sr) := if_neg hsr
  rw [← hcreate]
  rfl

theorem exec_init_completes (hsr : sr ≠ 0#32) (h : applyDefaults s.ctx (s.newNetwork sr) = .ok t) :
    exec (.init sr) s = .next (t.respond t.status []) := by
  rw [exec_init_nonzero hsr, h]
  rfl

theorem exec_init_raises (hsr : sr ≠ 0#32) {cause : Cause}
    (h : applyDefaults s.ctx (s.newNetwork sr) = .error (.raise cause)) :
    exec (.init sr) s = .next (s.hardwareResetState.takeFault cause) := by
  rw [exec_init_nonzero hsr, h]
  rfl

/-- INIT takes EBADRATE with sr = 0, and otherwise takes ECAP or leaves FAULT = 0 (R214). -/
theorem exec_init_cases (h : exec (.init sr) s = .next t) :
    (sr = 0#32 ∧ t = s.hardwareResetState.takeFault .ebadrate) ∨
      (sr ≠ 0#32 ∧ (t = s.hardwareResetState.takeFault .ecap ∨ t.fault = none)) := by
  by_cases hsr : sr = 0#32
  · subst hsr
    rw [exec_init_zero] at h
    cases h
    exact .inl ⟨rfl, rfl⟩
  · refine .inr ⟨hsr, ?_⟩
    rcases applyDefaults_answers_or_raises (c := s.ctx) (s.running_newNetwork sr) with ⟨u, hu, hfault⟩ | hraise
    · rw [exec_init_completes hsr hu] at h
      cases h
      exact .inr hfault
    · rw [exec_init_raises hsr hraise] at h
      cases h
      exact .inl rfl

end

/-- Settles O23: a predelay that does not fit MAXCAP stops the defaults at once, a network line in SIZE, and there is no
other fault; each is taken from the hardware reset state. -/
theorem faultingInitLeavesTheResetState : Obligations.FaultingInitLeavesTheResetState := by
  unfold Obligations.FaultingInitLeavesTheResetState
  intro sr s fmt srF
  refine ⟨⟨_, exec_init_zero s, rfl⟩, fun hsr hsane hlong => ?_, fun t h hfault => ?_⟩
  · refine ⟨_, exec_init_raises hsr ?_, rfl⟩
    have hnew := s.running_newNetwork sr
    rcases hlong with hpre | ⟨e, he, hlen⟩
    · obtain ⟨-, -, hcap, -⟩ := Line.wf_iff.1 (newLine_wf hsane sr false)
      exact applyDefaults_raises_of_predelay (c := s.ctx) hnew
        (Line.setLength_tooLong (c := (s.ctx.at 1).at 2) hcap (hpre _ ((s.ctx.at 1).at 1) rfl rfl))
    · exact applyDefaults_raises_of_size hnew
        ⟨e, he, hlen s.ctx (((s.ctx.at 10).at 2).at (e.1.number + 1)) (((s.ctx.at 10).at 1).at 2)
          (((s.ctx.at 10).at 1).at 1) rfl rfl rfl rfl⟩
  · rcases exec_init_cases h with ⟨hsr, rfl⟩ | ⟨hsr, rfl | hnone⟩
    · exact ⟨rfl, rfl, rfl, rfl, rfl, .inl ⟨hsr, rfl⟩⟩
    · exact ⟨rfl, rfl, rfl, rfl, rfl, .inr ⟨hsr, rfl⟩⟩
    · exact absurd hnone hfault

/-! ## The lines INIT leaves (R212, R213) -/

/-- A line INIT has created and given the length `len`: what R212 stores stays, and the length is set as SetLength sets it
on an empty line (40_delay_line.md R100 to R102). -/
def Line.Created (p : Params) (sr : Word) (len : F) (ln : Line) : Prop :=
  ln.w = 0 ∧ ln.phase = 0#64 ∧ ln.exc = 0 ∧ ln.fb = 0#64 ∧ ln.aps = 0#64 ∧ ln.lsr = sr ∧ ln.buf = [] ∧
    (lengthGuard p.numFmt len = false → ln.cap = p.cap0 ∧ ln.n = 0 ∧ ln.off = 0 ∧ ln.frac = 0#64) ∧
    (lengthGuard p.numFmt len = true → ∃ m : Nat, Fp.unpack p.numFmt len = .fin false m ∧
      ln.cap = max p.cap0 (2 * ((m + Fp.one p.numFmt - 1) / Fp.one p.numFmt) + 1) ∧
      ln.off = m / Fp.one p.numFmt ∧ ln.n = 2 * (m / Fp.one p.numFmt) ∧
      ∃ c : Ctx, c.cfg = p ∧ ln.frac = Fp.sub c len (Fp.ofInt p.numFmt (m / Fp.one p.numFmt : Nat)))

/-- The lines agree on MODE and on the modulation settings MODEN, FREQ and EXT. -/
structure Line.SameModulation (a b : Line) : Prop where
  mode : a.mode = b.mode
  moden : a.moden = b.moden
  freq : a.freq = b.freq
  ext : a.ext = b.ext

section
variable {c : Ctx} {sr : Word} {ln ln' : Line} {len freq ext : F} {modulated : Bool}

/-- An empty storage stays empty when it grows. -/
theorem Line.grow_buf_nil (h : ln.buf = []) (need : Nat) : (ln.grow need).buf = [] := by
  unfold Line.grow
  split
  · rw [h]
    rfl
  · exact h

/-- SetLength on a new line, whatever its FREQ and EXT. -/
theorem Line.created_of_setLength
    (h : Line.setLength c { newLine c.cfg sr modulated with freq := freq, ext := ext } len = .ok ln) :
    ln.Created c.cfg sr len := by
  rcases Line.setLength_ok h with ⟨hguard, rfl⟩ | ⟨hguard, need, m, hneed, hfin, -, -, -, rfl⟩
  · exact ⟨rfl, rfl, rfl, rfl, rfl, rfl, rfl, fun _ => ⟨rfl, rfl, rfl, rfl⟩,
      fun htrue => absurd (hguard.symm.trans htrue) Bool.false_ne_true⟩
  · rw [slotsNeeded_fin hfin] at hneed
    cases hneed
    have hbuf := Line.grow_buf_nil (ln := { newLine c.cfg sr modulated with freq := freq, ext := ext }) rfl
      (2 * ((m + Fp.one c.fmt - 1) / Fp.one c.fmt) + 1)
    rw [Line.grow_eq, hbuf]
    exact ⟨Nat.zero_mod _, rfl, rfl, rfl, rfl, rfl, rfl,
      fun hfalse => absurd (hfalse.symm.trans hguard) Bool.false_ne_true,
      fun _ => ⟨m, hfin, rfl, rfl, rfl, c.at 1, rfl, rfl⟩⟩

/-- SetLength writes neither MODE nor the modulation settings (40_delay_line.md R102). -/
theorem Line.setLength_sameModulation (h : ln.setLength c len = .ok ln') : ln'.SameModulation ln := by
  rcases Line.setLength_ok h with ⟨-, rfl⟩ | ⟨-, need, m, -, -, -, -, -, rfl⟩
  · exact ⟨rfl, rfl, rfl, rfl⟩
  · rw [Line.grow_eq]
    exact ⟨rfl, rfl, rfl, rfl⟩

end

/-- The lines INIT creates, with EXT and FREQ of the two modulated lines, before any length is set (R212, R213). -/
def State.unsetLines (s : State) (sr : Word) : Lines :=
  (newLines s.cfg sr).withDefaultModulation s.ctx (s.newNetwork sr).srF

section
variable {s : State} {sr : Word} {l : LineName}

/-- Every line starts as a new line, of which MODULATION writes FREQ and EXT at most. -/
theorem State.get_unsetLines (s : State) (sr : Word) (l : LineName) :
    (s.unsetLines sr).get l = { newLine s.cfg sr (decide (l = .moda ∨ l = .modb)) with
      freq := ((s.unsetLines sr).get l).freq, ext := ((s.unsetLines sr).get l).ext } := by
  cases l <;> rfl

theorem State.get_unsetLines_moden : ((s.unsetLines sr).get l).moden = decide (l = .moda ∨ l = .modb) := by
  rw [State.get_unsetLines]
  rfl

theorem State.get_unsetLines_mode :
    ((s.unsetLines sr).get l).mode = if l = .moda ∨ l = .modb then s.cfg.modInterp else .none := by
  rw [State.get_unsetLines]
  simp [newLine]

theorem State.get_unsetLines_unmodulated (ha : l ≠ .moda) (hb : l ≠ .modb) :
    ((s.unsetLines sr).get l).freq = 0#64 ∧ ((s.unsetLines sr).get l).ext = 0#64 := by
  cases l with
  | moda => exact absurd rfl ha
  | modb => exact absurd rfl hb
  | _ => exact ⟨rfl, rfl⟩

theorem eq_pre_or_mem_canonicalLengths (l : LineName) : l = .pre ∨ ∃ canon, (l, canon) ∈ canonicalLengths := by
  cases l <;> simp [canonicalLengths]

end

/-- Settles O22: the defaults complete because every length fits, and each of the thirteen lines has taken one length. -/
theorem initCreatesTheDefaultNetwork : Obligations.InitCreatesTheDefaultNetwork := by
  unfold Obligations.InitCreatesTheDefaultNetwork
  intro sr s fmt srF isSize isPredelay created hsr hfitPre hfitSize
  let c := s.ctx
  let lenPre := defaultPredelay c srF
  let lenSize := defaultLength c (s.newNetwork sr)
  have hisPre : isPredelay lenPre := ⟨(c.at 1).at 1, rfl, rfl⟩
  have hisSize (e : LineName × Nat) : isSize e.2 (lenSize e) :=
    ⟨((c.at 10).at 2).at (e.1.number + 1), ((c.at 10).at 1).at 2, ((c.at 10).at 1).at 1, rfl, rfl, rfl, rfl⟩
  have hcreated {ls : Lines} {l : LineName} {d : Ctx} {len : F} (hd : d.cfg = s.cfg)
      (hset : ((s.unsetLines sr).get l).setLength d len = .ok (ls.get l)) : created ls l len := by
    rw [State.get_unsetLines, ← hd] at hset
    have hline := Line.created_of_setLength hset
    rwa [hd] at hline
  obtain ⟨ln, hpre⟩ := (newLine s.cfg sr false).setLength_answers (c := (c.at 1).at 2) (hfitPre _ rfl lenPre hisPre)
  obtain ⟨ls, hdefaults, rfl, hsize⟩ := applyDefaults_completes (s.running_newNetwork sr) hpre fun e he =>
    hfitSize c rfl e he (lenSize e) (hisSize e)
  have hsettings (l : LineName) : (ls.get l).SameModulation ((s.unsetLines sr).get l) := by
    rcases eq_pre_or_mem_canonicalLengths l with rfl | ⟨canon, he⟩
    · exact Line.setLength_sameModulation hpre
    · exact Line.setLength_sameModulation (hsize _ he)
  rw [State.keepRatio_eq_ite] at hdefaults
  refine ⟨_, ls, exec_init_completes hsr hdefaults, rfl, rfl, rfl, rfl, rfl, rfl, rfl,
    ⟨(c.at 2).at 1, c.at 13, rfl, rfl, rfl⟩, rfl, rfl, rfl, rfl, rfl, rfl,
    ⟨(c.at 11).at 2, (c.at 11).at 1, rfl, rfl, rfl⟩, ⟨(c.at 12).at 2, (c.at 12).at 1, rfl, rfl, rfl⟩, rfl, rfl, rfl,
    fun hscaled => ⟨((c.at 10).at 1).at 2, ((c.at 10).at 1).at 1, rfl, rfl, if_pos hscaled⟩,
    ⟨lenPre, hisPre, hcreated (d := (c.at 1).at 2) rfl hpre⟩,
    fun e he => ⟨lenSize e, hisSize e, hcreated rfl (hsize e he)⟩,
    fun l => (hsettings l).moden.trans State.get_unsetLines_moden,
    fun l => (hsettings l).mode.trans State.get_unsetLines_mode, fun l ha hb => ?_,
    ⟨(c.at 9).at 1, (c.at 9).at 2, (c.at 9).at 3, (c.at 9).at 4, rfl, rfl, rfl, rfl, (hsettings .moda).ext,
      (hsettings .moda).freq, (hsettings .modb).ext, (hsettings .modb).freq⟩⟩
  rw [(hsettings l).freq, (hsettings l).ext]
  exact State.get_unsetLines_unmodulated ha hb

end Sys2Proof.Machine
end

section
/-! PROOFS. The causes each procedure can raise and what it leaves of the port and STATUS (60_exceptions.md R231, R235): a
logic of procedures, then one lemma per procedure from the memory primitives up to the frame and the parameters. -/

namespace Sys2Proof.Machine

/-! ## Procedures by their answers and their causes -/

/-- Each answer of the procedure meets `Q`, and each cause it raises meets `C`. -/
def EndsWith {α : Type} (C : Cause → Prop) (Q : α → Prop) : Except Stop α → Prop
  | .ok a => Q a
  | .error (.raise cause) => C cause
  | .error (.halt _) => True

/-- Each cause the procedure raises meets `C`, whatever it answers. -/
abbrev RaisesOnly {α : Type} (C : Cause → Prop) (x : Except Stop α) : Prop := EndsWith C (fun _ => True) x

section
variable {α β : Type} {C : Cause → Prop} {Q : α → Prop} {R : β → Prop} {x : Except Stop α}

theorem EndsWith.bind {g : α → Except Stop β} (h : EndsWith C Q x) (hg : ∀ a, Q a → EndsWith C R (g a)) :
    EndsWith C R (x >>= g) := by
  match x, h with
  | .ok a, h => exact hg a h
  | .error (.raise _), h => exact h
  | .error (.halt _), _ => trivial

theorem EndsWith.map {g : α → β} (h : EndsWith C Q x) (hg : ∀ a, Q a → R (g a)) : EndsWith C R (x.map g) := by
  match x, h with
  | .ok a, h => exact hg a h
  | .error (.raise _), h => exact h
  | .error (.halt _), _ => trivial

theorem EndsWith.weaken {Q' : α → Prop} (h : EndsWith C Q x) (hQ : ∀ a, Q a → Q' a) : EndsWith C Q' x := by
  match x, h with
  | .ok a, h => exact hQ a h
  | .error (.raise _), h => exact h
  | .error (.halt _), _ => trivial

theorem RaisesOnly.map (h : RaisesOnly C x) (g : α → β) : RaisesOnly C (x.map g) := EndsWith.map h fun _ => id

end

/-! ## One line (40_delay_line.md, 41_diffusion.md) -/

section
variable {C : Cause → Prop} {c : Ctx} {ln : Line}

theorem Line.bufRead_raisesOnly (i : Nat) : RaisesOnly C (ln.bufRead i) := by
  unfold Line.bufRead
  split <;> trivial

theorem Line.bufWrite_raisesOnly (i : Nat) (v : F) : RaisesOnly C (ln.bufWrite i v) := by
  unfold Line.bufWrite
  split <;> trivial

theorem Line.currentOutput_raisesOnly (hunset : C .elineunset) : RaisesOnly C (ln.currentOutput c) := by
  unfold Line.currentOutput
  split
  · exact hunset
  · exact (Line.bufRead_raisesOnly _).bind fun _ _ => (Line.bufRead_raisesOnly _).bind fun _ _ => trivial

theorem Line.tapAt_raisesOnly (hunset : C .elineunset) (k : Int) : RaisesOnly C (ln.tapAt k) := by
  unfold Line.tapAt
  split
  · exact hunset
  · exact Line.bufRead_raisesOnly _

theorem Line.store_raisesOnly (hunset : C .elineunset) (x : F) : RaisesOnly C (ln.store x) := by
  unfold Line.store
  split
  · exact hunset
  · exact (Line.bufWrite_raisesOnly _ _).bind fun _ _ => trivial

theorem Line.modulate_raisesOnly (hrange : C .emodrange) : RaisesOnly C (ln.modulate c) := by
  cases h : ln.modulate c with
  | ok ln' => exact trivial
  | error stop =>
    rw [Line.modulate_error h]
    exact hrange

theorem Line.feedback_raisesOnly (hunset : C .elineunset) (j : Nat) : RaisesOnly C (ln.feedback c j) := by
  unfold Line.feedback
  split
  · exact trivial
  · exact (Line.currentOutput_raisesOnly hunset).bind fun ⟨_, _⟩ _ =>
      (Line.bufRead_raisesOnly _).bind fun _ _ => Line.bufWrite_raisesOnly _ _

theorem Line.push_raisesOnly (hunset : C .elineunset) (hrange : C .emodrange) (x : F) : RaisesOnly C (ln.push c x) :=
  (Line.store_raisesOnly hunset x).bind fun _ _ =>
    (Line.modulate_raisesOnly hrange).bind fun _ _ => Line.feedback_raisesOnly hunset _

theorem Line.diffuse_raisesOnly (hunset : C .elineunset) (hrange : C .emodrange) (x k : F) :
    RaisesOnly C (ln.diffuse c x k) :=
  (Line.currentOutput_raisesOnly hunset).bind fun ⟨_, _⟩ _ =>
    (Line.push_raisesOnly hunset hrange _).bind fun _ _ => trivial

theorem Line.setLength_raisesOnly (hcap : C .ecap) (len : F) : RaisesOnly C (ln.setLength c len) := by
  rcases Line.setLength_answers_or_raises c ln len with ⟨ln', h⟩ | h <;> rw [h]
  · exact trivial
  · exact hcap

end

/-! ## The thirteen lines and the steps of Frame (42_network.md R150 to R159) -/

section
variable {C : Cause → Prop} {c : Ctx} {ls : Lines}

theorem Lines.setLength_raisesOnly (hcap : C .ecap) (l : LineName) (len : F) : RaisesOnly C (ls.setLength c l len) :=
  (Line.setLength_raisesOnly hcap len).map _

theorem Lines.setLengths_raisesOnly (hcap : C .ecap) (ratio : F) :
    ∀ (table : List (LineName × Nat)) (ls : Lines), RaisesOnly C (Lines.setLengths c ratio table ls)
  | [], ls => trivial
  | (l, canon) :: rest, ls => by
    have hset : RaisesOnly C (ls.setLength ((c.at 14).at (l.number + 1)) l (scaledLength c ratio l canon)) :=
      Lines.setLength_raisesOnly hcap l _
    unfold Lines.setLengths
    split
    · rename_i stop h
      rw [h] at hset
      cases stop <;> exact hset
    · exact Lines.setLengths_raisesOnly hcap ratio rest _

theorem Lines.currentOutput_raisesOnly (hunset : C .elineunset) (l : LineName) : RaisesOnly C (ls.currentOutput c l) :=
  (Line.currentOutput_raisesOnly hunset).map _

theorem tapSum_raisesOnly (hunset : C .elineunset) (ratio : F) :
    ∀ (c : Ctx) (rows : List TapRow) (acc : F), RaisesOnly C (tapSum c ratio ls rows acc)
  | _, [], acc => trivial
  | c, row :: rest, acc => by
    have htap : RaisesOnly C ((ls.get row.line).tapAt (tapOffset (c.at 1) ratio row.offset)) :=
      Line.tapAt_raisesOnly hunset _
    unfold tapSum
    split
    · rename_i stop h
      rw [h] at htap
      cases stop <;> exact htap
    · exact tapSum_raisesOnly hunset ratio _ rest _

section
variable (hunset : C .elineunset) (hrange : C .emodrange)
include hunset hrange

theorem Lines.push_raisesOnly (l : LineName) (x : F) : RaisesOnly C (ls.push c l x) :=
  (Line.push_raisesOnly hunset hrange x).map _

theorem Lines.diffuse_raisesOnly (l : LineName) (x k : F) : RaisesOnly C (ls.diffuse c l x k) :=
  (Line.diffuse_raisesOnly hunset hrange x k).map _

theorem Lines.pass_raisesOnly (l : LineName) (x : F) : RaisesOnly C (ls.pass c l x) :=
  (Lines.push_raisesOnly hunset hrange l x).bind fun _ _ => Lines.currentOutput_raisesOnly hunset l

theorem inputDiffusion_raisesOnly (id1 id2 x : F) : RaisesOnly C (inputDiffusion c id1 id2 ls x) :=
  (Lines.diffuse_raisesOnly hunset hrange _ _ _).bind fun ⟨_, _⟩ _ =>
    (Lines.diffuse_raisesOnly hunset hrange _ _ _).bind fun ⟨_, _⟩ _ =>
    (Lines.diffuse_raisesOnly hunset hrange _ _ _).bind fun ⟨_, _⟩ _ =>
    Lines.diffuse_raisesOnly hunset hrange _ _ _

theorem tankStep_raisesOnly (t : Tank) (s : State) (seed lp : F) : RaisesOnly C (tankStep c t s ls seed lp) :=
  (Lines.diffuse_raisesOnly hunset hrange _ _ _).bind fun ⟨_, _⟩ _ =>
    (Lines.pass_raisesOnly hunset hrange _ _).bind fun ⟨_, _⟩ _ =>
    (Lines.diffuse_raisesOnly hunset hrange _ _ _).bind fun ⟨_, _⟩ _ =>
    (Lines.push_raisesOnly hunset hrange _ _).bind fun _ _ => trivial

end

end

/-! ## What a body leaves of the state -/

/-- The states agree on the parameters, the port, the reset input and STATUS: they differ in the registers and inside the
lines at most. -/
structure State.SamePort (s t : State) : Prop where
  cfg : t.cfg = s.cfg
  inq : t.inq = s.inq
  out : t.out = s.out
  resetIn : t.resetIn = s.resetIn
  fault : t.fault = s.fault
  network : t.lines.isSome = s.lines.isSome

/-- A procedure over the state that, on a network, writes registers and lines alone and raises causes in `C`. -/
def Configuring (C : Cause → Prop) (f : State → Except Stop State) : Prop :=
  ∀ s : State, s.lines.isSome = true → EndsWith C s.SamePort (f s)

section
variable {C : Cause → Prop} {c : Ctx} {ls : Lines} {s t u : State} {f g : State → Except Stop State}

theorem State.SamePort.trans (h : s.SamePort t) (h' : t.SamePort u) : s.SamePort u :=
  ⟨h'.cfg.trans h.cfg, h'.inq.trans h.inq, h'.out.trans h.out, h'.resetIn.trans h.resetIn, h'.fault.trans h.fault,
    h'.network.trans h.network⟩

theorem State.samePort_lines (hl : s.lines = some ls) (ls' : Lines) : s.SamePort { s with lines := some ls' } :=
  ⟨rfl, rfl, rfl, rfl, rfl, by rw [hl]; rfl⟩

theorem State.samePort_keepRatio (s : State) (ratio : F) : s.SamePort (s.keepRatio ratio) :=
  ⟨by simp, by simp, by simp, by simp, by simp, by simp⟩

theorem Configuring.assign {g : State → State} (h : ∀ s : State, s.SamePort (g s)) :
    Configuring C fun s => .ok (g s) := fun s _ => h s

theorem Configuring.comp (hf : Configuring C f) (hg : Configuring C g) : Configuring C fun s => f s >>= g :=
  fun s hl => (hf s hl).bind fun t ht => (hg t (ht.network.trans hl)).weaken fun _ hu => ht.trans hu

theorem State.onLines_endsWith {body : Lines → Except Stop Lines} (hl : s.lines.isSome = true)
    (h : ∀ ls, RaisesOnly C (body ls)) : EndsWith C s.SamePort (s.onLines body) := by
  obtain ⟨ls, hls⟩ := Option.isSome_iff_exists.1 hl
  rw [State.onLines_some hls]
  exact EndsWith.map (h ls) fun ls' _ => State.samePort_lines hls ls'

/-! ### The parameters (43_parameters.md R181 to R192) -/

theorem applyPredelay_configuring (hcap : C .ecap) (v : F) : Configuring C (applyPredelay c v) :=
  fun _ hl => State.onLines_endsWith hl fun _ => Lines.setLength_raisesOnly hcap _ _

theorem applyModulation_configuring (v : F) : Configuring C (applyModulation c v) :=
  fun _ hl => State.onLines_endsWith hl fun _ => trivial

theorem applySize_configuring (hcap : C .ecap) (v : F) : Configuring C (applySize c v) := by
  intro s hl
  unfold applySize
  simp only
  split
  · exact hcap
  · exact (State.onLines_endsWith hl fun ls => Lines.setLengths_raisesOnly hcap _ _ ls).map fun t ht =>
      ht.trans (t.samePort_keepRatio _)

theorem applyBandwidth_configuring (v : State → F) : Configuring C fun s => applyBandwidth c (v s) s :=
  .assign fun _ => ⟨rfl, rfl, rfl, rfl, rfl, rfl⟩

theorem applyDamping_configuring (v : F) : Configuring C (applyDamping v) :=
  .assign fun _ => ⟨rfl, rfl, rfl, rfl, rfl, rfl⟩

theorem applyDecay_configuring (v : F) : Configuring C (applyDecay v) :=
  .assign fun _ => ⟨rfl, rfl, rfl, rfl, rfl, rfl⟩

theorem applyDiffusion1_configuring (v : F) : Configuring C (applyDiffusion1 v) :=
  .assign fun _ => ⟨rfl, rfl, rfl, rfl, rfl, rfl⟩

theorem applyDiffusion2_configuring (v : F) : Configuring C (applyDiffusion2 v) :=
  .assign fun _ => ⟨rfl, rfl, rfl, rfl, rfl, rfl⟩

theorem applyIndiff1_configuring (v : F) : Configuring C (applyIndiff1 v) :=
  .assign fun _ => ⟨rfl, rfl, rfl, rfl, rfl, rfl⟩

theorem applyIndiff2_configuring (v : F) : Configuring C (applyIndiff2 v) :=
  .assign fun _ => ⟨rfl, rfl, rfl, rfl, rfl, rfl⟩

theorem applyWet_configuring (v : F) : Configuring C (applyWet c v) :=
  .assign fun _ => ⟨rfl, rfl, rfl, rfl, rfl, rfl⟩

theorem applyDry_configuring (v : F) : Configuring C (applyDry c v) :=
  .assign fun _ => ⟨rfl, rfl, rfl, rfl, rfl, rfl⟩

/-- The defaults of INIT write registers and lines, and raise ECAP alone (45_control.md R213). -/
theorem applyDefaults_configuring (hcap : C .ecap) : Configuring C (applyDefaults c) :=
  (applyPredelay_configuring hcap _).comp <| (applyBandwidth_configuring _).comp <|
  (applyDamping_configuring _).comp <| (applyDecay_configuring _).comp <|
  (applyDiffusion1_configuring _).comp <| (applyDiffusion2_configuring _).comp <|
  (applyIndiff1_configuring _).comp <| (applyIndiff2_configuring _).comp <|
  (applyModulation_configuring _).comp <| (applySize_configuring hcap _).comp <|
  (applyWet_configuring _).comp <| applyDry_configuring _

/-! ### A frame and a command on one line -/

/-- A frame writes the lines and the low-pass states, and raises ELINEUNSET or EMODRANGE (42_network.md R150 to R160). -/
theorem frameOn_endsWith (hunset : C .elineunset) (hrange : C .emodrange) (hl : s.lines = some ls) (left right : F) :
    EndsWith C (fun r => s.SamePort r.1) (frameOn c s ls left right) := by
  unfold frameOn
  split
  · exact hunset
  · exact (Lines.pass_raisesOnly hunset hrange _ _).bind fun ⟨_, _⟩ _ =>
      (inputDiffusion_raisesOnly hunset hrange _ _ _).bind fun ⟨_, _⟩ _ =>
      (Lines.currentOutput_raisesOnly hunset _).bind fun ⟨_, _⟩ _ =>
      (Lines.currentOutput_raisesOnly hunset _).bind fun ⟨_, _⟩ _ =>
      (tankStep_raisesOnly hunset hrange _ _ _ _).bind fun ⟨_, _⟩ _ =>
      (tankStep_raisesOnly hunset hrange _ _ _ _).bind fun ⟨_, _⟩ _ =>
      (tapSum_raisesOnly hunset _ _ _ _).bind fun _ _ =>
      (tapSum_raisesOnly hunset _ _ _ _).bind fun _ _ =>
      show EndsWith C (fun r : State × F × F => s.SamePort r.1) (.ok _) from
        ⟨rfl, rfl, rfl, rfl, rfl, (State.samePort_lines hl _).network⟩

theorem State.onLine_endsWith {n : Nat} {l : LineName} {body : Line → Except Stop (Line × List Item)}
    (hl : s.lines = some ls) (h : EndsWith C (fun r => r.2.length = n) (body (ls.get l))) :
    EndsWith C (fun r => s.SamePort r.1 ∧ r.2.length = n) (s.onLine ls l body) := by
  unfold State.onLine
  match body (ls.get l), h with
  | .ok (ln, results), h => exact ⟨State.samePort_lines hl _, h⟩
  | .error (.raise _), h => exact h
  | .error (.halt _), _ => trivial

end

end Sys2Proof.Machine
end

section
/-! PROOFS. How a command ends (60_exceptions.md R231 to R236): what the body of each command does, and the one list of a
command's ends, from which the fault rules follow. -/

namespace Sys2Proof.Machine

/-! ## What each command's body does -/

/-- The causes a command may set FAULT with (60_exceptions.md R231, column "raised by"). -/
def MayRaise (i : Instr) : Cause → Prop
  | .eillcmd => i.opcode ∈ [.lrdbuf, .lmode, .lmoden]
  | .enotinit => i.opcode ∉ [.nop, .init, .deinit] ∧ i ≠ .rdreg .status
  | .ebadrate => i = .init 0#32
  | .elineunset => i.opcode ∈ [.frame, .pmono, .pstereo, .lpush, .lout, .ltap, .ldiff]
  | .ecap => i.opcode ∈ [.init, .lsetlen] ∨ (∃ v, i = .setpPredelay v) ∨ ∃ v, i = .setpSize v
  | .emodrange => i.opcode ∈ [.frame, .pmono, .pstereo, .lpush, .ldiff]

/-- The u32 operand of LMODE and LMODEN is legal (30_encoding.md R86 (e)); no other command has such a check. -/
def operandLegal : Instr → Bool
  | .lmode _ m => (modeOf m).isSome
  | .lmoden _ e => (enableOf e).isSome
  | _ => true

/-- A body of the command: it leaves the port and STATUS as they were, answers the result items of R83, and raises the
causes of R231. -/
def IsBody (i : Instr) (s : State) : Except Stop (State × List Item) → Prop :=
  EndsWith (MayRaise i) fun r => s.SamePort r.1 ∧ r.2.length = resultCount i

section
variable {α : Type} {i : Instr} {s : State} {ls : Lines} {l : LineName}

theorem State.setp_body {apply : State → Except Stop State} (hl : s.lines = some ls)
    (happly : Configuring (MayRaise i) apply) (hcount : resultCount i = 0) :
    IsBody i s ((apply s).map fun t => (t, [])) :=
  (happly s (Option.isSome_of_eq_some hl)).map fun _ ht => ⟨ht, hcount.symm⟩

theorem State.onLine_map_body {f : Line → Except Stop α} {g : Line → α → Line × List Item} (hl : s.lines = some ls)
    (hf : ∀ ln, RaisesOnly (MayRaise i) (f ln)) (hcount : ∀ ln a, (g ln a).2.length = resultCount i) :
    IsBody i s (s.onLine ls l fun ln => (f ln).map (g ln)) :=
  State.onLine_endsWith hl (EndsWith.map (hf _) fun a _ => hcount _ a)

/-- A command that can push a line out of its modulation range can meet a line without a length. -/
theorem mayRaise_elineunset (h : MayRaise i .emodrange) : MayRaise i .elineunset := by
  simp only [MayRaise, List.mem_cons] at h ⊢
  tauto

theorem State.frame_body (hi : i.opcode ∈ [.frame, .pmono, .pstereo]) {c : Ctx} {left right : F}
    {g : State × F × F → List Item} (hl : s.lines = some ls) (hcount : ∀ r, (g r).length = resultCount i) :
    IsBody i s ((frameOn c s ls left right).map fun r => (r.1, g r)) := by
  have hrange : MayRaise i .emodrange := by
    simp only [MayRaise, List.mem_cons] at hi ⊢
    tauto
  exact (frameOn_endsWith (mayRaise_elineunset hrange) hrange hl left right).map fun r hr => ⟨hr, hcount r⟩

/-- The commands that are rejected while FAULT = 1 are the gated ones (60_exceptions.md R234, R235). -/
theorem exec_gated (hi : i.opcode.acceptedInFault = false) (s : State) :
    ∃ body, exec i s = s.gated (operandLegal i) body ∧ ∀ ls, s.lines = some ls → IsBody i s (body ls) := by
  cases i with
  | nop | init | deinit | rdreg | lrd | lrdbuf => cases hi
  | setpPredelay v =>
    exact ⟨_, rfl, fun ls hl => State.setp_body hl (applyPredelay_configuring (.inr (.inl ⟨v, rfl⟩)) v) rfl⟩
  | setpBandwidth v => exact ⟨_, rfl, fun ls hl => State.setp_body hl (applyBandwidth_configuring fun _ => v) rfl⟩
  | setpDamping v => exact ⟨_, rfl, fun ls hl => State.setp_body hl (applyDamping_configuring v) rfl⟩
  | setpDecay v => exact ⟨_, rfl, fun ls hl => State.setp_body hl (applyDecay_configuring v) rfl⟩
  | setpDiffusion1 v => exact ⟨_, rfl, fun ls hl => State.setp_body hl (applyDiffusion1_configuring v) rfl⟩
  | setpDiffusion2 v => exact ⟨_, rfl, fun ls hl => State.setp_body hl (applyDiffusion2_configuring v) rfl⟩
  | setpIndiff1 v => exact ⟨_, rfl, fun ls hl => State.setp_body hl (applyIndiff1_configuring v) rfl⟩
  | setpIndiff2 v => exact ⟨_, rfl, fun ls hl => State.setp_body hl (applyIndiff2_configuring v) rfl⟩
  | setpModulation v => exact ⟨_, rfl, fun ls hl => State.setp_body hl (applyModulation_configuring v) rfl⟩
  | setpSize v =>
    exact ⟨_, rfl, fun ls hl => State.setp_body hl (applySize_configuring (.inr (.inr ⟨v, rfl⟩)) v) rfl⟩
  | setpWet v => exact ⟨_, rfl, fun ls hl => State.setp_body hl (applyWet_configuring v) rfl⟩
  | setpDry v => exact ⟨_, rfl, fun ls hl => State.setp_body hl (applyDry_configuring v) rfl⟩
  | frame | pmono | pstereo =>
    exact ⟨_, rfl, fun ls hl => State.frame_body (by simp [Instr.opcode]) hl fun _ => rfl⟩
  | lsetlen line length =>
    have hcap : MayRaise (.lsetlen line length) .ecap := by simp [MayRaise, Instr.opcode]
    exact ⟨_, rfl, fun ls hl => State.onLine_map_body hl (fun _ => Line.setLength_raisesOnly hcap length) fun _ _ => rfl⟩
  | lpush line x =>
    have hrange : MayRaise (.lpush line x) .emodrange := by simp [MayRaise, Instr.opcode]
    exact ⟨_, rfl, fun ls hl =>
      State.onLine_map_body hl (fun _ => Line.push_raisesOnly (mayRaise_elineunset hrange) hrange x) fun _ _ => rfl⟩
  | lout line =>
    have hunset : MayRaise (.lout line) .elineunset := by simp [MayRaise, Instr.opcode]
    exact ⟨_, rfl, fun ls hl => State.onLine_map_body hl (fun _ => Line.currentOutput_raisesOnly hunset) fun _ _ => rfl⟩
  | ltap line k =>
    have hunset : MayRaise (.ltap line k) .elineunset := by simp [MayRaise, Instr.opcode]
    exact ⟨_, rfl, fun ls hl => State.onLine_map_body hl (fun _ => Line.tapAt_raisesOnly hunset _) fun _ _ => rfl⟩
  | ldiff line x k =>
    have hrange : MayRaise (.ldiff line x k) .emodrange := by simp [MayRaise, Instr.opcode]
    exact ⟨_, rfl, fun ls hl =>
      State.onLine_map_body hl (fun _ => Line.diffuse_raisesOnly (mayRaise_elineunset hrange) hrange x k) fun _ _ => rfl⟩
  | lmode | lfb | lmod | lmoden => exact ⟨_, rfl, fun ls hl => State.onLine_endsWith hl rfl⟩

theorem State.needNetwork_endsWith {C : Cause → Prop} {Q : State × List Item → Prop}
    {body : Lines → Except Stop (State × List Item)} (hnetwork : C .enotinit)
    (h : ∀ ls, s.lines = some ls → EndsWith C Q (body ls)) : EndsWith C Q (s.needNetwork body) := by
  cases hl : s.lines with
  | none =>
    rw [State.needNetwork_none hl]
    exact hnetwork
  | some ls =>
    rw [State.needNetwork_some hl]
    exact h ls hl

/-- NOP, RDREG, LRD and LRDBUF answer the state they find (45_control.md R210, R216 to R218). -/
theorem exec_observes (hi : i.opcode ∈ [.nop, .rdreg, .lrd, .lrdbuf]) (s : State) :
    ∃ body, exec i s = s.finish body ∧
      EndsWith (MayRaise i) (fun r => r.1 = s ∧ r.2.length = resultCount i) body := by
  cases i with
  | nop => exact ⟨.ok (s, []), rfl, rfl, rfl⟩
  | rdreg reg =>
    refine ⟨_, rfl, ?_⟩
    split
    · exact ⟨rfl, rfl⟩
    · have hnetwork : MayRaise (.rdreg reg) .enotinit := by simpa [MayRaise, Instr.opcode]
      exact State.needNetwork_endsWith hnetwork fun _ _ => ⟨rfl, rfl⟩
  | lrd line field =>
    have hnetwork : MayRaise (.lrd line field) .enotinit := by simp [MayRaise, Instr.opcode]
    exact ⟨_, rfl, State.needNetwork_endsWith hnetwork fun _ _ => ⟨rfl, rfl⟩⟩
  | lrdbuf line index =>
    have hnetwork : MayRaise (.lrdbuf line index) .enotinit := by simp [MayRaise, Instr.opcode]
    have hindex : MayRaise (.lrdbuf line index) .eillcmd := by simp [MayRaise, Instr.opcode]
    refine ⟨_, rfl, State.needNetwork_endsWith hnetwork fun ls _ => ?_⟩
    split
    · exact hindex
    · exact EndsWith.map (Line.bufRead_raisesOnly _) fun _ _ => ⟨rfl, rfl⟩
  | _ => simp [Instr.opcode] at hi

end

/-! ## The ends of a command (60_exceptions.md R232 to R236) -/

/-- How a command can end: rejected because FAULT was 1 (R234); a fault taken from the state before it (R232) or, by
INIT, from the hardware reset state (45_control.md R214); the state it found; a change of registers and lines that a
fault would have prevented; or the state after hardware reset, with a new network or without. -/
inductive State.Ends (i : Instr) (s : State) : State → Prop where
  | rejected (hfault : s.fault.isSome = true) (hi : i.opcode.acceptedInFault = false) : Ends i s s.reject
  | faulted {cause : Cause} (hcause : MayRaise i cause) : Ends i s (s.takeFault cause)
  | observed {results : List Item} (hi : i.opcode ∈ [.nop, .rdreg, .lrd, .lrdbuf])
      (hcount : results.length = resultCount i) : Ends i s (s.respond s.status results)
  | performed {u : State} {results : List Item} (hfault : s.fault = none) (hi : i.opcode.acceptedInFault = false)
      (hu : s.SamePort u) (hcount : results.length = resultCount i) : Ends i s (u.respond u.status results)
  | initFaulted {sr : Word} {cause : Cause} (hi : i = .init sr) (hcause : MayRaise i cause) :
      Ends i s (s.hardwareResetState.takeFault cause)
  | created {sr : Word} {u : State} (hi : i = .init sr) (hu : (s.newNetwork sr).SamePort u) :
      Ends i s (u.respond u.status [])
  | destroyed (hi : i = .deinit) : Ends i s (s.hardwareResetState.respond s.hardwareResetState.status [])

section
variable {i : Instr} {s t : State}

theorem Opcode.acceptedInFault_iff (op : Opcode) :
    op.acceptedInFault = true ↔ op ∈ [.nop, .init, .deinit, .rdreg, .lrd, .lrdbuf] := by
  cases op <;> decide

/-- A command that ends in a next state answered, or took a fault for a cause its body raises. -/
theorem State.finish_ends {C : Cause → Prop} {Q : State × List Item → Prop} {body : Except Stop (State × List Item)}
    (hbody : EndsWith C Q body) (h : s.finish body = .next t) :
    (∃ u results, Q (u, results) ∧ t = u.respond u.status results) ∨ ∃ cause, C cause ∧ t = s.takeFault cause := by
  rcases State.finish_next h with ⟨u, results, rfl, rfl⟩ | ⟨cause, rfl, rfl⟩
  · exact .inl ⟨u, results, hbody, rfl⟩
  · exact .inr ⟨cause, hbody, rfl⟩

theorem mayRaise_enotinit (hi : i.opcode.acceptedInFault = false) : MayRaise i .enotinit := by
  cases i with
  | nop | init | deinit | rdreg | lrd | lrdbuf => cases hi
  | _ => simp [MayRaise, Instr.opcode]

theorem mayRaise_eillcmd (h : operandLegal i = false) : MayRaise i .eillcmd := by
  cases i with
  | lmode | lmoden => simp [MayRaise, Instr.opcode]
  | _ => cases h

/-- A gated command is rejected, takes the fault its checks or its body raise, or performs its body (R234, R235). -/
theorem State.gated_ends {body : Lines → Except Stop (State × List Item)} (hi : i.opcode.acceptedInFault = false)
    (hbody : ∀ ls, s.lines = some ls → IsBody i s (body ls)) (h : s.gated (operandLegal i) body = .next t) :
    s.Ends i t := by
  cases hf : s.fault with
  | some c =>
    rw [State.gated_fault hf] at h
    cases h
    exact .rejected (Option.isSome_of_eq_some hf) hi
  | none =>
    have hchecked : IsBody i s (if operandLegal i then s.needNetwork body else .error (.raise .eillcmd)) := by
      split
      · exact State.needNetwork_endsWith (mayRaise_enotinit hi) hbody
      · rename_i hlegal
        exact mayRaise_eillcmd (by simpa using hlegal)
    simp only [State.gated, hf] at h
    rcases State.finish_ends hchecked h with ⟨u, results, ⟨hu, hcount⟩, rfl⟩ | ⟨cause, hcause, rfl⟩
    · exact .performed hf hi hu hcount
    · exact .faulted hcause

/-- INIT ends with the new network configured, or takes its fault from the hardware reset state (45_control.md R214). -/
theorem exec_init_ends {sr : Word} (h : exec (.init sr) s = .next t) : s.Ends (.init sr) t := by
  have hcap : MayRaise (.init sr) .ecap := .inl (by simp [Instr.opcode])
  by_cases hsr : sr = 0#32
  · subst hsr
    rw [exec_init_zero] at h
    cases h
    exact .initFaulted rfl rfl
  · rw [exec_init_nonzero hsr] at h
    have hdefaults := applyDefaults_configuring (c := s.ctx) hcap (s.newNetwork sr) rfl
    have hbody : EndsWith (MayRaise (.init sr)) (fun r : State × List Item => (s.newNetwork sr).SamePort r.1 ∧ r.2 = [])
        ((applyDefaults s.ctx (s.newNetwork sr)).map fun t => (t, [])) := hdefaults.map fun _ ht => ⟨ht, rfl⟩
    rcases State.finish_ends hbody h with ⟨u, _, ⟨hu, rfl⟩, rfl⟩ | ⟨cause, hcause, rfl⟩
    · exact .created rfl hu
    · exact .initFaulted rfl hcause

/-- Every command that answers a next state ends in one of the listed ways. -/
theorem exec_ends (h : exec i s = .next t) : s.Ends i t := by
  cases hacc : i.opcode.acceptedInFault with
  | false =>
    obtain ⟨body, hexec, hbody⟩ := exec_gated hacc s
    exact State.gated_ends hacc hbody (hexec ▸ h)
  | true =>
    by_cases hobs : i.opcode ∈ [.nop, .rdreg, .lrd, .lrdbuf]
    · obtain ⟨body, hexec, hbody⟩ := exec_observes hobs s
      rcases State.finish_ends hbody (hexec ▸ h) with ⟨u, results, ⟨hu, hcount⟩, rfl⟩ | ⟨cause, hcause, rfl⟩
      · cases hu
        exact .observed hobs hcount
      · exact .faulted hcause
    · cases i with
      | init sr => exact exec_init_ends h
      | deinit =>
        cases h
        exact .destroyed rfl
      | nop | rdreg | lrd | lrdbuf => simp [Instr.opcode] at hobs
      | _ => cases hacc

/-- Without a network a body that needs one raises ENOTINIT (R235 step 4). -/
theorem State.finish_noNetwork (hl : s.lines = none) (body : Lines → Except Stop (State × List Item)) :
    s.finish (s.needNetwork body) = .next (s.takeFault .enotinit) := by
  rw [State.needNetwork_none hl, State.finish_raise]

theorem modeOf_isSome {m : Word} (h : m.toNat ≤ 2) : (modeOf m).isSome = true := by
  have hm : m.toNat = 0 ∨ m.toNat = 1 ∨ m.toNat = 2 := by omega
  rcases hm with hm | hm | hm <;> simp [modeOf, hm]

theorem enableOf_isSome {e : Word} (h : e.toNat ≤ 1) : (enableOf e).isSome = true := by
  have he : e.toNat = 0 ∨ e.toNat = 1 := by omega
  rcases he with he | he <;> simp [enableOf, he]

theorem operandLegal_of_bounds (hmode : ∀ l m, i = .lmode l m → m.toNat ≤ 2)
    (hmoden : ∀ l e, i = .lmoden l e → e.toNat ≤ 1) : operandLegal i = true := by
  cases i with
  | lmode l m => exact modeOf_isSome (hmode l m rfl)
  | lmoden l e => exact enableOf_isSome (hmoden l e rfl)
  | _ => rfl

/-- Without a network and with FAULT = 0, every command but the four that need none takes ENOTINIT (R235, R272). -/
theorem exec_noNetwork (hf : s.fault = none) (hl : s.lines = none) (hnop : i ≠ .nop) (hinit : ∀ sr, i ≠ .init sr)
    (hdeinit : i ≠ .deinit) (hstatus : i ≠ .rdreg .status) (hlegal : operandLegal i = true) :
    exec i s = .next (s.takeFault .enotinit) := by
  cases hacc : i.opcode.acceptedInFault with
  | false =>
    obtain ⟨body, hexec, -⟩ := exec_gated hacc s
    rw [hexec, hlegal, State.gated_noNetwork hf hl]
  | true =>
    cases i with
    | nop => exact absurd rfl hnop
    | init sr => exact absurd rfl (hinit sr)
    | deinit => exact absurd rfl hdeinit
    | rdreg reg =>
      have hreg : reg ≠ .status := fun he => hstatus (he ▸ rfl)
      exact (congrArg s.finish (if_neg hreg)).trans (State.finish_noNetwork hl _)
    | lrd | lrdbuf => exact State.finish_noNetwork hl _
    | _ => cases hacc

end

end Sys2Proof.Machine
end

section
/-! PROOFS. The fault rules (60_exceptions.md R231 to R238, R245, R246), each by the list of a command's ends. -/

namespace Sys2Proof.Machine

/-- Settles O7: by the definition of the step. -/
theorem stepHoldsTheStateBetweenRequests : Obligations.StepHoldsTheStateBetweenRequests := by
  unfold Obligations.StepHoldsTheStateBetweenRequests
  intro s hreset hwaiting
  simp [step, hreset, hwaiting]

/-- Settles O12: the first fault is recorded, a later one is only answered, and bits 0 and 2 of STATUS are INITD and a
reserved bit. -/
theorem firstFaultIsRecordedLaterOnesAreNot : Obligations.FirstFaultIsRecordedLaterOnesAreNot := by
  unfold Obligations.FirstFaultIsRecordedLaterOnesAreNot
  intro s cause
  obtain ⟨hinitd, -, hreserved, -⟩ := statusFieldsAreAsListed (s.takeFault cause)
  refine ⟨fun hf => State.takeFault_first hf cause, fun c hf => State.takeFault_later hf cause, ?_, ?_⟩
  · simpa using congrArg (·.getLsbD 0) hreserved
  · rw [hinitd, State.takeFault_lines]

/-- Settles O10: one response per end; a fault taken and a rejection answer no results, and only a rejection adds REJ. -/
theorem everyCommandReturnsOneResponse : Obligations.EveryCommandReturnsOneResponse := by
  unfold Obligations.EveryCommandReturnsOneResponse
  intro i s t h
  cases exec_ends h with
  | rejected hfault hi => exact ⟨_, rfl, rfl, rfl, rfl, .inr ⟨rfl, rfl, hfault, hi⟩⟩
  | @faulted cause hcause =>
    exact ⟨_, s.takeFault_out cause, s.takeFault_inq cause, s.takeFault_resetIn cause, s.takeFault_cfg cause,
      .inl ⟨rfl, fun hf => by simp at hf, fun _ _ => rfl, .inl rfl⟩⟩
  | observed hi hcount =>
    exact ⟨_, rfl, rfl, rfl, rfl, .inl ⟨rfl, fun _ => hcount, fun hf ht => absurd hf ht, .inr hcount⟩⟩
  | performed hfault hi hu hcount =>
    exact ⟨_, congrArg _ hu.out, hu.inq, hu.resetIn, hu.cfg,
      .inl ⟨rfl, fun _ => hcount, fun hf ht => absurd (hu.fault.trans hf) ht, .inr hcount⟩⟩
  | initFaulted hi hcause =>
    exact ⟨_, rfl, rfl, rfl, rfl, .inl ⟨rfl, fun hf => (by cases hf), fun _ _ => rfl, .inl rfl⟩⟩
  | created hi hu =>
    subst hi
    exact ⟨_, congrArg _ hu.out, hu.inq, hu.resetIn, hu.cfg, .inl ⟨rfl, fun _ => rfl, fun _ _ => rfl, .inl rfl⟩⟩
  | destroyed hi =>
    subst hi
    exact ⟨_, rfl, rfl, rfl, rfl, .inl ⟨rfl, fun _ => rfl, fun _ _ => rfl, .inl rfl⟩⟩

/-- Settles O13: of the ends of a command but INIT, only the fault taken sets FAULT. -/
theorem faultingCommandChangesStatusOnly : Obligations.FaultingCommandChangesStatusOnly := by
  unfold Obligations.FaultingCommandChangesStatusOnly
  intro i s t hinit hf h ht
  cases exec_ends h with
  | rejected hfault => simp [hf] at hfault
  | @faulted cause _ => exact ⟨cause, State.takeFault_first hf cause⟩
  | observed => exact absurd hf ht
  | performed _ _ hu => exact absurd (hu.fault.trans hf) ht
  | initFaulted hi | created hi => exact absurd hi (hinit _)
  | destroyed => exact absurd rfl ht

/-- Settles O14: the commands not accepted while FAULT = 1 are the gated ones. -/
theorem faultStateRejectsOtherCommands : Obligations.FaultStateRejectsOtherCommands := by
  unfold Obligations.FaultStateRejectsOtherCommands
  intro i s c hf hi
  have hacc : i.opcode.acceptedInFault = false := by
    rw [← Bool.not_eq_true, Opcode.acceptedInFault_iff]
    exact hi
  obtain ⟨body, hexec, -⟩ := exec_gated hacc s
  rw [hexec, State.gated_fault hf]
  rfl

/-- Settles O15: with FAULT = 1 a command but INIT and DEINIT is rejected, takes a later fault, or observes. -/
theorem faultIsStickyUntilInitOrDeinit : Obligations.FaultIsStickyUntilInitOrDeinit := by
  unfold Obligations.FaultIsStickyUntilInitOrDeinit
  intro i s t c hf hinit hdeinit h
  cases exec_ends h with
  | rejected | observed => exact ⟨hf, rfl⟩
  | @faulted cause _ =>
    rw [State.takeFault_later hf]
    exact ⟨hf, rfl⟩
  | performed hfault => simp [hf] at hfault
  | initFaulted hi | created hi => exact absurd hi (hinit _)
  | destroyed hi => exact absurd hi hdeinit

/-- Settles O16: a command that needs a network takes ENOTINIT, and its STATUS then has INITD = 0. -/
theorem commandsNeedANetwork : Obligations.CommandsNeedANetwork := by
  unfold Obligations.CommandsNeedANetwork
  intro i s hf hl hnop hinit hdeinit hstatus hmode hmoden
  have hlegal := operandLegal_of_bounds hmode hmoden
  rw [exec_noNetwork hf hl hnop hinit hdeinit hstatus hlegal, State.takeFault_first hf, hl]
  rfl

/-- Settles O18: FAULT is set by the ends that take a fault, for a cause the command may raise. -/
theorem eachCauseComesFromItsCommands : Obligations.EachCauseComesFromItsCommands := by
  unfold Obligations.EachCauseComesFromItsCommands
  intro i s t cause hf h ht
  have hcause : MayRaise i cause := by
    cases exec_ends h with
    | rejected hfault => simp [hf] at hfault
    | observed => simp [hf] at ht
    | performed _ _ hu => simp [hu.fault, hf] at ht
    | created _ hu => cases hu.fault.symm.trans ht
    | destroyed => cases ht
    | faulted hcause =>
      rw [State.takeFault_fault, hf] at ht
      cases ht
      exact hcause
    | initFaulted _ hcause =>
      cases ht
      exact hcause
  cases cause <;> exact hcause

/-- Settles O56: an observation answers the state it found, or takes a fault, which an earlier one hides. -/
theorem observationChangesNoState : Obligations.ObservationChangesNoState := by
  unfold Obligations.ObservationChangesNoState
  intro i s t hi h
  cases exec_ends h with
  | observed => exact ⟨rfl, fun _ => rfl⟩
  | @faulted cause _ =>
    cases hf : s.fault with
    | none =>
      rw [State.takeFault_first hf, ← hf]
      exact ⟨rfl, fun hne => absurd rfl hne⟩
    | some c =>
      rw [State.takeFault_later hf, ← hf]
      exact ⟨rfl, fun _ => rfl⟩
  | rejected _ hacc | performed _ hacc =>
    have haccepted : i.opcode.acceptedInFault = true := by
      simp only [Opcode.acceptedInFault_iff, List.mem_cons] at hi ⊢
      tauto
    rw [haccepted] at hacc
    cases hacc
  | initFaulted he | created he | destroyed he =>
    subst he
    simp [Instr.opcode] at hi

end Sys2Proof.Machine
end

section
/-! PROOFS. The two statements about reset (70_reset_and_hazards.md R270): what the reset event leaves, and that the machine
starts within its invariants (10_state.md R28). -/

namespace Sys2Proof.Machine

/-! ## A machine without a network -/

section
variable {s : State}

/-- Without a network and without a fault, STATUS has no bit set (10_state.md R22). -/
theorem State.status_eq_zero (hl : s.lines = none) (hf : s.fault = none) : s.status = 0#32 := by
  rw [State.status, hl, hf]
  rfl

theorem State.inv_of_lines_none (hsane : s.cfg.sane = true) (hl : s.lines = none) : s.inv = true :=
  State.inv_iff.2 ⟨hsane, fun _ hls => by rw [hl] at hls; cases hls⟩

theorem State.ratesAgree_of_lines_none (hl : s.lines = none) : s.ratesAgree = s.registersBlank := by
  rw [State.ratesAgree, hl]

end

/-! ## Reset -/

theorem step_of_resetIn {s : State} (h : s.resetIn = true) : step s = .next s.hardwareResetEvent := if_pos h

theorem defaultParams_sane (fmt : NumFmt) : (defaultParams fmt).sane = true := by
  cases fmt <;> decide

theorem State.reset_registersBlank : State.reset.registersBlank = true := by decide

/-- Settles O9: the step is the reset event, whose fields the laws of the state give one by one. -/
theorem hardwareResetClearsEveryRegister : Obligations.HardwareResetClearsEveryRegister := by
  unfold Obligations.HardwareResetClearsEveryRegister
  intro s hreset
  have hstatus : s.hardwareResetEvent.status = 0#32 :=
    State.status_eq_zero (State.hardwareResetEvent_lines s) (State.hardwareResetEvent_fault s)
  exact ⟨_, step_of_resetIn hreset, hstatus, by simp⟩

/-- Settles O11: the default parameters are sane, there is no line to break an invariant, and every register is blank. -/
theorem resetStateMeetsTheInvariants : Obligations.ResetStateMeetsTheInvariants := by
  unfold Obligations.ResetStateMeetsTheInvariants
  have hlines : State.reset.lines = none := rfl
  have hrates : State.reset.ratesAgree = true :=
    (State.ratesAgree_of_lines_none hlines).trans State.reset_registersBlank
  exact ⟨State.inv_of_lines_none (defaultParams_sane .binary32) hlines, hrates, State.status_eq_zero hlines rfl,
    State.reset_registersBlank, hlines, rfl⟩

end Sys2Proof.Machine
end
